-- ==== Sys2Proof/Word.lean ====
section
/-!
DEFINITION. The words of the block (00_scope.md R5): bytes and 32-bit registers. A duration
is a natural number in the unit of `POLL_INTERVAL`: the spec gives durations no width and no number (R4, R207, D12).
-/

namespace Sys2Proof

/-- A byte, bit 7 the most significant (R5). -/
abbrev Byte := BitVec 8

/-- A 32-bit register of the host port (R14, R17). -/
abbrev Word32 := BitVec 32

end Sys2Proof
end

