-- ==== Sys2Proof/Config.lean ====
section
/-!
DEFINITION. The configuration `Cfg` (00_scope.md R4) and the values the spec leaves OPEN or free.

Every operation of the machine takes a `Cfg` as an argument (D32). An OPEN parameter of this hardware is an opaque
constant here, so a claim about the hardware holds for every value of it (log entry 6). The free values of the
environment are opaque functions of a plain counter of State (log entries 4 and 5).
-/

namespace Sys2Proof

/-- One element of `GSV`: the byte and the parameters of one gate/source-voltage command (R4, R133). -/
structure GsvEntry where
  cmd : Byte
  params : List Byte
  deriving DecidableEq, Repr, Inhabited

/-- The arguments `RESIZE_MAP` may depend on (R172): a target pixel, the source size and the target size. -/
structure ResizeArgs where
  x : Nat
  y : Nat
  imgW : Nat
  imgH : Nat
  width : Nat
  height : Nat
  deriving DecidableEq, Repr

/-- The immutable configuration: every parameter of R4, each a field. -/
structure Cfg where
  width : Nat
  height : Nat
  maxChunk : Nat
  spiMode : Nat
  spiWord : Nat
  spiHz : Nat
  spiMsbFirst : Bool
  hasPwr : Bool
  pinRst : Nat
  pinDc : Nat
  pinBusy : Nat
  pinPwr : Nat
  tPwrSettle : Nat
  tRstLow : Nat
  tRstHigh : Nat
  tSleepSettle : Nat
  pollInterval : Nat
  tInitBusy : Nat
  tRefresh : Nat
  cSwreset : Byte
  cDoc : Byte
  cDem : Byte
  cXwin : Byte
  cYwin : Byte
  cXcnt : Byte
  cYcnt : Byte
  cOld : Byte
  cNew : Byte
  cRefresh : Byte
  cDsleep : Byte
  pDsleep : List Byte
  pDoc : List Byte
  pDem : List Byte
  pXwin : List Byte
  pYwin : List Byte
  pXcnt : List Byte
  pYcnt : List Byte
  gsv : List GsvEntry
  imgDepthSet : List Nat
  /-- `RESIZE_MAP`: the source pixel (sx, sy) of a target pixel (R172, D27). -/
  resizeMap : ResizeArgs → Nat × Nat

/-- `ROW_BYTES` (R4). -/
def Cfg.rowBytes (c : Cfg) : Nat := c.width / 8

/-- `BMP_BYTES`, the exact bitmap length (R4). -/
def Cfg.bmpBytes (c : Cfg) : Nat := c.width * c.height / 8

/-- What R172 asks of a resize map: indices inside the source image, and the identity when the sizes are equal. -/
structure ResizeMapOk (f : ResizeArgs → Nat × Nat) : Prop where
  inside : ∀ a : ResizeArgs, 1 ≤ a.imgW → 1 ≤ a.imgH → a.x < a.width → a.y < a.height →
    (f a).1 < a.imgW ∧ (f a).2 < a.imgH
  identity : ∀ a : ResizeArgs, a.imgW = a.width → a.imgH = a.height → a.x < a.width → a.y < a.height →
    f a = (a.x, a.y)

/-- The invariants of a valid configuration (R4, R44, R172, U9); `WIDTH` and `HEIGHT` are `u32`. The spec's rules are
stated for a valid `Cfg` only. -/
structure Cfg.Valid (c : Cfg) : Prop where
  width_pos : 1 ≤ c.width
  width_u32 : c.width < 2 ^ 32
  width_mod : c.width % 8 = 0
  height_pos : 1 ≤ c.height
  height_u32 : c.height < 2 ^ 32
  chunk_pos : 1 ≤ c.maxChunk
  chunk_le : c.maxChunk ≤ 4096
  spi_mode : c.spiMode = 0
  spi_word : c.spiWord = 8
  msb_first : c.spiMsbFirst = true
  pins_distinct : [c.pinRst, c.pinDc, c.pinBusy, c.pinPwr].Nodup
  poll_pos : 1 ≤ c.pollInterval
  gsv_ne : c.gsv ≠ []
  depth_set : c.imgDepthSet = [8, 16]
  map_ok : ResizeMapOk c.resizeMap

namespace Config

/-! ### Values R4 states for this hardware -/

/-- `WIDTH` (R4). -/
def width : Nat := 800

/-- `HEIGHT` (R4). -/
def height : Nat := 480

/-- `MAX_CHUNK` (R4, D14). -/
def maxChunk : Nat := 4096

/-! ### OPEN parameters of this hardware (R4; log entry 6) -/

/-- `HAS_PWR`: whether the power-enable line exists (R4, D10, U16). -/
opaque hasPwr : Bool

/-- The four logical pins before `pins` makes them distinct; no rule depends on a number (R4). -/
opaque pinsRaw : Nat × Nat × Nat × Nat

/-- `T_PWR_SETTLE` (R4, D12). -/
opaque tPwrSettle : Nat

/-- `T_RST_LOW` (R4, D12). -/
opaque tRstLow : Nat

/-- `T_RST_HIGH` (R4, D12). -/
opaque tRstHigh : Nat

/-- `T_SLEEP_SETTLE` (R4, D12). -/
opaque tSleepSettle : Nat

/-- One less than `POLL_INTERVAL`, so that the interval is any duration above 0 (R4, D12). -/
opaque pollPred : Nat

/-- `T_INIT_BUSY` (R4, D12). -/
opaque tInitBusy : Nat

/-- `T_REFRESH` (R4, D12). -/
opaque tRefresh : Nat

/-- `P_DOC` (R4, D20). -/
opaque pDoc : List Byte

/-- `P_DEM` (R4, D20). -/
opaque pDem : List Byte

/-- `P_XWIN` (R4, D20). -/
opaque pXwin : List Byte

/-- `P_YWIN` (R4, D20). -/
opaque pYwin : List Byte

/-- `P_XCNT` (R4, D20). -/
opaque pXcnt : List Byte

/-- `P_YCNT` (R4, D20). -/
opaque pYcnt : List Byte

/-- The first gate/source-voltage command of `GSV`, which is not empty (R4, R133, D20). -/
opaque gsvHead : GsvEntry

/-- The gate/source-voltage commands of `GSV` after the first, if any (R4, R133, D20). -/
opaque gsvTail : List GsvEntry

/-! ### Free values (R26, U3, U5, U6; log entries 4 and 5) -/

/-- The level `draw_busy()` answers at the `n`-th free draw: any value (R26, U5). -/
opaque freeBusy : Nat → Bool

/-- Whether the transaction fails at the `n`-th free draw of `draw_fail()`: any value (R26, U6). -/
opaque freeFail : Nat → Bool

/-- How many bytes of a failed transaction reached the wire, before `Ops` bounds it by their number: any value (U3). -/
opaque freeShifted : Nat → Nat

end Config

end Sys2Proof
end

