-- ==== Sys2Proof/Syntax.lean ====
section
/-!
DEFINITION. The operations of the block as syntax (00_scope.md R3, 30_encoding.md R70, R71, R74): one constructor per
row of spec/opcode_table.json, and the interface (level) an operation is issued at.
-/

namespace Sys2Proof

/-- The operand `src` of `WRITE_DATA` (R71): a literal list, the complement of `LATCH`, or `LATCH`. -/
inductive Src where
  | lit (bytes : List Byte)
  | bmpInv
  | bmp
  deriving DecidableEq, Repr

/-- The 25 operations: level H (R70), level P (R71), level W (R74). -/
inductive Instr where
  -- level H, host operations
  | init
  | displayFull
  | sleep
  | encode
  -- level P, transport primitives
  | writeCmd (code : Byte)
  | writeData (src : Src)
  | waitBusy (timeout : Nat)
  | setPwr (level : Bool)
  | setRst (level : Bool)
  | delay (d : Nat)
  | setDc (level : Bool)
  | spiTxn (bytes : List Byte)
  | readBusy
  -- level W, wire commands
  | swreset
  | drvOutCtrl
  | gateSrcVolt
  | dataEntry
  | xWindow
  | yWindow
  | xCounter
  | yCounter
  | writeOld
  | writeNew
  | refresh
  | deepSleep
  deriving DecidableEq, Repr

/-- Where a wire command is emitted (R74, column "where"), which tells apart the commands that share a byte (R75). The
place of `GATE_SRC_VOLT` in `INIT` is its own context, because its byte is OPEN. -/
inductive WireCtx where
  | init
  | initGsv
  | display
  | sleep
  deriving DecidableEq, Repr

/-- The interface an operation is issued at (R3): the host port, the sequencer's primitives, the wire. Each has an
encoding of its own (30_encoding.md). -/
inductive Level where
  | host
  | micro
  | wire (ctx : WireCtx)
  deriving DecidableEq, Repr

/-- The level of each operation, and for a wire command the context of R74. -/
def Instr.level : Instr → Level
  | .init | .displayFull | .sleep | .encode => .host
  | .writeCmd _ | .writeData _ | .waitBusy _ | .setPwr _ | .setRst _ | .delay _ | .setDc _ | .spiTxn _ | .readBusy =>
    .micro
  | .swreset | .drvOutCtrl | .dataEntry | .xWindow | .yWindow | .xCounter | .yCounter => .wire .init
  | .gateSrcVolt => .wire .initGsv
  | .writeOld | .writeNew | .refresh => .wire .display
  | .deepSleep => .wire .sleep

end Sys2Proof
end

