-- ==== Sys2Proof/WellFormed.lean ====
section
/-!
DEFINITION. Which operations are well formed: the operand ranges of R71 and R101, and the ranges the byte encoding of
the operands can carry (log entry 12).
-/

namespace Sys2Proof

/-- The number of bytes of one bus transaction is 1 to `MAX_CHUNK` (R101). -/
def txnLengthOk (maxChunk : Nat) (bytes : List Byte) : Bool :=
  decide (1 ≤ bytes.length) && decide (bytes.length ≤ maxChunk)

/-- A literal list the four length bytes can carry (log entry 12). -/
def Src.wellFormed : Src → Bool
  | .lit bytes => decide (bytes.length < 2 ^ 32)
  | .bmpInv => true
  | .bmp => true

/-- Well-formed operands: `SPI_TXN` of 1 to `MAX_CHUNK` bytes (R101), durations and literal lists that fit their
operand field (log entry 12). The other operations have no operand that could be ill formed. -/
def Instr.wellFormed : Instr → Bool
  | .writeData src => src.wellFormed
  | .waitBusy t => decide (t < 2 ^ 64)
  | .delay d => decide (d < 2 ^ 64)
  | .spiTxn bytes => txnLengthOk Config.maxChunk bytes
  | .init | .displayFull | .sleep | .encode => true
  | .writeCmd _ | .setPwr _ | .setRst _ | .setDc _ | .readBusy => true
  | .swreset | .drvOutCtrl | .gateSrcVolt | .dataEntry | .xWindow | .yWindow | .xCounter | .yCounter => true
  | .writeOld | .writeNew | .refresh | .deepSleep => true

/-- `Instr.wellFormed` as a proposition. -/
abbrev Instr.WellFormed (i : Instr) : Prop := i.wellFormed = true

end Sys2Proof
end

