-- ==== Sys2Proof/Decode.lean ====
section
/-!
DEFINITION. The three encodings (30_encoding.md): host codes (R70), micro-operation ordinals (R71), wire command bytes
(R74), each read at its own level; then the encoder, and the reading of a word of spec/opcode_table.json.

The spec gives format P no operand bits and formats H and P no byte container; those are the model's (log entry 12).
-/

namespace Sys2Proof

/-! ### Command bytes (00_scope.md R4, R74) -/

/-- `C_SWRESET`. -/
def cSwreset : Byte := 0x12
/-- `C_DOC`. -/
def cDoc : Byte := 0x01
/-- `C_DEM`. -/
def cDem : Byte := 0x11
/-- `C_XWIN`. -/
def cXwin : Byte := 0x44
/-- `C_YWIN`. -/
def cYwin : Byte := 0x45
/-- `C_XCNT`. -/
def cXcnt : Byte := 0x4E
/-- `C_YCNT`. -/
def cYcnt : Byte := 0x4F
/-- `C_OLD`. -/
def cOld : Byte := 0x10
/-- `C_NEW`. -/
def cNew : Byte := 0x13
/-- `C_REFRESH`; the same byte as `C_SWRESET` (C1). -/
def cRefresh : Byte := 0x12
/-- `C_DSLEEP`; the same byte as `C_OLD` (C2). -/
def cDsleep : Byte := 0x10
/-- `P_DSLEEP` (R142). -/
def pDsleep : List Byte := [0x01]

/-! ### Decoding -/

/-- Why bytes are no operation at the level they were issued at. -/
inductive DecodeError where
  /-- No byte at all. -/
  | empty
  /-- A byte above the 2-bit host code (R70). -/
  | notHostCode (b : Byte)
  /-- An ordinal `1001` to `1111`, or a byte above the 4-bit ordinal (R71, R80). -/
  | unusedOrdinal (b : Byte)
  /-- An operand field that ends early (log entry 12). -/
  | operandCut
  /-- A source tag that is none of `Lit`, `BmpInv`, `Bmp` (log entry 12). -/
  | notSource (b : Byte)
  /-- A level byte that is neither 0 nor 1 (log entry 12). -/
  | notLevel (b : Byte)
  /-- A byte the sequencer does not send as a command in this context (R74, R80), or the byte of a later element of `GSV`
  that differs from the first element's (log entry 28). -/
  | notInContext (ctx : WireCtx) (b : Byte)
  deriving DecidableEq, Repr

/-- What decoding answers: an operation with the bytes after it, or a named refusal. -/
abbrev Decoded := Except DecodeError (Instr × List Byte)

/-- A host code (R70): 2 bits in the low end of one byte. -/
def decodeHost : List Byte → Decoded
  | [] => .error .empty
  | b :: rest =>
    if b = 0x00 then .ok (.init, rest)
    else if b = 0x01 then .ok (.displayFull, rest)
    else if b = 0x02 then .ok (.sleep, rest)
    else if b = 0x03 then .ok (.encode, rest)
    else .error (.notHostCode b)

/-- A number of `k` bytes, least significant first (log entry 12). -/
def takeNumber : Nat → List Byte → Option (Nat × List Byte)
  | 0, bs => some (0, bs)
  | _ + 1, [] => none
  | k + 1, b :: bs =>
    match takeNumber k bs with
    | some (v, rest) => some (b.toNat + 256 * v, rest)
    | none => none

/-- Exactly `n` bytes (log entry 12). -/
def takeBytes (n : Nat) (bs : List Byte) : Option (List Byte × List Byte) :=
  if n ≤ bs.length then some (bs.take n, bs.drop n) else none

/-- A list of bytes: its length less `bias` in `k` bytes, then the bytes (log entry 12). -/
def takeList (k bias : Nat) (bs : List Byte) : Option (List Byte × List Byte) :=
  match takeNumber k bs with
  | some (n, rest) => takeBytes (n + bias) rest
  | none => none

/-- A 1-bit operand in one byte, wrapped in its operation (log entry 12). -/
def decodeLevelOperand (mk : Bool → Instr) : List Byte → Decoded
  | [] => .error .operandCut
  | b :: rest =>
    if b = 0x00 then .ok (mk false, rest)
    else if b = 0x01 then .ok (mk true, rest)
    else .error (.notLevel b)

/-- A duration operand, wrapped in its operation (log entry 12). -/
def decodeDuration (mk : Nat → Instr) (bs : List Byte) : Decoded :=
  match takeNumber 8 bs with
  | some (d, rest) => .ok (mk d, rest)
  | none => .error .operandCut

/-- The operand `src` of `WRITE_DATA` (R71). -/
def decodeSource : List Byte → Decoded
  | [] => .error .operandCut
  | b :: rest =>
    if b = 0x00 then
      match takeList 4 0 rest with
      | some (bytes, rest') => .ok (.writeData (.lit bytes), rest')
      | none => .error .operandCut
    else if b = 0x01 then .ok (.writeData .bmpInv, rest)
    else if b = 0x02 then .ok (.writeData .bmp, rest)
    else .error (.notSource b)

/-- A micro-operation (R71): the ordinal in the low end of one byte, then its operand. -/
def decodeMicro : List Byte → Decoded
  | [] => .error .empty
  | u :: bs =>
    if u = 0x00 then
      match bs with
      | code :: rest => .ok (.writeCmd code, rest)
      | [] => .error .operandCut
    else if u = 0x01 then decodeSource bs
    else if u = 0x02 then decodeDuration .waitBusy bs
    else if u = 0x03 then decodeLevelOperand .setPwr bs
    else if u = 0x04 then decodeLevelOperand .setRst bs
    else if u = 0x05 then decodeDuration .delay bs
    else if u = 0x06 then decodeLevelOperand .setDc bs
    else if u = 0x07 then
      match takeList 2 1 bs with
      | some (bytes, rest) => .ok (.spiTxn bytes, rest)
      | none => .error .operandCut
    else if u = 0x08 then .ok (.readBusy, bs)
    else .error (.unusedOrdinal u)

/-- The wire command a byte names in a context (R74, R75). DESIGN CHOICE (log entry 28): R74 and R133 give each element of
`GSV` a byte of its own; here the first element's byte issues `GATE_SRC_VOLT`, the whole loop, and a later element's byte
that differs names none. -/
def wireCommand (ctx : WireCtx) (b : Byte) : Option Instr :=
  match ctx with
  | .init =>
    if b = cSwreset then some .swreset
    else if b = cDoc then some .drvOutCtrl
    else if b = cDem then some .dataEntry
    else if b = cXwin then some .xWindow
    else if b = cYwin then some .yWindow
    else if b = cXcnt then some .xCounter
    else if b = cYcnt then some .yCounter
    else none
  | .initGsv => if b = Config.gsvHead.cmd then some .gateSrcVolt else none
  | .display =>
    if b = cOld then some .writeOld
    else if b = cNew then some .writeNew
    else if b = cRefresh then some .refresh
    else none
  | .sleep => if b = cDsleep then some .deepSleep else none

/-- A wire command byte in its context (R74). -/
def decodeWire (ctx : WireCtx) : List Byte → Decoded
  | [] => .error .empty
  | b :: rest =>
    match wireCommand ctx b with
    | some i => .ok (i, rest)
    | none => .error (.notInContext ctx b)

/-- The operation some bytes encode at a level, with the bytes after it: total on any bytes. -/
def decode : Level → List Byte → Decoded
  | .host => decodeHost
  | .micro => decodeMicro
  | .wire ctx => decodeWire ctx

/-! ### Encoding -/

/-- `v` in `k` bytes, least significant first (log entry 12). -/
def putNumber : Nat → Nat → List Byte
  | 0, _ => []
  | k + 1, v => BitVec.ofNat 8 v :: putNumber k (v / 256)

/-- A 1-bit operand (log entry 12). -/
def putLevel (l : Bool) : Byte := if l then 0x01 else 0x00

/-- The operand `src` of `WRITE_DATA` (log entry 12). -/
def putSource : Src → List Byte
  | .lit bytes => 0x00 :: (putNumber 4 bytes.length ++ bytes)
  | .bmpInv => [0x01]
  | .bmp => [0x02]

/-- The bytes of an operation at its level (R70, R71, R74). A wire command is its command byte; its parameters are data
of the frame (R72), not part of the code. DESIGN CHOICE (log entry 28): that of `GATE_SRC_VOLT` is the byte of the first
element of `GSV`. -/
def encode : Instr → List Byte
  | .init => [0x00]
  | .displayFull => [0x01]
  | .sleep => [0x02]
  | .encode => [0x03]
  | .writeCmd code => [0x00, code]
  | .writeData src => 0x01 :: putSource src
  | .waitBusy t => 0x02 :: putNumber 8 t
  | .setPwr l => [0x03, putLevel l]
  | .setRst l => [0x04, putLevel l]
  | .delay d => 0x05 :: putNumber 8 d
  | .setDc l => [0x06, putLevel l]
  | .spiTxn bytes => 0x07 :: (putNumber 2 (bytes.length - 1) ++ bytes)
  | .readBusy => [0x08]
  | .swreset => [cSwreset]
  | .drvOutCtrl => [cDoc]
  | .gateSrcVolt => [Config.gsvHead.cmd]
  | .dataEntry => [cDem]
  | .xWindow => [cXwin]
  | .yWindow => [cYwin]
  | .xCounter => [cXcnt]
  | .yCounter => [cYcnt]
  | .writeOld => [cOld]
  | .writeNew => [cNew]
  | .refresh => [cRefresh]
  | .deepSleep => [cDsleep]

/-! ### A word of spec/opcode_table.json -/

/-- The level a table word is read at (log entry 13). The table gives three levels overlapping words and the word does
not say its level: a word of at most 2 bits is a host code, of at most 4 bits an ordinal; of a whole byte, the host
codes come first, then the ordinals, then the wire bytes in the context R74 lists first. -/
def tableLevel (nbits w : Nat) : Level :=
  if nbits ≤ 2 then .host
  else if nbits ≤ 4 then .micro
  else if w ≤ 3 then .host
  else if w ≤ 8 then .micro
  else if w = 0x10 ∨ w = 0x13 then .wire .display
  else .wire .init

/-- `k` bytes of `w`, the least significant first. -/
def wordBytes : Nat → Nat → List Byte
  | 0, _ => []
  | k + 1, w => BitVec.ofNat 8 w :: wordBytes k (w / 256)

/-- The bytes of a table word as the block is issued them, then zeros for the operands the table gives no bits. No
operation whose operand bits are all zero is longer than 16 bytes. -/
def tableBytes (nbits w : Nat) : List Byte :=
  wordBytes ((nbits + 7) / 8) w ++ List.replicate 16 0x00

/-- The operation the decoder reads from a table word. -/
def decodeTableWord (nbits w : Nat) : Option Instr :=
  match decode (tableLevel nbits w) (tableBytes nbits w) with
  | .ok (i, _) => some i
  | .error _ => none

end Sys2Proof
end

