-- ==== Sys2Proof/Machine/Hardware.lean ====
section
/-!
DEFINITION. The configuration of this hardware (00_scope.md R4, D32): 800 by 480, chunks of 4096, the floor map, the
command bytes of Decode, and the OPEN parameters of Config.
-/

namespace Sys2Proof.Machine

/-- `RESIZE_MAP`: the floor map (R172, D27); the products are natural numbers, so they do not overflow (R177). -/
def floorMap (a : ResizeArgs) : Nat × Nat :=
  (a.x * a.imgW / a.width, a.y * a.imgH / a.height)

/-- The four pins, with the raw numbers where they differ and four different ones otherwise (R4, U9; log entry 6). -/
def distinctPins (p : Nat × Nat × Nat × Nat) : Nat × Nat × Nat × Nat :=
  if [p.1, p.2.1, p.2.2.1, p.2.2.2].Nodup then p else (0, 1, 2, 3)

/-- The configuration of this hardware (R4). -/
def hw : Cfg where
  width := Config.width
  height := Config.height
  maxChunk := Config.maxChunk
  spiMode := 0
  spiWord := 8
  spiHz := 2000000
  spiMsbFirst := true
  hasPwr := Config.hasPwr
  pinRst := (distinctPins Config.pinsRaw).1
  pinDc := (distinctPins Config.pinsRaw).2.1
  pinBusy := (distinctPins Config.pinsRaw).2.2.1
  pinPwr := (distinctPins Config.pinsRaw).2.2.2
  tPwrSettle := Config.tPwrSettle
  tRstLow := Config.tRstLow
  tRstHigh := Config.tRstHigh
  tSleepSettle := Config.tSleepSettle
  pollInterval := Config.pollPred + 1
  tInitBusy := Config.tInitBusy
  tRefresh := Config.tRefresh
  cSwreset := Sys2Proof.cSwreset
  cDoc := Sys2Proof.cDoc
  cDem := Sys2Proof.cDem
  cXwin := Sys2Proof.cXwin
  cYwin := Sys2Proof.cYwin
  cXcnt := Sys2Proof.cXcnt
  cYcnt := Sys2Proof.cYcnt
  cOld := Sys2Proof.cOld
  cNew := Sys2Proof.cNew
  cRefresh := Sys2Proof.cRefresh
  cDsleep := Sys2Proof.cDsleep
  pDsleep := Sys2Proof.pDsleep
  pDoc := Config.pDoc
  pDem := Config.pDem
  pXwin := Config.pXwin
  pYwin := Config.pYwin
  pXcnt := Config.pXcnt
  pYcnt := Config.pYcnt
  gsv := Config.gsvHead :: Config.gsvTail
  imgDepthSet := [8, 16]
  resizeMap := floorMap

end Sys2Proof.Machine
end

