-- ==== Sys2Proof/Machine/State.lean ====
section
/-!
DEFINITION. The state of the block as plain data (10_state.md), the results and stops of a step, and the state after
reset (R27, R230).
-/

namespace Sys2Proof.Machine

/-- `ST`, the panel state (R11). -/
inductive PanelState where
  | uninitialized
  | awake
  | transferring
  | asleep
  deriving DecidableEq, Repr, Inhabited

/-- `SEQ.op`: the operation the sequencer is in (R13). -/
inductive SeqOp where
  | idle
  | init
  | display
  | sleep
  | encode
  deriving DecidableEq, Repr, Inhabited

/-- `SEQ`, the sequencer position (R13). -/
structure Seq where
  op : SeqOp
  step : Nat
  off : Nat
  deriving DecidableEq, Repr, Inhabited

/-- The lines whose writes the trace records (R24). -/
inductive Line where
  | pwr
  | rst
  | dc
  deriving DecidableEq, Repr, Inhabited

/-- One event of the trace (R24). -/
inductive Event where
  | pin (line : Line) (level : Bool)
  | txn (dc : Bool) (bytes : List Byte)
  | txnFail (dc : Bool) (bytes : List Byte)
  | sample (level : Bool)
  | delay (d : Nat)
  deriving DecidableEq, Repr, Inhabited

/-- The transport-level cause of a failure (R190, R191, R192). -/
inductive Cause where
  | busError
  | timeout
  deriving DecidableEq, Repr, Inhabited

/-- `DriverError` (R190). -/
inductive DriverError where
  | invalidState
  | geometryMismatch
  | initFailed (cause : Cause)
  | transferFailed (offset : Nat)
  | refreshTimeout
  | sleepFailed
  deriving DecidableEq, Repr, Inhabited

/-- The result every level-H operation ends with (R190). -/
inductive OpResult where
  | ok
  | err (e : DriverError)
  deriving DecidableEq, Repr, Inhabited

/-- What a transport primitive answers its caller (R7, R190): `Ok`, `Err(BusError)` with the offset reached,
`Err(Timeout)`, or the one bit of `READ_BUSY`. -/
inductive Ret where
  | ok
  | busError (offset : Nat)
  | timeout
  | level (b : Bool)
  deriving DecidableEq, Repr, Inhabited

/-- One pixel of `IMG`: three channel values (R19). The channel is as wide as the greatest depth, 16 bits (log entry 11). -/
structure Pixel where
  r : BitVec 16
  g : BitVec 16
  b : BitVec 16
  deriving DecidableEq, Repr, Inhabited

/-- One write of the host port (R14, R18, R19, R25). -/
inductive HostWrite where
  | bmpLen (v : Word32)
  | thresh (v : Byte)
  | invert (v : Bool)
  | imgW (v : Word32)
  | imgH (v : Word32)
  | imgDepth (v : Byte)
  | bmp (addr : Word32) (v : Byte)
  | img (sx sy : Word32) (p : Pixel)
  deriving DecidableEq, Repr

/-- What the host asks for while the block is idle: a level-H operation, as the bytes of its code, or a write of the
host port (R25, R82; log entry 2). -/
inductive Request where
  | issue (code : List Byte)
  | write (w : HostWrite)
  deriving DecidableEq, Repr

/-- The ways the machine stops with a fault. -/
inductive Fault where
  /-- `step`, when `SEQ.step` is past the end of the micro-program of `SEQ.op`, which R13 says never occurs. Safe: the
  machine stops where the spec gives no next micro-operation. -/
  | sequencerLost
  deriving DecidableEq, Repr

/-- The ways an operation is refused. -/
inductive Refusal where
  /-- An arm of `exec` whose meaning is not written. Safe. -/
  | notModelled (mnemonic : String)
  /-- `step`, on an issued code that is no operation at its level (R80). Safe: such a code cannot be issued. -/
  | undecodable (e : DecodeError)
  /-- `step`, on an operation whose operands are out of range (R71, R101). Safe. -/
  | illFormed
  /-- A level-H meaning, when the sequencer is not idle: the model gives the host no such move (R155, R238, D31, U7).
  Unsafe for a host that breaks the contract (log entry 3). -/
  | opInProgress
  /-- `ENCODE`, when its operands break the `require` line (R170, D29, U8). Safe. -/
  | encodeOperands
  /-- `SPI_TXN`, when its length breaks the `assert` line (R101). Safe. -/
  | txnLength
  deriving DecidableEq, Repr

/-- The state of the block (R10), the host port, and the model's own fields (log entries 2, 4, 15, 16,
17). -/
structure State where
  /-- `ST` (R11). -/
  st : PanelState
  /-- `SEQ` (R13). -/
  seq : Seq
  /-- `PWR` (R15). -/
  pwr : Bool
  /-- `RST` (R15). -/
  rst : Bool
  /-- `DC` (R15). -/
  dc : Bool
  /-- `CS` (R15). -/
  cs : Bool
  /-- `SCLK` (R15). -/
  sclk : Bool
  /-- `MOSI` (R15). -/
  mosi : Bool
  /-- `STATUS` (R16). -/
  status : Byte
  /-- `OFFSET` (R17). -/
  offset : Word32
  /-- `res_valid` (R25). -/
  resValid : Bool
  /-- `BMP_LEN` (R14). -/
  bmpLen : Word32
  /-- `THRESH` (R14). -/
  thresh : Byte
  /-- `INVERT` (R14). -/
  invert : Bool
  /-- `IMG_W` (R14). -/
  imgW : Word32
  /-- `IMG_H` (R14). -/
  imgH : Word32
  /-- `IMG_DEPTH` (R14). -/
  imgDepth : Byte
  /-- `BMP` (R18): the listed bytes. -/
  bmp : List Host.Cell
  /-- `IMG` (R19): the listed pixels, by `pixelKey`. -/
  img : List (Nat × Pixel)
  /-- `LATCH` (R21): the listed bytes. -/
  latch : List Host.Cell
  /-- `ELAPSED` (R20). -/
  elapsed : Nat
  /-- `TR` (R24), oldest first. -/
  tr : List Event
  /-- What the last primitive answered (the model's own; log entry 15). -/
  ret : Ret
  /-- Requests at the host port, oldest first (R25, R82; log entry 2). -/
  pending : List Request
  /-- One primitive or wire command put into the sequencer from outside the machine, by its level and code (the model's
  own; log entry 17). No step sets it, so from reset the sequencer alone calls the primitives (R112). -/
  bench : Option (Level × List Byte)
  /-- Answers of `draw_busy()` to come, before free ones (R26; log entry 4). -/
  busyIn : List Bool
  /-- Answers of `draw_fail()` to come, before free ones (R26; log entry 4). -/
  failIn : List Bool
  /-- How many free values have been drawn (the model's own; log entry 4). -/
  draws : Nat
  deriving DecidableEq, Repr

/-- The state after reset (R27, R230); the items R27 calls unspecified hold the values log entry 8 names. -/
def State.reset : State where
  st := .uninitialized
  seq := ⟨.idle, 0, 0⟩
  pwr := false
  rst := false
  dc := false
  cs := true
  sclk := false
  mosi := false
  status := 0x00
  offset := 0
  resValid := false
  bmpLen := 0
  thresh := 0
  invert := false
  imgW := 1
  imgH := 1
  imgDepth := 8
  bmp := []
  img := []
  latch := []
  elapsed := 0
  tr := []
  ret := .ok
  pending := []
  bench := none
  busyIn := []
  failIn := []
  draws := 0

end Sys2Proof.Machine
end

