-- ==== Sys2Proof/Machine/Flags.lean ====
section
/-!
DEFINITION. The result registers: `KIND`, `PHASE`, the assembly of `STATUS` and `OFFSET` (R16, R17, R79), and the code
of `ST` (R11).
-/

namespace Sys2Proof.Machine

/-- The cause as a `KIND` (R16). -/
def Cause.kind : Cause → BitVec 4
  | .busError => 1
  | .timeout => 2

/-- `KIND`, `STATUS[3:0]` (R16). -/
def OpResult.kind : OpResult → BitVec 4
  | .ok => 0
  | .err .invalidState => 3
  | .err .geometryMismatch => 4
  | .err (.initFailed cause) => cause.kind
  | .err (.transferFailed _) => Cause.kind .busError
  | .err .refreshTimeout => Cause.kind .timeout
  | .err .sleepFailed => Cause.kind .busError

/-- `PHASE`, `STATUS[7:4]` (R16). -/
def OpResult.phase : OpResult → BitVec 4
  | .ok => 0
  | .err .invalidState => 0
  | .err .geometryMismatch => 0
  | .err (.initFailed _) => 1
  | .err (.transferFailed _) => 2
  | .err .refreshTimeout => 3
  | .err .sleepFailed => 4

/-- `STATUS = (PHASE << 4) | KIND` (R79). -/
def OpResult.status (r : OpResult) : Byte := r.phase ++ r.kind

/-- `OFFSET`: the offset of `TransferFailed`, 0 after every other result (R17; log entry 22). -/
def OpResult.offset : OpResult → Word32
  | .err (.transferFailed offset) => BitVec.ofNat 32 offset
  | .ok | .err .invalidState | .err .geometryMismatch | .err (.initFailed _) | .err .refreshTimeout
  | .err .sleepFailed => 0

/-- The eight values `STATUS` takes (R16). -/
def legalStatus : List Byte := [0x00, 0x03, 0x04, 0x11, 0x12, 0x21, 0x32, 0x41]

/-- The 2-bit code of `ST` (R11). -/
def PanelState.code : PanelState → BitVec 2
  | .uninitialized => 0
  | .awake => 1
  | .transferring => 2
  | .asleep => 3

end Sys2Proof.Machine
end

