-- ==== Sys2Proof/Machine/Memory.lean ====
section
/-!
DEFINITION. The buffers `BMP`, `LATCH` and `IMG` as sparse lists in one canonical form: addresses strictly rising, no
entry equal to what an unlisted address reads as (R18, R19, R21, R40; log entries 9 to 11). `MemRead` and `MemWrite` of
R6.
-/

namespace Sys2Proof.Machine

/-- The value at an address; `d` where nothing is listed. -/
def Sparse.read {α : Type} (d : α) : List (Nat × α) → Nat → α
  | [], _ => d
  | (k, v) :: m, a => if k = a then v else Sparse.read d m a

/-- The list with `v` at address `a`, in canonical form when the list was. -/
def Sparse.write {α : Type} [DecidableEq α] (d : α) : List (Nat × α) → Nat → α → List (Nat × α)
  | [], a, v => if v = d then [] else [(a, v)]
  | (k, w) :: m, a, v =>
    if a < k then (if v = d then (k, w) :: m else (a, v) :: (k, w) :: m)
    else if a = k then (if v = d then m else (a, v) :: m)
    else (k, w) :: Sparse.write d m a v

/-- The canonical form: addresses strictly rising, nothing listed that an unlisted address would read as. -/
abbrev Sparse.Wf {α : Type} [DecidableEq α] (d : α) (m : List (Nat × α)) : Prop :=
  m.Pairwise (fun p q => p.1 < q.1) ∧ ∀ p ∈ m, p.2 ≠ d

/-- What an unlisted byte of `BMP` or `LATCH` reads as (log entry 9). -/
def unlistedByte : Byte := 0x00

/-- What an unlisted pixel of `IMG` reads as (log entry 9). -/
def unlistedPixel : Pixel := ⟨0, 0, 0⟩

/-- A byte-addressed buffer. -/
abbrev Memory := List Host.Cell

/-- The canonical form of a byte-addressed buffer. -/
abbrev Memory.wf (m : Memory) : Prop := Sparse.Wf unlistedByte m

/-- `MemRead(m, a, 1)` (R6). -/
def Memory.read (m : Memory) (a : Nat) : Byte := Sparse.read unlistedByte m a

/-- `MemWrite(m, a, 1, v)` (R6). -/
def Memory.write (m : Memory) (a : Nat) (v : Byte) : Memory := Sparse.write unlistedByte m a v

/-- `MemRead(m, a, n)` (R6). -/
def Memory.readRange (m : Memory) (a n : Nat) : List Byte :=
  (List.range n).map (fun i => m.read (a + i))

/-- `MemWrite(m, a, n, v)` (R6). -/
def Memory.writeRange (m : Memory) : Nat → List Byte → Memory
  | _, [] => m
  | a, v :: vs => Memory.writeRange (m.write a v) (a + 1) vs

/-- The first `n` bytes of a buffer, as a buffer. -/
def Memory.restrict (m : Memory) (n : Nat) : Memory := m.filter (fun p => decide (p.1 < n))

/-- Where `IMG[sy][sx]` is listed; `sx` is a 32-bit number (log entry 11). -/
def pixelKey (sx sy : Nat) : Nat := sy * 2 ^ 32 + sx

/-- The pixels of `IMG`. -/
abbrev Pixels := List (Nat × Pixel)

/-- The canonical form of `IMG`. -/
abbrev Pixels.wf (m : Pixels) : Prop := Sparse.Wf unlistedPixel m

/-- `IMG[sy][sx]` (R6, R19). -/
def Pixels.read (m : Pixels) (sx sy : Nat) : Pixel := Sparse.read unlistedPixel m (pixelKey sx sy)

/-- A host write of `IMG[sy][sx]` (R19, R25). -/
def Pixels.write (m : Pixels) (sx sy : Nat) (p : Pixel) : Pixels := Sparse.write unlistedPixel m (pixelKey sx sy) p

end Sys2Proof.Machine
end

