-- ==== Sys2Proof/Machine/Operands.lean ====
section
/-!
DEFINITION. The operand forms: the chunks of a data buffer (R42, R45, R77), the sources of `WRITE_DATA` (R71, R76, R78),
and the bits of one byte on the wire (R100).
-/

namespace Sys2Proof.Machine

/-- Chunk `k` of a buffer: `b[k*M .. min((k+1)*M, L))` (R77). -/
def chunk (m k : Nat) (b : List Byte) : List Byte := (b.drop (k * m)).take m

/-- How many chunks a buffer of length `len` has: `ceil(L / M)` (R77). -/
def chunkCount (m len : Nat) : Nat := (len + m - 1) / m

/-- The chunks of a buffer in ascending order (R42, R77). -/
def chunks (m : Nat) (b : List Byte) : List (List Byte) :=
  (List.range (chunkCount m b.length)).map (fun k => chunk m k b)

/-- `LATCH[0 .. BMP_BYTES)` (R78). -/
def latchBytes (c : Cfg) (s : State) : List Byte := Memory.readRange s.latch 0 c.bmpBytes

/-- The bytes a source of `WRITE_DATA` names (R71, R76, R78). -/
def sourceBytes (c : Cfg) (s : State) : Src → List Byte
  | .lit bytes => bytes
  | .bmp => latchBytes c s
  | .bmpInv => (latchBytes c s).map (fun v => ~~~v)

/-- The bits of a byte in the order they are shifted out, bit 7 first (R100, D17). -/
def msbFirst (v : Byte) : List Bool := [7, 6, 5, 4, 3, 2, 1, 0].map (fun i => v.getLsbD i)

/-- The levels of (`MOSI`, `SCLK`) while one byte is shifted: per bit, `MOSI` set up with the clock low, the rising
edge, the falling edge (R73, R100). -/
def shiftWave (v : Byte) : List (Bool × Bool) :=
  (msbFirst v).flatMap (fun b => [(b, false), (b, true), (b, false)])

/-- What a receiver of SPI mode 0 samples from a wave that starts with clock level `was`: `MOSI` at each rising edge
(R73). -/
def risingEdges : Bool → List (Bool × Bool) → List Bool
  | _, [] => []
  | was, (d, clk) :: w => if !was && clk then d :: risingEdges clk w else risingEdges clk w

end Sys2Proof.Machine
end

