-- ==== Sys2Proof/Machine/Ops.lean ====
section
/-!
DEFINITION. The named operations of the block: the trace, the draws of the environment, the bus transaction and the
transport primitives (40_transport.md), the frame `SEND` (R130), and the delivery of a result, which is the block's
trap entry (R148, R196, R200).

A primitive leaves its answer in `State.ret` (log entry 15).
-/

namespace Sys2Proof.Machine

/-- `emit e` (R6, R24). -/
def emit (e : Event) (s : State) : State := { s with tr := s.tr ++ [e] }

/-- A primitive answers its caller (R7). -/
def answer (r : Ret) (s : State) : State := { s with ret := r }

/-! ### The environment (R26) -/

/-- What `draw_busy()` answers now: the script's next level, or a free value (R26, U5). -/
def busyNow (s : State) : Bool :=
  match s.busyIn with
  | b :: _ => b
  | [] => Config.freeBusy s.draws

/-- The state after `draw_busy()` has answered. -/
def afterBusy (s : State) : State :=
  { s with busyIn := s.busyIn.tail, draws := if s.busyIn = [] then s.draws + 1 else s.draws }

/-- What `draw_fail()` answers now: the script's next answer, or a free value (R26, U6). -/
def failNow (s : State) : Bool :=
  match s.failIn with
  | b :: _ => b
  | [] => Config.freeFail s.draws

/-- The state after `draw_fail()` has answered. -/
def afterFail (s : State) : State :=
  { s with failIn := s.failIn.tail, draws := if s.failIn = [] then s.draws + 1 else s.draws }

/-- How many of the `n` bytes of a failed transaction reached the wire: a free number, 0 to `n` (U3). -/
def shiftedNow (n : Nat) (s : State) : Nat := Config.freeShifted s.draws % (n + 1)

/-- The state after that number has been drawn. -/
def afterShifted (s : State) : State := { s with draws := s.draws + 1 }

/-! ### Shifting bytes out (R100) -/

/-- The levels of (`MOSI`, `SCLK`) after `SPI_SHIFT` of each byte in order, from the levels `p`: the pins take every
level of each byte's wave in turn (R100, R101). -/
def shiftPins (bytes : List Byte) (p : Bool × Bool) : Bool × Bool :=
  bytes.foldl (fun q v => (shiftWave v).foldl (fun _ w => w) q) p

/-- `SPI_SHIFT` of each byte in order (R100, R101). -/
def shiftBytes (bytes : List Byte) (s : State) : State :=
  { s with mosi := (shiftPins bytes (s.mosi, s.sclk)).1, sclk := (shiftPins bytes (s.mosi, s.sclk)).2 }

/-! ### Transport primitives (40_transport.md) -/

/-- `CS <- level` (R15, R101). -/
def setCs (level : Bool) (s : State) : State := { s with cs := level }

/-- `SPI_TXN bytes` after its `assert` (R101). What a failed transaction put on the wire is unspecified (U3): some
first bytes of it, none and all included (log entry 5). -/
def spiTxn (bytes : List Byte) (s : State) : State :=
  let sel := setCs false s
  let drawn := afterFail sel
  if failNow sel then
    let sent := shiftBytes (bytes.take (shiftedNow bytes.length drawn)) (afterShifted drawn)
    answer (.busError 0) (emit (.txnFail s.dc bytes) (setCs true sent))
  else
    answer .ok (emit (.txn s.dc bytes) (setCs true (shiftBytes bytes drawn)))

/-- `SET_DC level` (R102). -/
def setDc (level : Bool) (s : State) : State := answer .ok (emit (.pin .dc level) { s with dc := level })

/-- `READ_BUSY` (R103). -/
def readBusy (s : State) : State :=
  answer (.level (busyNow s)) (emit (.sample (busyNow s)) (afterBusy s))

/-- `SET_RST level` (R104). -/
def setRst (level : Bool) (s : State) : State := answer .ok (emit (.pin .rst level) { s with rst := level })

/-- `SET_PWR level` (R105; log entry 14). -/
def setPwr (level : Bool) (s : State) : State := answer .ok (emit (.pin .pwr level) { s with pwr := level })

/-- `DELAY d` (R106). -/
def delay (d : Nat) (s : State) : State := answer .ok (emit (.delay d) s)

/-- `WRITE_CMD code` (R107). -/
def writeCmd (code : Byte) (s : State) : State := spiTxn [code] (setDc false s)

/-- `SEQ.off <- off`. -/
def setOff (off : Nat) (s : State) : State := { s with seq := { s.seq with off := off } }

/-- The loop of `WRITE_DATA` (R108): each chunk in order, until one fails; the offset reached is where it starts. -/
def sendChunks : List (List Byte) → State → State
  | [], s => answer .ok s
  | ch :: rest, s =>
    let t := spiTxn ch s
    match t.ret with
    | .busError _ => answer (.busError t.seq.off) t
    | .ok | .timeout | .level _ => sendChunks rest (setOff (t.seq.off + ch.length) t)

/-- `WRITE_DATA b` (R108). -/
def writeData (c : Cfg) (b : List Byte) (s : State) : State :=
  sendChunks (chunks c.maxChunk b) (setOff 0 (setDc true s))

/-- `ELAPSED <- d` (R20). -/
def setElapsed (d : Nat) (s : State) : State := { s with elapsed := d }

/-- The loop of `WAIT_BUSY` (R109), with a bound on its turns. -/
def waitLoop (c : Cfg) (timeout : Nat) : Nat → State → State
  | 0, s => answer .timeout s
  | fuel + 1, s =>
    let t := readBusy s
    if t.ret = .level false then answer .ok t
    else if timeout ≤ t.elapsed then answer .timeout t
    else waitLoop c timeout fuel (setElapsed (t.elapsed + c.pollInterval) (delay c.pollInterval t))

/-- `WAIT_BUSY timeout` (R109). The interval is at least 1, so the loop ends within `timeout + 1` turns and the bound
is never what ends it (log entry 18). -/
def waitBusy (c : Cfg) (timeout : Nat) (s : State) : State :=
  waitLoop c timeout (timeout + 1) (setElapsed 0 s)

/-- `off` is 0 outside a `WRITE_DATA` (R13; log entry 23). -/
def endData (s : State) : State := setOff 0 s

/-- `SEND(cmd, p)`, the frame of a wire command (R130). -/
def send (c : Cfg) (cmd : Byte) (p : List Byte) (s : State) : State :=
  let t := writeCmd cmd s
  match t.ret with
  | .ok => if p = [] then t else endData (writeData c p t)
  | .busError _ | .timeout | .level _ => t

/-- `SEND` of each element of `GSV` in order, until one fails (R133). -/
def sendAll (c : Cfg) : List GsvEntry → State → State
  | [], s => answer .ok s
  | g :: gs, s =>
    let t := send c g.cmd g.params s
    match t.ret with
    | .ok => sendAll c gs t
    | .busError _ | .timeout | .level _ => t

/-! ### Acceptance and delivery (R148, R200) -/

/-- Acceptance of a level-H operation (R13, R148): `SEQ <- (op, 0, 0)`; `res_valid` is a pulse and falls. -/
def accept (op : SeqOp) (s : State) : State := { s with seq := ⟨op, 0, 0⟩, resValid := false }

/-- Delivery of a result (R148, R200): `STATUS` and `OFFSET` written, `SEQ` idle, `res_valid` raised. The host's next
operation is the only return from it (R203, R204). -/
def deliver (r : OpResult) (s : State) : State :=
  { s with status := r.status, offset := r.offset, seq := ⟨.idle, 0, 0⟩, resValid := true }

/-- A primitive failed inside a micro-program: `ST` and the error the host sees, by phase (R196); no clean-up (D22).
The rows of R196 for `SLEEP` have no timeout, and outside a micro-program nothing is aborted (log entry 24). -/
def abort (cause : Ret) (s : State) : State :=
  match s.seq.op, cause with
  | .init, .timeout => deliver (.err (.initFailed .timeout)) { s with st := .uninitialized }
  | .init, _ => deliver (.err (.initFailed .busError)) { s with st := .uninitialized }
  | .display, .busError offset => deliver (.err (.transferFailed offset)) { s with st := .awake }
  | .display, _ => deliver (.err .refreshTimeout) { s with st := .awake }
  | .sleep, _ => deliver (.err .sleepFailed) s
  | .idle, _ => s
  | .encode, _ => s

end Sys2Proof.Machine
end

