-- ==== Sys2Proof/Machine/Codec.lean ====
section
/-!
DEFINITION. The frame codec, `ENCODE` and its stages (42_frame_codec.md R170 to R177).
-/

namespace Sys2Proof.Machine

/-- A pixel of 8-bit channels. -/
structure Rgb where
  r : Nat
  g : Nat
  b : Nat
  deriving DecidableEq, Repr

/-- One channel value: an unsigned number of `IMG_DEPTH` bits (R19; log entry 11). -/
def channel (depth : Nat) (v : BitVec 16) : Nat := v.toNat % 2 ^ depth

/-- `SCALE8` of one channel: the right shift by `IMG_DEPTH - 8` (R171). -/
def scaleChannel (depth v : Nat) : Nat := v >>> (depth - 8)

/-- `SCALE8` (R171). -/
def scale8 (depth : Nat) (p : Pixel) : Rgb where
  r := scaleChannel depth (channel depth p.r)
  g := scaleChannel depth (channel depth p.g)
  b := scaleChannel depth (channel depth p.b)

/-- `LUMA` (R173): the integer weighting, truncated (D25). -/
def luma (p : Rgb) : Nat := (299 * p.r + 587 * p.g + 114 * p.b) / 1000

/-- `CLASSIFY` (R174): true is white. -/
def classify (l t : Nat) (inv : Bool) : Bool := (decide (t ≤ l)).xor inv

/-- `PACK` (R175): bit `7-k` is pixel `k`, the leftmost pixel first. -/
def pack (white : Nat → Bool) : Byte :=
  BitVec.ofBool (white 0) ++ BitVec.ofBool (white 1) ++ BitVec.ofBool (white 2) ++ BitVec.ofBool (white 3) ++
    BitVec.ofBool (white 4) ++ BitVec.ofBool (white 5) ++ BitVec.ofBool (white 6) ++ BitVec.ofBool (white 7)

/-- The operands of `ENCODE` (R170): the image and the operand registers, apart from the rest of the state. -/
structure EncodeArgs where
  img : Pixels
  imgW : Nat
  imgH : Nat
  depth : Nat
  thresh : Nat
  invert : Bool
  deriving DecidableEq, Repr

/-- The operands as the registers hold them (R14, R19). -/
def encodeArgs (s : State) : EncodeArgs :=
  ⟨s.img, s.imgW.toNat, s.imgH.toNat, s.imgDepth.toNat, s.thresh.toNat, s.invert⟩

/-- The `require` line of `ENCODE` (R170, D29). -/
def encodeReady (c : Cfg) (a : EncodeArgs) : Bool :=
  decide (1 ≤ a.imgW) && decide (1 ≤ a.imgH) && c.imgDepthSet.contains a.depth && decide (c.width % 8 = 0)

/-- The source pixel of target pixel `(x, y)` (R172). -/
def sourcePixel (c : Cfg) (a : EncodeArgs) (x y : Nat) : Pixel :=
  let p := c.resizeMap ⟨x, y, a.imgW, a.imgH, c.width, c.height⟩
  a.img.read p.1 p.2

/-- The luma of target pixel `(x, y)` (R171 to R173). -/
def pixelLuma (c : Cfg) (a : EncodeArgs) (x y : Nat) : Nat := luma (scale8 a.depth (sourcePixel c a x y))

/-- Whether target pixel `(x, y)` is white (R171 to R174). -/
def pixelWhite (c : Cfg) (a : EncodeArgs) (x y : Nat) : Bool := classify (pixelLuma c a x y) a.thresh a.invert

/-- Byte `xb` of row `y` (R170, R175). -/
def encodedByte (c : Cfg) (a : EncodeArgs) (y xb : Nat) : Byte := pack (fun k => pixelWhite c a (8 * xb + k) y)

/-- The bitmap, row by row (R41, R170). -/
def encodedBytes (c : Cfg) (a : EncodeArgs) : List Byte :=
  (List.range c.height).flatMap (fun y => (List.range c.rowBytes).map (fun xb => encodedByte c a y xb))

/-- The body of `ENCODE` once its operands are admitted: `BMP`, `BMP_LEN`, `RET Ok` (R170). DESIGN CHOICE (log
entry 32): where `BMP_BYTES` has more than 32 bits, `BMP_LEN` takes its low 32 bits. -/
def encodeBody (c : Cfg) (s : State) : State :=
  deliver .ok
    { s with bmp := Memory.writeRange s.bmp 0 (encodedBytes c (encodeArgs s)), bmpLen := BitVec.ofNat 32 c.bmpBytes }

/-- `ENCODE` on an idle block (R170). Operands outside the `require` line have no meaning and are refused (D29). -/
def encodeOp (c : Cfg) (s : State) : Host.Outcome State Fault Refusal :=
  if s.seq.op = .idle then
    if encodeReady c (encodeArgs s) then .next (encodeBody c (accept .encode s)) else .refused .encodeOperands
  else .refused .opInProgress

/-- `ENCODE` (R170). -/
def execEncode (s : State) : Host.Outcome State Fault Refusal := encodeOp hw s

end Sys2Proof.Machine
end

