-- ==== Sys2Proof/Machine/Sequencer.lean ====
section
/-!
DEFINITION. The sequencer (41_panel_driver.md R148): the micro-programs (R149, R151, R153) and how a micro-operation
advances or ends an operation.
-/

namespace Sys2Proof.Machine

/-- The micro-operations that occur in micro-programs (R71, R84): the public and line-control primitives, and the two
bookkeeping ones, `SETST` and `RET`. -/
inductive UOp where
  | writeCmd (code : Byte)
  | writeData (src : Src)
  | waitBusy (timeout : Nat)
  | setPwr (level : Bool)
  | setRst (level : Bool)
  | delay (d : Nat)
  | setSt (p : PanelState)
  | ret (r : OpResult)
  deriving DecidableEq, Repr

/-- The two micro-operations of a wire command, or one when it has no parameters (R84, R130, R149). -/
def sendUOps (cmd : Byte) (p : List Byte) : List UOp :=
  .writeCmd cmd :: (if p = [] then [] else [.writeData (.lit p)])

/-- `INIT_PROG(Cfg)` (R149). -/
def initProg (c : Cfg) : List UOp :=
  (if c.hasPwr then [.setPwr true, .delay c.tPwrSettle] else []) ++
  [.setRst false, .delay c.tRstLow, .setRst true, .delay c.tRstHigh] ++
  [.writeCmd c.cSwreset, .waitBusy c.tInitBusy] ++
  sendUOps c.cDoc c.pDoc ++
  c.gsv.flatMap (fun g => sendUOps g.cmd g.params) ++
  sendUOps c.cDem c.pDem ++
  sendUOps c.cXwin c.pXwin ++
  sendUOps c.cYwin c.pYwin ++
  sendUOps c.cXcnt c.pXcnt ++
  sendUOps c.cYcnt c.pYcnt ++
  [.setSt .awake, .ret .ok]

/-- `DISPLAY_PROG` (R151). -/
def displayProg (c : Cfg) : List UOp :=
  [.setSt .transferring, .writeCmd c.cOld, .writeData .bmpInv, .writeCmd c.cNew, .writeData .bmp, .writeCmd c.cRefresh,
    .waitBusy c.tRefresh, .setSt .awake, .ret .ok]

/-- `SLEEP_PROG(Cfg)` (R153). -/
def sleepProg (c : Cfg) : List UOp :=
  [.writeCmd c.cDsleep, .writeData (.lit c.pDsleep), .delay c.tSleepSettle] ++
  (if c.hasPwr then [.setPwr false] else []) ++
  [.setSt .asleep, .ret .ok]

/-- The micro-program of an operation (R13); `ENCODE` has none (R170). -/
def microProgram (c : Cfg) : SeqOp → List UOp
  | .init => initProg c
  | .display => displayProg c
  | .sleep => sleepProg c
  | .idle => []
  | .encode => []

/-- A micro-operation that returned `Ok`: `step <- step + 1`, `off <- 0` (R13). -/
def advance (s : State) : State := { s with seq := ⟨s.seq.op, s.seq.step + 1, 0⟩ }

/-- After a primitive: advance, or end the operation with its error (R148). -/
def settle (s : State) : State :=
  match s.ret with
  | .ok => advance s
  | .level _ => advance s
  | .busError offset => abort (.busError offset) s
  | .timeout => abort .timeout s

/-- One micro-operation (R148). -/
def uopStep (c : Cfg) (u : UOp) (s : State) : State :=
  match u with
  | .writeCmd code => settle (writeCmd code s)
  | .writeData src => settle (writeData c (sourceBytes c s src) s)
  | .waitBusy timeout => settle (waitBusy c timeout s)
  | .setPwr level => settle (setPwr level s)
  | .setRst level => settle (setRst level s)
  | .delay d => settle (delay d s)
  | .setSt p => advance { s with st := p }
  | .ret r => deliver r s

/-- A micro-program from one of its micro-operations on, until the operation has ended (R148). -/
def runProg (c : Cfg) : List UOp → State → State
  | [], s => s
  | u :: us, s =>
    let t := uopStep c u s
    if t.seq.op = .idle then t else runProg c us t

/-- One step of a block that is in an operation: the micro-operation at `SEQ` (R13, R148); for `ENCODE`, which has no
micro-program, its body (log entry 21). DESIGN CHOICE (log entry 30): R13 counts the state checks at step 0 and R148 puts
them between acceptance, which sets `SEQ` to (op, 0, 0), and index 0 of the micro-program; here `SEQ` = (op, 0, 0) stands
behind the checks and the capture of `LATCH`, and the step from it runs micro-operation 0, whatever `ST` is. DESIGN
CHOICE (log entry 31): a micro-operation is one step, so where `SEQ.off` stands is not read; from a position inside a
`WRITE_DATA`, `off` above 0, the step writes `DC` again and sends the buffer from byte 0. -/
def resume (c : Cfg) (s : State) : Host.Outcome State Fault Refusal :=
  if s.seq.op = .encode then
    if encodeReady c (encodeArgs s) then .next (encodeBody c s) else .refused .encodeOperands
  else
    match (microProgram c s.seq.op)[s.seq.step]? with
    | some u => .next (uopStep c u s)
    | none => .fault .sequencerLost

end Sys2Proof.Machine
end

