-- ==== Sys2Proof/Machine/Panel.lean ====
section
/-!
DEFINITION. The meanings of the panel operations `INIT`, `DISPLAY_FULL` and `SLEEP` (41_panel_driver.md R150, R152,
R154), each whole: acceptance, entry checks, micro-program, result (R148; log entry 1). `ENCODE` is in Codec.
-/

namespace Sys2Proof.Machine

/-- `INIT` once accepted (R150). DESIGN CHOICE (log entry 29): in `Transferring`, which the host never sees between
operations (R11), only `Awake` is turned away, as the pseudocode of R150 tests it, and the program runs; the catch-all of
R12 would give `InvalidState`. -/
def initBody (c : Cfg) (s : State) : State :=
  if s.st = .awake then deliver (.err .invalidState) s else runProg c (initProg c) s

/-- `LATCH <- BMP[0 .. BMP_BYTES)` (R21, R152). -/
def capture (c : Cfg) (s : State) : State := { s with latch := Memory.restrict s.bmp c.bmpBytes }

/-- `DISPLAY_FULL` once accepted (R152): the state check, the length check, then the program (R199). -/
def displayBody (c : Cfg) (s : State) : State :=
  if s.st ≠ .awake then deliver (.err .invalidState) s
  else if s.bmpLen.toNat ≠ c.bmpBytes then deliver (.err .geometryMismatch) s
  else runProg c (displayProg c) (capture c s)

/-- `SLEEP` once accepted (R154). DESIGN CHOICE (log entry 29): in `Transferring`, which the host never sees between
operations (R11), it is outside its valid state (R12, R193), where the pseudocode of R154 would run the program. -/
def sleepBody (c : Cfg) (s : State) : State :=
  if s.st = .asleep then deliver .ok s
  else if s.st ≠ .awake then deliver (.err .invalidState) s
  else runProg c (sleepProg c) s

/-- A level-H operation: accepted when the sequencer is idle (R25, R155), refused otherwise (R238, D31; log entry 3). -/
def hostOp (op : SeqOp) (body : State → State) (s : State) : Host.Outcome State Fault Refusal :=
  if s.seq.op = .idle then .next (body (accept op s)) else .refused .opInProgress

/-- `INIT` (R150). -/
def execInit (s : State) : Host.Outcome State Fault Refusal := hostOp .init (initBody hw) s

/-- `DISPLAY_FULL` (R152). -/
def execDisplayFull (s : State) : Host.Outcome State Fault Refusal := hostOp .display (displayBody hw) s

/-- `SLEEP` (R154). -/
def execSleep (s : State) : Host.Outcome State Fault Refusal := hostOp .sleep (sleepBody hw) s

end Sys2Proof.Machine
end

