-- ==== Sys2Proof/Machine/Transport.lean ====
section
/-!
DEFINITION. The meanings of the level-P rows, the transport primitives (40_transport.md).
-/

namespace Sys2Proof.Machine

/-- `WRITE_CMD code` (R107). -/
def execWriteCmd (code : Byte) (s : State) : Host.Outcome State Fault Refusal := .next (writeCmd code s)

/-- `WRITE_DATA src` (R108). -/
def execWriteData (src : Src) (s : State) : Host.Outcome State Fault Refusal :=
  .next (endData (writeData hw (sourceBytes hw s src) s))

/-- `WAIT_BUSY timeout` (R109). -/
def execWaitBusy (timeout : Nat) (s : State) : Host.Outcome State Fault Refusal := .next (waitBusy hw timeout s)

/-- `SET_PWR level` (R105). -/
def execSetPwr (level : Bool) (s : State) : Host.Outcome State Fault Refusal := .next (setPwr level s)

/-- `SET_RST level` (R104). -/
def execSetRst (level : Bool) (s : State) : Host.Outcome State Fault Refusal := .next (setRst level s)

/-- `DELAY d` (R106). -/
def execDelay (d : Nat) (s : State) : Host.Outcome State Fault Refusal := .next (delay d s)

/-- `SET_DC level` (R102). -/
def execSetDc (level : Bool) (s : State) : Host.Outcome State Fault Refusal := .next (setDc level s)

/-- `SPI_TXN bytes` (R101): its `assert` line bounds the length. -/
def execSpiTxn (bytes : List Byte) (s : State) : Host.Outcome State Fault Refusal :=
  if txnLengthOk hw.maxChunk bytes then .next (spiTxn bytes s) else .refused .txnLength

/-- `READ_BUSY` (R103). -/
def execReadBusy (s : State) : Host.Outcome State Fault Refusal := .next (readBusy s)

end Sys2Proof.Machine
end

