-- ==== Sys2Proof/Machine/Wire.lean ====
section
/-!
DEFINITION. The meanings of the level-W rows, the wire commands (41_panel_driver.md R131 to R142): each is a `SEND`
(R130) of its command byte and parameters.
-/

namespace Sys2Proof.Machine

/-- `SWRESET` (R131). -/
def execSwreset (s : State) : Host.Outcome State Fault Refusal := .next (send hw hw.cSwreset [] s)

/-- `DRV_OUT_CTRL` (R132). -/
def execDrvOutCtrl (s : State) : Host.Outcome State Fault Refusal := .next (send hw hw.cDoc hw.pDoc s)

/-- `GATE_SRC_VOLT` (R133). -/
def execGateSrcVolt (s : State) : Host.Outcome State Fault Refusal := .next (sendAll hw hw.gsv s)

/-- `DATA_ENTRY` (R134). -/
def execDataEntry (s : State) : Host.Outcome State Fault Refusal := .next (send hw hw.cDem hw.pDem s)

/-- `X_WINDOW` (R135). -/
def execXWindow (s : State) : Host.Outcome State Fault Refusal := .next (send hw hw.cXwin hw.pXwin s)

/-- `Y_WINDOW` (R136). -/
def execYWindow (s : State) : Host.Outcome State Fault Refusal := .next (send hw hw.cYwin hw.pYwin s)

/-- `X_COUNTER` (R137). -/
def execXCounter (s : State) : Host.Outcome State Fault Refusal := .next (send hw hw.cXcnt hw.pXcnt s)

/-- `Y_COUNTER` (R138). -/
def execYCounter (s : State) : Host.Outcome State Fault Refusal := .next (send hw hw.cYcnt hw.pYcnt s)

/-- `WRITE_OLD` (R139): the complement of `LATCH`. -/
def execWriteOld (s : State) : Host.Outcome State Fault Refusal :=
  .next (send hw hw.cOld (sourceBytes hw s .bmpInv) s)

/-- `WRITE_NEW` (R140): `LATCH`. -/
def execWriteNew (s : State) : Host.Outcome State Fault Refusal := .next (send hw hw.cNew (sourceBytes hw s .bmp) s)

/-- `REFRESH` (R141). -/
def execRefresh (s : State) : Host.Outcome State Fault Refusal := .next (send hw hw.cRefresh [] s)

/-- `DEEP_SLEEP` (R142). -/
def execDeepSleep (s : State) : Host.Outcome State Fault Refusal := .next (send hw hw.cDsleep hw.pDsleep s)

end Sys2Proof.Machine
end

