-- ==== Sys2Proof/Machine/Dispatch.lean ====
section
/-!
DEFINITION. One arm per operation (30_encoding.md R70, R71, R74).
-/

namespace Sys2Proof.Machine

/-- The meaning of each operation. -/
def exec (i : Instr) (s : State) : Host.Outcome State Fault Refusal :=
  match i with
  | .init => Sys2Proof.Machine.execInit s
  | .displayFull => Sys2Proof.Machine.execDisplayFull s
  | .sleep => Sys2Proof.Machine.execSleep s
  | .encode => Sys2Proof.Machine.execEncode s
  | .writeCmd code => Sys2Proof.Machine.execWriteCmd code s
  | .writeData src => Sys2Proof.Machine.execWriteData src s
  | .waitBusy timeout => Sys2Proof.Machine.execWaitBusy timeout s
  | .setPwr level => Sys2Proof.Machine.execSetPwr level s
  | .setRst level => Sys2Proof.Machine.execSetRst level s
  | .delay d => Sys2Proof.Machine.execDelay d s
  | .setDc level => Sys2Proof.Machine.execSetDc level s
  | .spiTxn bytes => Sys2Proof.Machine.execSpiTxn bytes s
  | .readBusy => Sys2Proof.Machine.execReadBusy s
  | .swreset => Sys2Proof.Machine.execSwreset s
  | .drvOutCtrl => Sys2Proof.Machine.execDrvOutCtrl s
  | .gateSrcVolt => Sys2Proof.Machine.execGateSrcVolt s
  | .dataEntry => Sys2Proof.Machine.execDataEntry s
  | .xWindow => Sys2Proof.Machine.execXWindow s
  | .yWindow => Sys2Proof.Machine.execYWindow s
  | .xCounter => Sys2Proof.Machine.execXCounter s
  | .yCounter => Sys2Proof.Machine.execYCounter s
  | .writeOld => Sys2Proof.Machine.execWriteOld s
  | .writeNew => Sys2Proof.Machine.execWriteNew s
  | .refresh => Sys2Proof.Machine.execRefresh s
  | .deepSleep => Sys2Proof.Machine.execDeepSleep s

end Sys2Proof.Machine
end

