-- ==== Sys2Proof/Machine/HostPort.lean ====
section
/-!
DEFINITION. The host port (10_state.md R25): `op_ready`, the host's reads and writes, and how an issued code becomes an
operation.
-/

namespace Sys2Proof.Machine

/-- `op_ready` (R25). -/
def opReady (s : State) : Bool := decide (s.seq.op = .idle)

/-- What the host may read while `op_ready` (R25). -/
structure HostView where
  st : BitVec 2
  status : Byte
  offset : Word32
  bmpLen : Word32
  bmp : List Byte
  deriving DecidableEq, Repr

/-- A read of the host port, with the first `n` bytes of `BMP`; nothing while the block is busy (R25). -/
def hostRead (n : Nat) (s : State) : Option HostView :=
  if opReady s then some ⟨s.st.code, s.status, s.offset, s.bmpLen, Memory.readRange s.bmp 0 n⟩ else none

/-- A write of the host port (R14, R18, R19, R25). `step` performs it only while the block is idle. -/
def hostWrite (w : HostWrite) (s : State) : State :=
  match w with
  | .bmpLen v => { s with bmpLen := v }
  | .thresh v => { s with thresh := v }
  | .invert v => { s with invert := v }
  | .imgW v => { s with imgW := v }
  | .imgH v => { s with imgH := v }
  | .imgDepth v => { s with imgDepth := v }
  | .bmp addr v => { s with bmp := Memory.write s.bmp addr.toNat v }
  | .img sx sy p => { s with img := Pixels.write s.img sx.toNat sy.toNat p }

/-- The request at the head is taken; `res_valid`, a pulse, falls (R25; log entry 16). -/
def take (rest : List Request) (s : State) : State := { s with pending := rest, resValid := false }

/-- The operation on the bench is taken; `res_valid` falls (log entries 16 and 17). -/
def takeBench (s : State) : State := { s with bench := none, resValid := false }

/-- The operation an issued code is, or the refusal of a code that is none (R80). -/
def fetched (level : Level) (code : List Byte) : Except Refusal Instr :=
  match decode level code with
  | .ok (i, _) => if i.wellFormed then .ok i else .error .illFormed
  | .error e => .error (.undecodable e)

end Sys2Proof.Machine
end

