-- ==== Sys2Proof/Machine/Step.lean ====
section
/-!
DEFINITION. One step of the block (R25, R148, R209): in an operation, the micro-operation at `SEQ`; idle, the
operation on the bench, else the request at the head of the host's queue, or nothing when there is none.
-/

namespace Sys2Proof.Machine

/-- The operation a code is at a level, run from a state; a code that is none is refused. -/
def runCode (level : Level) (code : List Byte) (s : State) : Host.Outcome State Fault Refusal :=
  match fetched level code with
  | .ok i => exec i s
  | .error r => .refused r

/-- One step. -/
def step (s : State) : Host.Outcome State Fault Refusal :=
  if s.seq.op = .idle then
    match s.bench with
    | some b => runCode b.1 b.2 (takeBench s)
    | none =>
      match s.pending with
      | [] => .next (take [] s)
      | .write w :: rest => .next (hostWrite w (take rest s))
      | .issue code :: rest => runCode .host code (take rest s)
  else resume hw s

/-- `s` with the operation of a table word where `step` takes its next one, the block idle: a level-H operation at the
head of the host's queue, a primitive or a wire command on the bench (log entries 2, 13 and 17). -/
def State.withFetchWord (s : State) (nbits w : Nat) : State :=
  match tableLevel nbits w with
  | .host => { s with seq := ⟨.idle, 0, 0⟩, pending := .issue (tableBytes nbits w) :: s.pending, bench := none }
  | level => { s with seq := ⟨.idle, 0, 0⟩, bench := some (level, tableBytes nbits w) }

end Sys2Proof.Machine
end

