-- ==== Sys2Proof/Machine/Trace.lean ====
section
/-!
DEFINITION. Reading a trace: the wire frames (R72, R81), the two commands behind one byte (R75), the level a line was
last written to (R15, R83), and the notation of R83. Nothing here is read by `step`.
-/

namespace Sys2Proof.Machine

/-- One wire frame: a command byte and its payload (R72). -/
structure Frame where
  cmd : Byte
  payload : List Byte
  deriving DecidableEq, Repr

/-- The frames of a list of events, `cur` being the one still open: a transaction with `DC = 0` begins a frame, the ones
with `DC = 1` after it are its payload (R72, R81). Failed transactions are passed over: what they sent is unspecified
(U3). -/
def framesFrom : Option Frame → List Event → List Frame
  | cur, [] => cur.toList
  | cur, .txn false [b] :: es => cur.toList ++ framesFrom (some ⟨b, []⟩) es
  | cur, .txn false _ :: es => cur.toList ++ framesFrom none es
  | some f, .txn true bytes :: es => framesFrom (some ⟨f.cmd, f.payload ++ bytes⟩) es
  | none, .txn true _ :: es => framesFrom none es
  | cur, .pin _ _ :: es => framesFrom cur es
  | cur, .txnFail _ _ :: es => framesFrom cur es
  | cur, .sample _ :: es => framesFrom cur es
  | cur, .delay _ :: es => framesFrom cur es

/-- The wire frames of a trace (R72). -/
def framesOf (tr : List Event) : List Frame := framesFrom none tr

/-- The events of `SEND(cmd, p)` when nothing fails (R130). -/
def sendEvents (c : Cfg) (cmd : Byte) (p : List Byte) : List Event :=
  .pin .dc false :: .txn false [cmd] ::
    (if p = [] then [] else .pin .dc true :: (chunks c.maxChunk p).map (Event.txn true))

/-- The events of a busy wait that reads 1 `n` times and then 0 (R109). -/
def clearEvents (c : Cfg) (n : Nat) : List Event :=
  (List.replicate n [Event.sample true, .delay c.pollInterval]).flatten ++ [.sample false]

/-- The events of a busy wait that takes `n + 1` samples, all 1, and times out (R109). -/
def stuckEvents (c : Cfg) (n : Nat) : List Event :=
  (List.replicate n [Event.sample true, .delay c.pollInterval]).flatten ++ [.sample true]

/-- How many delays a busy wait that times out makes: `ceil(timeout / POLL_INTERVAL)` (R109). -/
def pollTurns (c : Cfg) (timeout : Nat) : Nat := (timeout + c.pollInterval - 1) / c.pollInterval

/-- Whether a busy line that reads 0 after `n` ones is seen clear within a timeout (R109). -/
def clearsInTime (c : Cfg) (timeout : Nat) (n : Nat) : Prop := n = 0 ∨ (n - 1) * c.pollInterval < timeout

/-- The events of `INIT` up to its first command, nothing failing (R149, V45). -/
def pulseEvents (c : Cfg) : List Event :=
  (if c.hasPwr then [.pin .pwr true, .delay c.tPwrSettle] else []) ++
  [.pin .rst false, .delay c.tRstLow, .pin .rst true, .delay c.tRstHigh]

/-- The commands of `INIT` after its busy wait, in order, with their parameters (R74, R149). -/
def setupFrames (c : Cfg) : List Frame :=
  ⟨c.cDoc, c.pDoc⟩ :: c.gsv.map (fun g => ⟨g.cmd, g.params⟩) ++
  [⟨c.cDem, c.pDem⟩, ⟨c.cXwin, c.pXwin⟩, ⟨c.cYwin, c.pYwin⟩, ⟨c.cXcnt, c.pXcnt⟩, ⟨c.cYcnt, c.pYcnt⟩]

/-- The events of some frames sent one after the other, nothing failing (R130). -/
def framesEvents (c : Cfg) (fs : List Frame) : List Event := fs.flatMap (fun f => sendEvents c f.cmd f.payload)

/-- The events of `INIT`, nothing failing and `BUSY` clear after `n` ones (R149, V45). -/
def initEvents (c : Cfg) (n : Nat) : List Event :=
  pulseEvents c ++ sendEvents c c.cSwreset [] ++ clearEvents c n ++ framesEvents c (setupFrames c)

/-- The frames of `DISPLAY_FULL` for a bitmap (R74, R151). -/
def displayFrames (c : Cfg) (b : List Byte) : List Frame :=
  [⟨c.cOld, b.map (fun v => ~~~v)⟩, ⟨c.cNew, b⟩, ⟨c.cRefresh, []⟩]

/-- The events of `DISPLAY_FULL` up to its busy wait, nothing failing (R151, V40). -/
def displayEvents (c : Cfg) (b : List Byte) : List Event := framesEvents c (displayFrames c b)

/-- The events of `SLEEP`, nothing failing (R153, V47). -/
def sleepEvents (c : Cfg) : List Event :=
  sendEvents c c.cDsleep c.pDsleep ++ [.delay c.tSleepSettle] ++ (if c.hasPwr then [.pin .pwr false] else [])

/-- Whether an event is one bus transaction, completed or failed (R24). -/
def Event.isTxn : Event → Bool
  | .txn _ _ => true
  | .txnFail _ _ => true
  | .pin _ _ | .sample _ | .delay _ => false

/-- How many bus transactions a list of events has. -/
def txnCount (evs : List Event) : Nat := evs.countP Event.isTxn

/-- The level a line was last written to in a trace, if it was written (R15, R24). -/
def lastPin (line : Line) : List Event → Option Bool
  | [] => none
  | e :: es =>
    match lastPin line es with
    | some l => some l
    | none =>
      match e with
      | .pin line' l => if line' = line then some l else none
      | .txn _ _ | .txnFail _ _ | .sample _ | .delay _ => none

/-- The latch of a line (R15). -/
def State.lineLevel (s : State) : Line → Bool
  | .pwr => s.pwr
  | .rst => s.rst
  | .dc => s.dc

/-- Whether every transaction of a list of events carries the level `DC` was last written to, `cur` being that level
before the list, where there is one (R83, R101). -/
def dcAgrees : Option Bool → List Event → Bool
  | _, [] => true
  | _, .pin .dc l :: es => dcAgrees (some l) es
  | cur, .pin .pwr _ :: es => dcAgrees cur es
  | cur, .pin .rst _ :: es => dcAgrees cur es
  | cur, .txn d _ :: es => decide (cur.getD d = d) && dcAgrees cur es
  | cur, .txnFail d _ :: es => decide (cur.getD d = d) && dcAgrees cur es
  | cur, .sample _ :: es => dcAgrees cur es
  | cur, .delay _ :: es => dcAgrees cur es

/-! ### The commands that share a byte (R75) -/

/-- Backwards from a 0x12: a `Pin(RST,1)` with no data transaction between. -/
def pulseBack : List Event → Bool
  | [] => false
  | .txn true _ :: _ => false
  | .txnFail true _ :: _ => false
  | .pin .rst true :: _ => true
  | _ :: es => pulseBack es

/-- Backwards from a 0x12: a `Delay`, and before it the end of a reset pulse, with no data transaction between (R75). -/
def afterPulse : List Event → Bool
  | [] => false
  | .txn true _ :: _ => false
  | .txnFail true _ :: _ => false
  | .delay _ :: es => pulseBack es
  | _ :: es => afterPulse es

/-- Backwards from a 0x12: the last data transaction of a 0x13 frame (R75); `seen` says a data transaction was met. -/
def afterNew (c : Cfg) : Bool → List Event → Bool
  | _, [] => false
  | _, .txn true _ :: es => afterNew c true es
  | seen, .txn false bytes :: _ => seen && decide (bytes = [c.cNew])
  | _, .txnFail _ _ :: _ => false
  | seen, _ :: es => afterNew c seen es

/-- The data bytes that follow a command byte, and the events after them. -/
def dataAfter : List Event → List Byte × List Event
  | .pin .dc true :: es => dataAfter es
  | .txn true bytes :: es => (bytes ++ (dataAfter es).1, (dataAfter es).2)
  | es => ([], es)

/-- Whether the next command byte is 0x13. -/
def newFollows (c : Cfg) : List Event → Bool
  | .pin .dc false :: .txn false [b] :: _ => decide (b = c.cNew)
  | _ => false

/-- Whether a delay follows. -/
def delayFollows : List Event → Bool
  | .delay _ :: _ => true
  | _ => false

/-- Which of its two commands a byte 0x12 or 0x10 is, from the events before and after its transaction (R75). -/
def readShared (c : Cfg) (before after : List Event) (b : Byte) : Option Instr :=
  if b = c.cSwreset then
    if afterPulse before.reverse then some .swreset
    else if afterNew c false before.reverse then some .refresh
    else none
  else if b = c.cOld then
    let d := dataAfter after
    if d.1.length = c.bmpBytes ∧ newFollows c d.2 then some .writeOld
    else if d.1 = c.pDsleep ∧ delayFollows d.2 then some .deepSleep
    else none
  else none

/-! ### Notation (R83) -/

/-- One hexadecimal digit. -/
def hexDigit (n : Nat) : Char := ("0123456789ABCDEF".toList)[n]?.getD '0'

/-- A byte in two hexadecimal digits. -/
def hexByte (b : Byte) : String := String.ofList [hexDigit (b.toNat / 16), hexDigit (b.toNat % 16)]

/-- The bytes of a transaction in hexadecimal. -/
def hexBytes (bytes : List Byte) : String := String.intercalate " " (bytes.map hexByte)

/-- One event in the notation of R83. -/
def Event.render : Event → String
  | .pin .pwr l => if l then "P+" else "P-"
  | .pin .rst l => if l then "R+" else "R-"
  | .pin .dc l => if l then "DC1" else "DC0"
  | .txn _ bytes => "T[" ++ hexBytes bytes ++ "]"
  | .txnFail _ bytes => "F[" ++ hexBytes bytes ++ "]"
  | .sample l => if l then "S1" else "S0"
  | .delay d => "W(" ++ toString d ++ ")"

end Sys2Proof.Machine
end

