-- ==== Sys2Proof/Safety.lean ====
section
/-!
DEFINITION. What the statements speak of: the invariant of the block between steps, what an operation leaves unchanged
(R28), and premises about the environment (R26).
-/

namespace Sys2Proof.Machine

/-- The trace events a step may append: transactions carry 1 to `MAX_CHUNK` bytes (R24, R101). -/
def Event.sized : Event → Bool
  | .txn _ bytes => txnLengthOk hw.maxChunk bytes
  | .txnFail _ bytes => txnLengthOk hw.maxChunk bytes
  | .pin _ _ | .sample _ | .delay _ => true

/-- Where `ST` may be `Transferring`: only inside `DISPLAY_FULL`, and no longer at its `RET` (R11, R151). -/
def State.StSettled (s : State) : Prop :=
  (s.seq.op ≠ .display → s.st ≠ .transferring) ∧ (s.seq.op = .display → s.seq.step = 8 → s.st = .awake)

/-- Where `SEQ` may be: idle at (Idle, 0, 0), else inside the micro-program, `off` 0 between micro-operations (R13). -/
def State.SeqPlaced (s : State) : Prop :=
  (s.seq.op = .idle → s.seq.step = 0) ∧ s.seq.off = 0 ∧
  (s.seq.op ≠ .idle → s.seq.op ≠ .encode → s.seq.step < (microProgram hw s.seq.op).length)

/-- What `STATUS` and `OFFSET` may hold: a value of R16; `OFFSET` 0 but after `TransferFailed`, and there the start of a
chunk of the bitmap (R16, R17, R108). -/
def State.ResultLegal (s : State) : Prop :=
  s.status ∈ legalStatus ∧ (s.status ≠ 0x21 → s.offset = 0) ∧
  s.offset.toNat % hw.maxChunk = 0 ∧ s.offset.toNat < hw.bmpBytes

/-- The invariant of the block between steps; `State.TraceInv` is that of its trace. -/
structure State.Inv (s : State) : Prop where
  /-- `BMP` is in canonical form. -/
  bmp_wf : Memory.wf s.bmp
  /-- `LATCH` is in canonical form. -/
  latch_wf : Memory.wf s.latch
  /-- `IMG` is in canonical form. -/
  img_wf : Pixels.wf s.img
  /-- No transaction is in progress (R15, R46). -/
  cs_idle : s.cs = true
  /-- The clock rests low (R73). -/
  sclk_low : s.sclk = false
  /-- `STATUS` and `OFFSET` (R16, R17). -/
  result : s.ResultLegal
  /-- `SEQ` (R13). -/
  seq : s.SeqPlaced
  /-- `ST` (R11). -/
  settled : s.StSettled

/-- The invariant of the trace. -/
structure State.TraceInv (s : State) : Prop where
  /-- Every transaction of the trace carries 1 to `MAX_CHUNK` bytes (R24). -/
  sized : ∀ e ∈ s.tr, e.sized = true
  /-- Every line holds the level last written to it (R15). -/
  held : ∀ line l, lastPin line s.tr = some l → s.lineLevel line = l
  /-- Every transaction carries the level `DC` was last written to before it (R83). -/
  levels : dcAgrees none s.tr = true

/-- What no transport primitive and no wire command touches (R28, R112): `ST`, `SEQ.op`, `SEQ.step`, the result
registers, the operand registers, the buffers, the host port, the bench. -/
structure BusKeeps (s t : State) : Prop where
  st : t.st = s.st
  op : t.seq.op = s.seq.op
  step : t.seq.step = s.seq.step
  status : t.status = s.status
  offset : t.offset = s.offset
  resValid : t.resValid = s.resValid
  bmpLen : t.bmpLen = s.bmpLen
  thresh : t.thresh = s.thresh
  invert : t.invert = s.invert
  imgW : t.imgW = s.imgW
  imgH : t.imgH = s.imgH
  imgDepth : t.imgDepth = s.imgDepth
  bmp : t.bmp = s.bmp
  img : t.img = s.img
  latch : t.latch = s.latch
  pending : t.pending = s.pending
  bench : t.bench = s.bench

/-- What no panel operation touches (R28): the operand registers, `BMP`, `IMG`, the requests that wait, the bench. -/
structure PanelKeeps (s t : State) : Prop where
  bmpLen : t.bmpLen = s.bmpLen
  thresh : t.thresh = s.thresh
  invert : t.invert = s.invert
  imgW : t.imgW = s.imgW
  imgH : t.imgH = s.imgH
  imgDepth : t.imgDepth = s.imgDepth
  bmp : t.bmp = s.bmp
  img : t.img = s.img
  pending : t.pending = s.pending
  bench : t.bench = s.bench

/-- What `ENCODE` and a failed entry check do not touch (R28, R170, R193): every pin, the trace, `ST`, `LATCH`, the
operand registers but `BMP_LEN`, `IMG`, and the environment. -/
structure QuietKeeps (s t : State) : Prop where
  st : t.st = s.st
  pwr : t.pwr = s.pwr
  rst : t.rst = s.rst
  dc : t.dc = s.dc
  cs : t.cs = s.cs
  sclk : t.sclk = s.sclk
  mosi : t.mosi = s.mosi
  thresh : t.thresh = s.thresh
  invert : t.invert = s.invert
  imgW : t.imgW = s.imgW
  imgH : t.imgH = s.imgH
  imgDepth : t.imgDepth = s.imgDepth
  img : t.img = s.img
  latch : t.latch = s.latch
  elapsed : t.elapsed = s.elapsed
  tr : t.tr = s.tr
  ret : t.ret = s.ret
  pending : t.pending = s.pending
  bench : t.bench = s.bench
  busyIn : t.busyIn = s.busyIn
  failIn : t.failIn = s.failIn
  draws : t.draws = s.draws

/-- The trace and the six output pins are as before (R15, R24). -/
structure PinsKeep (s t : State) : Prop where
  pwr : t.pwr = s.pwr
  rst : t.rst = s.rst
  dc : t.dc = s.dc
  cs : t.cs = s.cs
  sclk : t.sclk = s.sclk
  mosi : t.mosi = s.mosi
  tr : t.tr = s.tr

/-- A delivered result (R200): `STATUS`, `OFFSET`, `SEQ` idle, `res_valid`. -/
structure Delivered (r : OpResult) (t : State) : Prop where
  status : t.status = r.status
  offset : t.offset = r.offset
  seq : t.seq = ⟨.idle, 0, 0⟩
  resValid : t.resValid = true

/-- The next `n` transactions complete (a premise about `draw_fail()`, R26). -/
def NoFail (n : Nat) (s : State) : Prop := ∃ rest, s.failIn = List.replicate n false ++ rest

/-- The next `n` transactions complete and the one after them fails (R26). -/
def FailsAt (n : Nat) (s : State) : Prop := ∃ rest, s.failIn = List.replicate n false ++ true :: rest

/-- The next `n` samples of `BUSY` read 1 and the one after them reads 0 (R26). -/
def ClearsAfter (n : Nat) (s : State) : Prop := ∃ rest, s.busyIn = List.replicate n true ++ false :: rest

/-- The next `n` samples of `BUSY` read 1 (R26). -/
def StaysBusy (n : Nat) (s : State) : Prop := ∃ rest, s.busyIn = List.replicate n true ++ rest

end Sys2Proof.Machine
end

