-- ==== Sys2Proof/Certificates/Slice0/Obligations.lean ====
section
/-!
DEFINITION. The statements for the provers. Each docstring names the rules of spec/ it formalises; what OBLIGATIONS.json
lists as 'derived' rests on more than a rule's plain words.
-/

open Sys2Proof Sys2Proof.Machine

/-! ### Reset and configuration -/

/-- R27, R230 (the spec's decision D23): the values the spec states for reset. -/
def Obligations.ResetValues : Prop :=
  State.reset.st = .uninitialized ∧ State.reset.seq = ⟨.idle, 0, 0⟩ ∧ State.reset.status = 0x00 ∧
  State.reset.offset = 0 ∧ State.reset.cs = true ∧ State.reset.sclk = false ∧ State.reset.tr = []

/-- Both invariants hold at reset. The `IMG` and `BMP` clauses rest on log entries 8, 9 and 11. -/
def Obligations.ResetMeetsInvariants : Prop := State.reset.Inv ∧ State.reset.TraceInv

/-- R4, R172, U9 (the spec's decisions D14, D17, D26, D27, D32; log entries 6 and 7): the configuration of the
hardware holds every value the table of R4 gives, and meets every invariant of a valid one, whatever its OPEN
parameters; the resize map is the floor map, which stays inside the image and is the identity for equal sizes. -/
def Obligations.HardwareConfigValid : Prop :=
  hw.Valid ∧ hw.width = 800 ∧ hw.height = 480 ∧ hw.rowBytes = 100 ∧ hw.bmpBytes = 48000 ∧ hw.maxChunk = 4096 ∧
  hw.cSwreset = 0x12 ∧ hw.cDoc = 0x01 ∧ hw.cDem = 0x11 ∧ hw.cXwin = 0x44 ∧ hw.cYwin = 0x45 ∧ hw.cXcnt = 0x4E ∧
  hw.cYcnt = 0x4F ∧ hw.cOld = 0x10 ∧ hw.cNew = 0x13 ∧ hw.cRefresh = 0x12 ∧ hw.cDsleep = 0x10 ∧ hw.pDsleep = [0x01] ∧
  hw.spiMode = 0 ∧ hw.spiWord = 8 ∧ hw.spiHz = 2000000 ∧ hw.spiMsbFirst = true ∧ hw.imgDepthSet = [8, 16] ∧
  hw.resizeMap = floorMap ∧ ∀ a : ResizeArgs, floorMap a = (a.x * a.imgW / a.width, a.y * a.imgH / a.height)

/-- R16, R79 (the spec's decision D4): `STATUS` is `(PHASE << 4) | KIND`, with the values of the table; it takes no
other value. -/
def Obligations.StatusTable : Prop :=
  (∀ r : OpResult, r.status = (r.phase.setWidth 8 <<< 4) ||| r.kind.setWidth 8 ∧ r.status ∈ legalStatus) ∧
  OpResult.status .ok = 0x00 ∧ OpResult.status (.err .invalidState) = 0x03 ∧
  OpResult.status (.err .geometryMismatch) = 0x04 ∧ OpResult.status (.err (.initFailed .busError)) = 0x11 ∧
  OpResult.status (.err (.initFailed .timeout)) = 0x12 ∧
  (∀ off, OpResult.status (.err (.transferFailed off)) = 0x21) ∧
  OpResult.status (.err .refreshTimeout) = 0x32 ∧ OpResult.status (.err .sleepFailed) = 0x41

/-! ### Encodings -/

/-- R70, R71, R74: words of each format, written out; the operand bytes of format P rest on log entry 12, the contexts
of the wire bytes on log entry 13. -/
def Obligations.WordsDecode : Prop :=
  decode .host [0b00] = .ok (.init, []) ∧ decode .host [0b01] = .ok (.displayFull, []) ∧
  decode .host [0b10] = .ok (.sleep, []) ∧ decode .host [0b11] = .ok (.encode, []) ∧
  decode .micro [0b0000, 0x13] = .ok (.writeCmd 0x13, []) ∧ decode .micro [0b0001, 0x02] = .ok (.writeData .bmp, []) ∧
  decode .micro [0b1000] = .ok (.readBusy, []) ∧ decode (.wire .init) [0b00010010] = .ok (.swreset, []) ∧
  decode (.wire .display) [0b00010010] = .ok (.refresh, []) ∧
  decode (.wire .display) [0b00010000] = .ok (.writeOld, []) ∧
  decode (.wire .sleep) [0b00010000] = .ok (.deepSleep, []) ∧
  decode (.wire .init) [0b01001111] = .ok (.yCounter, [])

/-- Decoding an encoded well-formed operation at its level gives it back, with the bytes after it: no bit of an
encoding is dropped (R70, R71, R74; log entry 12 for the operand bytes, 28 for the byte of `GATE_SRC_VOLT`). -/
def Obligations.DecodeOfEncode : Prop :=
  ∀ (i : Instr) (rest : List Byte), i.WellFormed → decode i.level (encode i ++ rest) = .ok (i, rest)

/-- What decodes at a level is the encoding of what it decodes to: each word has one meaning at its level (R70, R71,
R74, R75; log entry 12, and 28 for the byte of `GATE_SRC_VOLT`). -/
def Obligations.EncodeOfDecode : Prop :=
  ∀ (level : Level) (bytes : List Byte) (i : Instr) (rest : List Byte), decode level bytes = .ok (i, rest) →
    i.level = level ∧ encode i ++ rest = bytes

/-- R80 (log entry 12 for the byte that holds an ordinal): ordinals `1001` to `1111`, and bytes above them, are no
micro-operation. -/
def Obligations.UnusedOrdinalsRefused : Prop :=
  ∀ (u : Byte) (rest : List Byte), 9 ≤ u.toNat → decode .micro (u :: rest) = .error (.unusedOrdinal u)

/-! ### The step -/

/-- A step of an idle block runs `exec` of the decoded operation: of the one on the bench, else of the host's request at
the head of the queue; what it ran is taken and `res_valid` lowered (R25, R148; log entries 2, 16 and 17). -/
def Obligations.StepRunsDecodedOperation : Prop :=
  ∀ (s : State) (i : Instr) (tail : List Byte), s.seq.op = .idle → i.WellFormed →
    (∀ (code : List Byte) (rest : List Request), s.bench = none → s.pending = .issue code :: rest →
      decode .host code = .ok (i, tail) → step s = exec i (take rest s)) ∧
    (∀ (level : Level) (code : List Byte), s.bench = some (level, code) → decode level code = .ok (i, tail) →
      step s = exec i (takeBench s))

/-- A step inside an operation runs the micro-operation at `SEQ`, and takes no request and nothing from the bench
(R13, R148, R155; log entries 1, 30 and 31: from its first byte also where `SEQ.off` is above 0). -/
def Obligations.StepRunsMicroOperation : Prop :=
  ∀ (s : State) (u : UOp), s.seq.op ≠ .idle → s.seq.op ≠ .encode →
    (microProgram hw s.seq.op)[s.seq.step]? = some u →
    ∃ t, step s = .next t ∧ t = uopStep hw u s ∧ t.pending = s.pending ∧ t.bench = s.bench

/-- A step of an idle block with a host write at the head of the queue performs it and nothing else: the register, the
byte of `BMP` or the pixel of `IMG` named, and no other (R14, R18, R19, R25; log entries 2 and 16). The model's choice:
every 32-bit address of `BMP`, above `BMP_BYTES` too (log entry 10), and every pixel of `IMG`, outside `IMG_W` by `IMG_H`
too (log entry 11), is written and read back. -/
def Obligations.StepPerformsHostWrite : Prop :=
  ∀ (s : State) (w : HostWrite) (rest : List Request), s.seq.op = .idle → s.bench = none →
    s.pending = .write w :: rest →
    (∀ v, w = .bmpLen v → step s = .next { s with pending := rest, resValid := false, bmpLen := v }) ∧
    (∀ v, w = .thresh v → step s = .next { s with pending := rest, resValid := false, thresh := v }) ∧
    (∀ v, w = .invert v → step s = .next { s with pending := rest, resValid := false, invert := v }) ∧
    (∀ v, w = .imgW v → step s = .next { s with pending := rest, resValid := false, imgW := v }) ∧
    (∀ v, w = .imgH v → step s = .next { s with pending := rest, resValid := false, imgH := v }) ∧
    (∀ v, w = .imgDepth v → step s = .next { s with pending := rest, resValid := false, imgDepth := v }) ∧
    (∀ a v, w = .bmp a v → Memory.wf s.bmp →
      ∃ m, step s = .next { s with pending := rest, resValid := false, bmp := m } ∧ Memory.read m a.toNat = v ∧
        ∀ x, x ≠ a.toNat → Memory.read m x = Memory.read s.bmp x) ∧
    (∀ sx sy p, w = .img sx sy p → Pixels.wf s.img →
      ∃ m, step s = .next { s with pending := rest, resValid := false, img := m } ∧
        Pixels.read m sx.toNat sy.toNat = p ∧
        ∀ x y, x < 2 ^ 32 → (x, y) ≠ (sx.toNat, sy.toNat) → Pixels.read m x y = Pixels.read s.img x y)

/-! ### Transport primitives -/

/-- R100 (the spec's decision D17; log entry 26): `MOSI` at the eight rising edges of `SCLK` is the byte, bit 7 first;
the clock is low after. -/
def Obligations.ByteShiftedMsbFirst : Prop :=
  ∀ v : Byte, risingEdges false (shiftWave v) =
      [v.getLsbD 7, v.getLsbD 6, v.getLsbD 5, v.getLsbD 4, v.getLsbD 3, v.getLsbD 2, v.getLsbD 1, v.getLsbD 0] ∧
    ∀ p : Bool × Bool, shiftPins [v] p = (v.getLsbD 0, false)

/-- R101 (the spec's decisions D14, D16, D17, D18; log entries 7 and 26): one bus transaction. A completed one appends
`Txn`, leaves `MOSI` at the last bit and `SCLK` low (R100, log entry 26); a failed one appends `TxnFail` and answers
`BusError`; `DC` is not touched, `CS` is 1 after; a length outside 1 to `MAX_CHUNK`, here 4096 (log entry 7), is
refused. -/
def Obligations.SpiTransaction : Prop :=
  ∀ (bytes : List Byte) (s : State),
    (1 ≤ bytes.length ∧ bytes.length ≤ 4096 → ∃ t, exec (.spiTxn bytes) s = .next t ∧ BusKeeps s t ∧ t.dc = s.dc ∧
      t.pwr = s.pwr ∧ t.rst = s.rst ∧ t.elapsed = s.elapsed ∧ t.seq = s.seq ∧ t.cs = true ∧
      (failNow s = false → t.tr = s.tr ++ [.txn s.dc bytes] ∧ t.ret = .ok ∧ t.sclk = false ∧
        bytes.getLast?.map (fun v => v.getLsbD 0) = some t.mosi) ∧
      (failNow s = true → t.tr = s.tr ++ [.txnFail s.dc bytes] ∧ t.ret = .busError 0)) ∧
    (¬ (1 ≤ bytes.length ∧ bytes.length ≤ 4096) → exec (.spiTxn bytes) s = .refused .txnLength)

/-- R102 (the spec's decision D18; log entries 12 and 25): `SET_DC level`, ordinal 0110 in one byte, writes `DC` and
appends its event, also when the level does not change; it cannot fail, and nothing else changes. -/
def Obligations.SetDcWrites : Prop :=
  ∀ (l : Bool) (s : State), (encode (.setDc l)).head? = some 0b0110 ∧
    exec (.setDc l) s = .next { s with dc := l, tr := s.tr ++ [.pin .dc l], ret := .ok }

/-- R104, R105, R106 (the spec's decision D18; log entries 14 and 25): `SET_RST` and `SET_PWR` write their latch and append
their event, also when the level does not change (`SET_PWR` without a power line: log entry 14); `DELAY d` appends its
event and does nothing else. -/
def Obligations.LineControlAndDelay : Prop :=
  ∀ (l : Bool) (d : Nat) (s : State),
    exec (.setRst l) s = .next { s with rst := l, tr := s.tr ++ [.pin .rst l], ret := .ok } ∧
    exec (.setPwr l) s = .next { s with pwr := l, tr := s.tr ++ [.pin .pwr l], ret := .ok } ∧
    exec (.delay d) s = .next { s with tr := s.tr ++ [.delay d], ret := .ok }

/-- R103 (log entries 4 and 12): `READ_BUSY`, ordinal 1000 in one byte, returns what the environment answers (a scripted
answer in its order, R26) and appends the sample; it writes nothing but the trace. -/
def Obligations.ReadBusySamples : Prop :=
  ∀ s : State, (encode .readBusy).head? = some 0b1000 ∧
    ∃ t, exec .readBusy s = .next t ∧ t.tr = s.tr ++ [.sample (busyNow s)] ∧ t.ret = .level (busyNow s) ∧
      (∀ b rest, s.busyIn = b :: rest → busyNow s = b ∧ t.busyIn = rest) ∧ BusKeeps s t ∧ t.pwr = s.pwr ∧
      t.rst = s.rst ∧ t.dc = s.dc ∧ t.cs = s.cs ∧ t.sclk = s.sclk ∧ t.mosi = s.mosi ∧ t.seq = s.seq ∧
      t.elapsed = s.elapsed ∧ t.failIn = s.failIn

/-- R107 (the spec's decisions D16, D17; log entries 12 and 26): `WRITE_CMD code`, ordinal 0000 in one byte and the code in
the next, is `DC` low and then one transaction of the one byte, whatever the byte is, with the pins at rest after it;
`BusError` exactly when the transaction fails. -/
def Obligations.WriteCommand : Prop :=
  ∀ (code : Byte) (s : State), encode (.writeCmd code) = [0b0000, code] ∧
    ∃ t, exec (.writeCmd code) s = .next t ∧ BusKeeps s t ∧ t.pwr = s.pwr ∧ t.rst = s.rst ∧
      t.dc = false ∧ t.cs = true ∧ t.elapsed = s.elapsed ∧ t.seq = s.seq ∧ t.busyIn = s.busyIn ∧
      (failNow s = false → t.tr = s.tr ++ [.pin .dc false, .txn false [code]] ∧ t.ret = .ok ∧ t.sclk = false ∧
        t.mosi = code.getLsbD 0) ∧
      (failNow s = true → t.tr = s.tr ++ [.pin .dc false, .txnFail false [code]] ∧ t.ret = .busError 0)

/-- R77, R108, R110 (the spec's decision D15): with no failure `WRITE_DATA` sends `ceil(L / MAX_CHUNK)` transactions, chunk
`k` of them `b[k*M .. min((k+1)*M, L))`, which cover the buffer exactly once; `L = 0` sends none. First for every valid
configuration, so for every `MAX_CHUNK` from 1 to 4096 (N24); then `exec` on this hardware, where it is 4096 (D14; log
entry 7). -/
def Obligations.WriteDataCompletes : Prop :=
  (∀ (c : Cfg) (b : List Byte) (s : State), c.Valid → NoFail ((b.length + c.maxChunk - 1) / c.maxChunk) s →
    ∃ (t : State) (chs : List (List Byte)), writeData c b s = t ∧ t.ret = .ok ∧ t.dc = true ∧ BusKeeps s t ∧
      t.tr = s.tr ++ .pin .dc true :: chs.map (Event.txn true) ∧
      chs.length = (b.length + c.maxChunk - 1) / c.maxChunk ∧ chs.flatten = b ∧
      (∀ ch ∈ chs, 1 ≤ ch.length ∧ ch.length ≤ c.maxChunk) ∧
      ∀ k, k < chs.length → chs[k]? = some ((b.drop (k * c.maxChunk)).take c.maxChunk)) ∧
  ∀ (src : Src) (s : State), NoFail (((sourceBytes hw s src).length + 4095) / 4096) s →
    ∃ (t : State) (chs : List (List Byte)), exec (.writeData src) s = .next t ∧ t.ret = .ok ∧ t.dc = true ∧
      BusKeeps s t ∧ t.pwr = s.pwr ∧ t.rst = s.rst ∧ t.elapsed = s.elapsed ∧
      t.tr = s.tr ++ .pin .dc true :: chs.map (Event.txn true) ∧
      chs.length = ((sourceBytes hw s src).length + 4095) / 4096 ∧ chs.flatten = sourceBytes hw s src ∧
      (∀ ch ∈ chs, 1 ≤ ch.length ∧ ch.length ≤ 4096) ∧
      ∀ k, k < chs.length → chs[k]? = some (((sourceBytes hw s src).drop (k * 4096)).take 4096)

/-- R108 (the spec's decision D15): the chunk that fails is the last thing attempted, and the offset reached is where it
starts. First for every valid configuration, so for every `MAX_CHUNK` from 1 to 4096 (N24); then `exec` on this
hardware, where it is 4096 (D14; log entry 7). -/
def Obligations.WriteDataFails : Prop :=
  (∀ (c : Cfg) (b : List Byte) (s : State) (n : Nat), c.Valid → n < (b.length + c.maxChunk - 1) / c.maxChunk →
    FailsAt n s →
    ∃ t, writeData c b s = t ∧ t.ret = .busError (n * c.maxChunk) ∧ t.dc = true ∧ BusKeeps s t ∧
      t.tr = s.tr ++ .pin .dc true ::
        (List.range n).map (fun k => Event.txn true ((b.drop (k * c.maxChunk)).take c.maxChunk)) ++
        [.txnFail true ((b.drop (n * c.maxChunk)).take c.maxChunk)]) ∧
  ∀ (src : Src) (s : State) (n : Nat), n < ((sourceBytes hw s src).length + 4095) / 4096 → FailsAt n s →
    ∃ t, exec (.writeData src) s = .next t ∧ t.ret = .busError (n * 4096) ∧ t.dc = true ∧ BusKeeps s t ∧
      t.pwr = s.pwr ∧ t.rst = s.rst ∧
      t.tr = s.tr ++ .pin .dc true ::
        (List.range n).map (fun k => Event.txn true (((sourceBytes hw s src).drop (k * 4096)).take 4096)) ++
        [.txnFail true (((sourceBytes hw s src).drop (n * 4096)).take 4096)]

/-- R78: for every configuration, the payload of source `Bmp` is `LATCH[0 .. BMP_BYTES)`, and byte `i` of the payload of
`BmpInv` is `LATCH[i] XOR 0xFF`, the bitwise NOT of byte `i` of the other, for every `i`; for this hardware both are 48000
bytes. What a completed `DISPLAY_FULL` sends with them is in `DisplayCompletes`. -/
def Obligations.DoubleWritePayloads : Prop :=
  (∀ (c : Cfg) (s : State), (sourceBytes c s .bmp).length = c.bmpBytes ∧ (sourceBytes c s .bmpInv).length = c.bmpBytes ∧
    (sourceBytes c s .bmpInv = (sourceBytes c s .bmp).map (fun v => ~~~v)) ∧
    ∀ i, i < c.bmpBytes → (sourceBytes c s .bmp)[i]? = some (Memory.read s.latch i) ∧
      (sourceBytes c s .bmpInv)[i]? = some (Memory.read s.latch i ^^^ 0xFF)) ∧
  hw.bmpBytes = 48000

/-- R109 (the spec's decision D13; log entry 27): a busy line that clears in time. One `Sample(1)` and one `Delay` per
busy reading, then `Sample(0)`; no delay before the first sample; `ELAPSED` counts the delays. -/
def Obligations.WaitBusyClears : Prop :=
  ∀ (timeout : Nat) (s : State) (n : Nat), ClearsAfter n s → clearsInTime hw timeout n →
    ∃ t, exec (.waitBusy timeout) s = .next t ∧ t.ret = .ok ∧ t.elapsed = n * hw.pollInterval ∧ BusKeeps s t ∧
      t.pwr = s.pwr ∧ t.rst = s.rst ∧ t.dc = s.dc ∧ t.cs = s.cs ∧ t.failIn = s.failIn ∧
      t.tr = s.tr ++ clearEvents hw n

/-- R109 (the spec's decision D13; log entry 27): a busy line that stays at 1 is sampled `ceil(timeout /
POLL_INTERVAL) + 1` times, then `Timeout`. -/
def Obligations.WaitBusyTimesOut : Prop :=
  ∀ (timeout : Nat) (s : State), StaysBusy (pollTurns hw timeout + 1) s →
    ∃ t, exec (.waitBusy timeout) s = .next t ∧ t.ret = .timeout ∧
      t.elapsed = pollTurns hw timeout * hw.pollInterval ∧ BusKeeps s t ∧ t.failIn = s.failIn ∧
      t.tr = s.tr ++ stuckEvents hw (pollTurns hw timeout)

/-- R109, R241 (the spec's decision D13; log entry 27): whatever the environment answers, a busy wait ends after at
most `ceil(timeout / POLL_INTERVAL) + 1` samples, with `Ok` after a sample that read 0, and with `Timeout` after
samples that all read 1. -/
def Obligations.WaitBusyBounded : Prop :=
  ∀ (timeout : Nat) (s : State), ∃ t n, exec (.waitBusy timeout) s = .next t ∧ n ≤ pollTurns hw timeout ∧
    ((t.ret = .ok ∧ t.tr = s.tr ++ clearEvents hw n) ∨
      (t.ret = .timeout ∧ n = pollTurns hw timeout ∧ t.tr = s.tr ++ stuckEvents hw n))

/-- R111 (the spec's decision D18; log entry 25): which primitives can fail, and with what. -/
def Obligations.WhichPrimitivesFail : Prop :=
  ∀ (s t : State),
    (∀ bytes, exec (.spiTxn bytes) s = .next t → t.ret = .ok ∨ ∃ off, t.ret = .busError off) ∧
    (∀ code, exec (.writeCmd code) s = .next t → t.ret = .ok ∨ ∃ off, t.ret = .busError off) ∧
    (∀ src, exec (.writeData src) s = .next t → t.ret = .ok ∨ ∃ off, t.ret = .busError off) ∧
    (∀ timeout, exec (.waitBusy timeout) s = .next t → t.ret = .ok ∨ t.ret = .timeout) ∧
    (∀ l, exec (.setPwr l) s = .next t → t.ret = .ok) ∧ (∀ l, exec (.setRst l) s = .next t → t.ret = .ok) ∧
    (∀ l, exec (.setDc l) s = .next t → t.ret = .ok) ∧ (∀ d, exec (.delay d) s = .next t → t.ret = .ok) ∧
    (exec .readBusy s = .next t → ∃ b, t.ret = .level b)

/-- R28, R112: what no primitive and no wire command touches; the power line changes by `SET_PWR` alone, the reset
line by `SET_RST` alone, `ELAPSED` by `WAIT_BUSY` alone, which, like `READ_BUSY`, leaves every output pin; every byte
of `BMP` and of `LATCH` reads as before. -/
def Obligations.BusOperationsFrame : Prop :=
  ∀ (i : Instr) (s t : State), i.level ≠ .host → exec i s = .next t →
    BusKeeps s t ∧ ((∀ l, i ≠ .setPwr l) → t.pwr = s.pwr) ∧ ((∀ l, i ≠ .setRst l) → t.rst = s.rst) ∧
    ((∀ d, i ≠ .waitBusy d) → t.elapsed = s.elapsed) ∧
    ((i = .readBusy ∨ ∃ d, i = .waitBusy d) →
      t.dc = s.dc ∧ t.cs = s.cs ∧ t.sclk = s.sclk ∧ t.mosi = s.mosi ∧ t.failIn = s.failIn) ∧
    (∀ a, Memory.read t.bmp a = Memory.read s.bmp a) ∧ (∀ a, Memory.read t.latch a = Memory.read s.latch a)

/-! ### Wire commands -/

/-- R130 to R132, R134 to R142 (the spec's decisions D14, D15, D21; log entry 7 for the chunk of 4096): each wire
command but `GATE_SRC_VOLT`, nothing failing: its byte with `DC` 0, then, when it has parameters, `DC` 1 and their
chunks. -/
def Obligations.WireCommandsComplete : Prop :=
  ∀ (s : State) (i : Instr) (cmd : Byte) (p : List Byte),
    (i, cmd, p) ∈ [(.swreset, 0x12, []), (.drvOutCtrl, 0x01, hw.pDoc), (.dataEntry, 0x11, hw.pDem),
      (.xWindow, 0x44, hw.pXwin), (.yWindow, 0x45, hw.pYwin), (.xCounter, 0x4E, hw.pXcnt), (.yCounter, 0x4F, hw.pYcnt),
      (.writeOld, 0x10, (latchBytes hw s).map (fun v => ~~~v)), (.writeNew, 0x13, latchBytes hw s),
      (.refresh, 0x12, []), (.deepSleep, 0x10, [0x01])] →
    NoFail (1 + (p.length + 4095) / 4096) s →
    ∃ t, exec i s = .next t ∧ t.ret = .ok ∧ t.tr = s.tr ++ sendEvents hw cmd p ∧ (t.dc = true ↔ p ≠ []) ∧
      BusKeeps s t ∧ t.pwr = s.pwr ∧ t.rst = s.rst

/-- R130, R133 (the spec's decisions D14, D15, D21; log entry 7 for the chunk of 4096): `GATE_SRC_VOLT`, nothing
failing: a frame per element of `GSV`, in list order. -/
def Obligations.GateSourceVoltageCompletes : Prop :=
  ∀ s : State, NoFail (txnCount (hw.gsv.flatMap (fun g => sendEvents hw g.cmd g.params))) s →
    ∃ t, exec .gateSrcVolt s = .next t ∧ t.ret = .ok ∧
      t.tr = s.tr ++ hw.gsv.flatMap (fun g => sendEvents hw g.cmd g.params) ∧ BusKeeps s t ∧ t.pwr = s.pwr ∧
      t.rst = s.rst

/-- R130, R133, R139, R140 (the spec's decisions D14, D15, D21; log entry 7 for the chunk of 4096): how a wire command
fails. When the command byte fails, the data part is not attempted; when chunk `n` of the data fails, `BusError`
carries the offset where it starts and no later chunk is sent; when an element of `GSV` fails, at its command byte or
in its data, the elements before it were sent whole and the later ones are not sent. -/
def Obligations.WireCommandByteFails : Prop :=
  (∀ (s : State) (i : Instr) (cmd : Byte),
      (i, cmd) ∈ [(.swreset, 0x12), (.drvOutCtrl, 0x01), (.gateSrcVolt, Config.gsvHead.cmd), (.dataEntry, 0x11),
        (.xWindow, 0x44), (.yWindow, 0x45), (.xCounter, 0x4E), (.yCounter, 0x4F), (.writeOld, 0x10), (.writeNew, 0x13),
        (.refresh, 0x12), (.deepSleep, (0x10 : Byte))] →
      failNow s = true →
      ∃ t, exec i s = .next t ∧ t.ret = .busError 0 ∧ t.dc = false ∧ BusKeeps s t ∧
        t.tr = s.tr ++ [.pin .dc false, .txnFail false [cmd]]) ∧
  (∀ (s : State) (i : Instr) (cmd : Byte) (p : List Byte) (n : Nat),
    (i, cmd, p) ∈ [(.drvOutCtrl, 0x01, hw.pDoc), (.dataEntry, 0x11, hw.pDem), (.xWindow, 0x44, hw.pXwin),
      (.yWindow, 0x45, hw.pYwin), (.xCounter, 0x4E, hw.pXcnt), (.yCounter, 0x4F, hw.pYcnt),
      (.writeOld, 0x10, (latchBytes hw s).map (fun v => ~~~v)), (.writeNew, 0x13, latchBytes hw s),
      (.deepSleep, 0x10, [0x01])] →
    n < (p.length + 4095) / 4096 → FailsAt (1 + n) s →
    ∃ t, exec i s = .next t ∧ t.ret = .busError (n * 4096) ∧ t.dc = true ∧ BusKeeps s t ∧ t.pwr = s.pwr ∧
      t.rst = s.rst ∧
      t.tr = s.tr ++ [.pin .dc false, .txn false [cmd], .pin .dc true] ++
        (List.range n).map (fun k => Event.txn true ((p.drop (k * 4096)).take 4096)) ++
        [.txnFail true ((p.drop (n * 4096)).take 4096)]) ∧
  ∀ (s : State) (pre : List GsvEntry) (g : GsvEntry) (post : List GsvEntry), hw.gsv = pre ++ g :: post →
    (FailsAt (txnCount (pre.flatMap (fun g => sendEvents hw g.cmd g.params))) s →
      ∃ t, exec .gateSrcVolt s = .next t ∧ t.ret = .busError 0 ∧ t.dc = false ∧ BusKeeps s t ∧ t.pwr = s.pwr ∧
        t.rst = s.rst ∧
        t.tr = s.tr ++ pre.flatMap (fun g => sendEvents hw g.cmd g.params) ++
          [.pin .dc false, .txnFail false [g.cmd]]) ∧
    ∀ n, n < (g.params.length + 4095) / 4096 →
      FailsAt (txnCount (pre.flatMap (fun g => sendEvents hw g.cmd g.params)) + (1 + n)) s →
      ∃ t, exec .gateSrcVolt s = .next t ∧ t.ret = .busError (n * 4096) ∧ t.dc = true ∧ BusKeeps s t ∧
        t.pwr = s.pwr ∧ t.rst = s.rst ∧
        t.tr = s.tr ++ pre.flatMap (fun g => sendEvents hw g.cmd g.params) ++
          [.pin .dc false, .txn false [g.cmd], .pin .dc true] ++
          (List.range n).map (fun k => Event.txn true ((g.params.drop (k * 4096)).take 4096)) ++
          [.txnFail true ((g.params.drop (n * 4096)).take 4096)]

/-! ### Panel operations -/

/-- R149, R150 (the spec's decisions D7, D10, D11, D13, D14; log entries 7 and 27): `INIT` outside `Awake`, nothing
failing and `BUSY` clear in time: the whole sequence of V45 in its order, then `Awake`, `Ok`, power (where the line
exists) and reset high. From `Transferring`, where no run is between operations, only by the model's choice (log entry
29). -/
def Obligations.InitCompletes : Prop :=
  ∀ (s : State) (n : Nat), s.seq.op = .idle → s.st ≠ .awake → NoFail (txnCount (initEvents hw n)) s →
    ClearsAfter n s → clearsInTime hw hw.tInitBusy n →
    ∃ t, exec .init s = .next t ∧ Delivered .ok t ∧ t.st = .awake ∧ t.tr = s.tr ++ initEvents hw n ∧
      t.rst = true ∧ t.pwr = (if hw.hasPwr then true else s.pwr) ∧ PanelKeeps s t ∧ t.latch = s.latch

/-- R109, R150, R192, R196 (the spec's decisions D7, D13, D22; log entry 27): a busy line that does not clear after
the soft reset ends `INIT` with `InitFailed(Timeout)`; the pins keep their levels and no further command is sent. The
number of samples in the trace is the spec's own choice D13, which log entry 27 calls unsafe. From `Transferring`,
where no run is between operations, only by the model's choice (log entry 29). -/
def Obligations.InitTimesOut : Prop :=
  ∀ s : State, s.seq.op = .idle → s.st ≠ .awake → NoFail 1 s → StaysBusy (pollTurns hw hw.tInitBusy + 1) s →
    ∃ t, exec .init s = .next t ∧ Delivered (.err (.initFailed .timeout)) t ∧ t.st = .uninitialized ∧ t.rst = true ∧
      t.pwr = (if hw.hasPwr then true else s.pwr) ∧
      t.tr = s.tr ++ pulseEvents hw ++ sendEvents hw 0x12 [] ++ stuckEvents hw (pollTurns hw hw.tInitBusy)

/-- R150, R195, R196 (the spec's decisions D7, D13, D14, D22; log entries 7 and 27): a bus failure at transaction `k`
(counted from 0) of `INIT` ends it with `InitFailed(BusError)`, `Uninitialized`; the trace is that of the completed
`INIT` up to the failing transaction, and nothing is sent after it; the pins keep their levels. From `Transferring`,
where no run is between operations, only by the model's choice (log entry 29). -/
def Obligations.InitBusFails : Prop :=
  ∀ (s : State) (n k : Nat), s.seq.op = .idle → s.st ≠ .awake → ClearsAfter n s → clearsInTime hw hw.tInitBusy n →
    k < txnCount (initEvents hw n) → FailsAt k s →
    ∃ t evs bytes, exec .init s = .next t ∧ Delivered (.err (.initFailed .busError)) t ∧ t.st = .uninitialized ∧
      t.rst = true ∧ t.pwr = (if hw.hasPwr then true else s.pwr) ∧ t.tr = s.tr ++ evs ++ [.txnFail t.dc bytes] ∧
      (evs ++ [.txn t.dc bytes]) <+: initEvents hw n ∧ txnCount evs = k

/-- R150, R202 (the spec's decisions D7, D22): whatever the environment answers, `INIT` outside `Awake` ends `Awake`
with `Ok`, or `Uninitialized` with `InitFailed`; `RST` is 1, `PWR` is 1 where the line exists, `OFFSET` is 0. From
`Transferring`, where no run is between operations, only by the model's choice (log entry 29). -/
def Obligations.InitOutcomes : Prop :=
  ∀ s : State, s.seq.op = .idle → s.st ≠ .awake →
    ∃ t r, exec .init s = .next t ∧ Delivered r t ∧
      ((r = .ok ∧ t.st = .awake) ∨ (∃ cause, r = .err (.initFailed cause) ∧ t.st = .uninitialized)) ∧
      t.offset = 0 ∧ t.rst = true ∧ (hw.hasPwr = true → t.pwr = true) ∧ PanelKeeps s t ∧ t.latch = s.latch

/-- R193 (the spec's decisions D4, D8): `INIT` in `Awake`, `DISPLAY_FULL` outside `Awake` (whatever the length of the
bitmap) and `SLEEP` in `Uninitialized` end with `InvalidState`, `STATUS` 0x03, `OFFSET` 0; `SLEEP` in `Asleep` is no
error (R154). In each case the trace, `ST` and everything else but the result and the pulse of `res_valid` are
unchanged. -/
def Obligations.InvalidStateChecks : Prop :=
  (∀ (s : State) (i : Instr), s.seq.op = .idle →
    (i = .init ∧ s.st = .awake ∨ i = .displayFull ∧ s.st ≠ .awake ∨ i = .sleep ∧ s.st = .uninitialized) →
    ∃ t, exec i s = .next t ∧ Delivered (.err .invalidState) t ∧ t.status = 0x03 ∧ t.offset = 0 ∧ t.tr = s.tr ∧
      t.st = s.st ∧ QuietKeeps s t ∧ t.bmp = s.bmp ∧ t.bmpLen = s.bmpLen) ∧
  ∀ s : State, s.seq.op = .idle → s.st = .asleep →
    ∃ t, exec .sleep s = .next t ∧ Delivered .ok t ∧ QuietKeeps s t ∧ t.bmp = s.bmp ∧ t.bmpLen = s.bmpLen

/-- R194 (the spec's decision D8): the length check of `DISPLAY_FULL`: no wire activity, `ST` unchanged. -/
def Obligations.GeometryMismatchCheck : Prop :=
  ∀ s : State, s.seq.op = .idle → s.st = .awake → s.bmpLen ≠ 48000 →
    ∃ t, exec .displayFull s = .next t ∧ Delivered (.err .geometryMismatch) t ∧ QuietKeeps s t ∧ t.bmp = s.bmp ∧
      t.bmpLen = s.bmpLen

/-- R78, R151, R152 (the spec's decisions D6, D8, D13, D14, D24; log entries 7 and 27): `DISPLAY_FULL` in `Awake` with a
bitmap of the right length, nothing failing and `BUSY` clear in time: the complement, the bitmap, the refresh, the wait;
`Ok`, `Awake`; `PWR` and `RST` untouched, `DC` 0. Of the three frames a receiver reads, the bytes sent as previous image
are the bitwise NOT of the bitmap at acceptance, those sent as new image the bitmap. -/
def Obligations.DisplayCompletes : Prop :=
  ∀ (s : State) (n : Nat), s.seq.op = .idle → s.st = .awake → s.bmpLen = 48000 → NoFail 27 s → ClearsAfter n s →
    clearsInTime hw hw.tRefresh n →
    ∃ (t : State) (evs : List Event) (old new : List Byte), exec .displayFull s = .next t ∧ Delivered .ok t ∧
      t.st = .awake ∧ t.tr = s.tr ++ evs ∧
      evs = displayEvents hw (Memory.readRange s.bmp 0 48000) ++ clearEvents hw n ∧
      framesOf evs = [⟨0x10, old⟩, ⟨0x13, new⟩, ⟨0x12, []⟩] ∧ old.length = 48000 ∧ new.length = 48000 ∧
      (∀ i, i < 48000 → new[i]? = some (Memory.read s.bmp i) ∧ old[i]? = some (Memory.read s.bmp i ^^^ 0xFF)) ∧
      t.pwr = s.pwr ∧ t.rst = s.rst ∧ t.dc = false ∧ PanelKeeps s t ∧
      ∀ i, i < 48000 → Memory.read t.latch i = Memory.read s.bmp i

/-- R152, R195, R196, R201 (the spec's decisions D6, D15; log entry 7 for the chunk of 4096): a bus failure at transaction
`k` (counted from 0) of `DISPLAY_FULL` ends it with `TransferFailed` and the offset reached in the failing pass, 0 when a
command byte failed; `Awake`; the trace is that of the completed `DISPLAY_FULL` up to the failing transaction, whose
bytes are those of the `TxnFail`, and nothing is sent after it. -/
def Obligations.DisplayTransferFails : Prop :=
  ∀ (s : State) (k : Nat), s.seq.op = .idle → s.st = .awake → s.bmpLen = 48000 → k < 27 → FailsAt k s →
    ∃ t evs bytes, exec .displayFull s = .next t ∧
      Delivered (.err (.transferFailed (if 1 ≤ k ∧ k ≤ 12 then (k - 1) * 4096
        else if 14 ≤ k ∧ k ≤ 25 then (k - 14) * 4096 else 0))) t ∧
      t.st = .awake ∧ t.pwr = s.pwr ∧ t.rst = s.rst ∧ t.tr = s.tr ++ evs ++ [.txnFail t.dc bytes] ∧
      (evs ++ [.txn t.dc bytes]) <+: displayEvents hw (Memory.readRange s.bmp 0 48000) ∧ txnCount evs = k

/-- R109, R152, R192, R196 (the spec's decisions D6, D13, D14; log entries 7 and 27): a busy line that does not clear
after the refresh trigger ends `DISPLAY_FULL` with `RefreshTimeout`, `Awake`; no further command is sent. The number
of samples in the trace is the spec's own choice D13, which log entry 27 calls unsafe. -/
def Obligations.DisplayRefreshTimesOut : Prop :=
  ∀ s : State, s.seq.op = .idle → s.st = .awake → s.bmpLen = 48000 → NoFail 27 s →
    StaysBusy (pollTurns hw hw.tRefresh + 1) s →
    ∃ t, exec .displayFull s = .next t ∧ Delivered (.err .refreshTimeout) t ∧ t.st = .awake ∧
      t.tr = s.tr ++ displayEvents hw (Memory.readRange s.bmp 0 48000) ++ stuckEvents hw (pollTurns hw hw.tRefresh)

/-- R12, R28, R152, R194 (the spec's decisions D6, D8, D14, D15; log entry 7 for the chunk of 4096): whatever the
environment answers, `DISPLAY_FULL` in `Awake` ends in `Awake`: with `Ok`, `TransferFailed` or `RefreshTimeout` for a
bitmap of the right length, with `GeometryMismatch` for any other; the offset of `TransferFailed` is the start of a
chunk; `PWR`, `RST`, `BMP`, `IMG` and the operand registers are untouched. -/
def Obligations.DisplayOutcomes : Prop :=
  ∀ s : State, s.seq.op = .idle → s.st = .awake →
    ∃ t r, exec .displayFull s = .next t ∧ Delivered r t ∧ t.st = .awake ∧
      (s.bmpLen = 48000 → r = .ok ∨
        (∃ off, r = .err (.transferFailed off) ∧ off % 4096 = 0 ∧ off < 48000) ∨ r = .err .refreshTimeout) ∧
      (s.bmpLen ≠ 48000 → r = .err .geometryMismatch ∧ QuietKeeps s t) ∧
      t.pwr = s.pwr ∧ t.rst = s.rst ∧ PanelKeeps s t

/-- R153, R154 (the spec's decision D10): `SLEEP` in `Awake`, nothing failing: deep sleep, settle delay, power low
where the line exists. -/
def Obligations.SleepCompletes : Prop :=
  ∀ s : State, s.seq.op = .idle → s.st = .awake → NoFail 2 s →
    ∃ t, exec .sleep s = .next t ∧ Delivered .ok t ∧ t.st = .asleep ∧ t.tr = s.tr ++ sleepEvents hw ∧
      t.pwr = (if hw.hasPwr then false else s.pwr) ∧ t.rst = s.rst ∧ PanelKeeps s t ∧ t.latch = s.latch ∧
      t.elapsed = s.elapsed

/-- R154, R196 (the spec's decision D5): a bus failure in `SLEEP` is `SleepFailed`: `Awake`, no settle delay, `PWR`
not lowered. -/
def Obligations.SleepFails : Prop :=
  ∀ (s : State) (k : Nat), s.seq.op = .idle → s.st = .awake → k < 2 → FailsAt k s →
    ∃ t, exec .sleep s = .next t ∧ Delivered (.err .sleepFailed) t ∧ t.st = .awake ∧ t.pwr = s.pwr ∧ t.rst = s.rst ∧
      t.tr = s.tr ++ (if k = 0 then [.pin .dc false, .txnFail false [0x10]]
        else [.pin .dc false, .txn false [0x10], .pin .dc true, .txnFail true [0x01]])

/-- R12 (the spec's decisions D5, D6, D8; log entry 27): the complete transition relation of `ST` between operations:
(`ST` before, operation, result, `ST` after). -/
def Obligations.TransitionRelation : Prop :=
  ∀ (s t : State) (i : Instr), s.seq.op = .idle → s.st ≠ .transferring → i.level = .host → exec i s = .next t →
    ∃ r, Delivered r t ∧
      (i = .init ∧ s.st ≠ .awake ∧ (r = .ok ∧ t.st = .awake ∨ (∃ c, r = .err (.initFailed c)) ∧ t.st = .uninitialized) ∨
       i = .init ∧ s.st = .awake ∧ r = .err .invalidState ∧ t.st = .awake ∨
       i = .displayFull ∧ s.st = .awake ∧ t.st = .awake ∧
         (r = .ok ∨ r = .err .geometryMismatch ∨ (∃ o, r = .err (.transferFailed o)) ∨ r = .err .refreshTimeout) ∨
       i = .displayFull ∧ s.st ≠ .awake ∧ r = .err .invalidState ∧ t.st = s.st ∨
       i = .sleep ∧ s.st = .awake ∧ (r = .ok ∧ t.st = .asleep ∨ r = .err .sleepFailed ∧ t.st = .awake) ∨
       i = .sleep ∧ s.st = .asleep ∧ r = .ok ∧ t.st = .asleep ∨
       i = .sleep ∧ s.st = .uninitialized ∧ r = .err .invalidState ∧ t.st = .uninitialized ∨
       i = .encode ∧ r = .ok ∧ t.st = s.st)

/-- R28 (derived in the spec): which panel operation may write which pin and buffer. -/
def Obligations.PanelOperationsFrame : Prop :=
  ∀ (s t : State),
    (exec .init s = .next t → PanelKeeps s t ∧ t.latch = s.latch ∧ ∀ a, Memory.read t.bmp a = Memory.read s.bmp a) ∧
    (exec .displayFull s = .next t → PanelKeeps s t ∧ t.pwr = s.pwr ∧ t.rst = s.rst ∧
      ∀ a, Memory.read t.bmp a = Memory.read s.bmp a) ∧
    (exec .sleep s = .next t → PanelKeeps s t ∧ t.latch = s.latch ∧ t.rst = s.rst ∧ t.elapsed = s.elapsed ∧
      ∀ a, Memory.read t.bmp a = Memory.read s.bmp a)

/-- R155, R238, D31 (log entry 3): a level-H operation requested while one is in progress gets no move. -/
def Obligations.HostOperationsRefusedWhileBusy : Prop :=
  ∀ (s : State) (i : Instr), i.level = .host → s.seq.op ≠ .idle → exec i s = .refused .opInProgress

/-! ### ENCODE -/

/-- R41, R170 to R175 (the spec's decisions D25, D26, D27; log entries 7, 9 and 11): `ENCODE` of admitted operands, in
any panel state: pixel `(x, y)` is bit `7 - x % 8` of byte `100*y + x/8`, set when `(luma >= THRESH) XOR INVERT`;
every other byte of `BMP` reads as before; `BMP_LEN` is 48000; no pin, no event. -/
def Obligations.EncodeCompletes : Prop :=
  ∀ s : State, s.seq.op = .idle → 1 ≤ s.imgW.toNat → 1 ≤ s.imgH.toNat → s.imgDepth = 8 ∨ s.imgDepth = 16 →
    Memory.wf s.bmp →
    ∃ t, exec .encode s = .next t ∧ Delivered .ok t ∧ QuietKeeps s t ∧ t.bmpLen = 48000 ∧
      (∀ x y, x < 800 → y < 480 →
        (Memory.read t.bmp (y * 100 + x / 8)).getLsbD (7 - x % 8) =
          (decide (s.thresh.toNat ≤ luma (scale8 s.imgDepth.toNat
            (Pixels.read s.img (x * s.imgW.toNat / 800) (y * s.imgH.toNat / 480))))).xor s.invert) ∧
      ∀ a, 48000 ≤ a → Memory.read t.bmp a = Memory.read s.bmp a

/-- R170, D29: operands that break the `require` line are refused: no result, no write. -/
def Obligations.EncodeRefusesOperands : Prop :=
  ∀ s : State, s.seq.op = .idle → (s.imgW = 0 ∨ s.imgH = 0 ∨ (s.imgDepth ≠ 8 ∧ s.imgDepth ≠ 16)) →
    exec .encode s = .refused .encodeOperands

/-- R176 (derived in the spec): the size law, for every configuration with `WIDTH % 8 = 0`. -/
def Obligations.EncodeSize : Prop :=
  ∀ (c : Cfg) (a : EncodeArgs), c.width % 8 = 0 → (encodedBytes c a).length = c.width * c.height / 8

/-- R176 (derived in the spec): the inversion law, for every configuration, image and threshold. -/
def Obligations.EncodeInversion : Prop :=
  ∀ (c : Cfg) (a : EncodeArgs),
    encodedBytes c { a with invert := !a.invert } = (encodedBytes c a).map (fun v => ~~~v)

/-- R28, R176: `ENCODE` is a function of its operands: two states that agree on them, however else they differ, get
the same bitmap. -/
def Obligations.EncodeDependsOnOperandsOnly : Prop :=
  ∀ (s s' t t' : State), encodeArgs s = encodeArgs s' → Memory.wf s.bmp → Memory.wf s'.bmp →
    exec .encode s = .next t → exec .encode s' = .next t' →
    Memory.readRange t.bmp 0 48000 = Memory.readRange t'.bmp 0 48000

/-- R173 (the spec's decision D25): the luma is the truncated weighting, 0 to 255 for 8-bit channels, and of a grey
pixel its value. -/
def Obligations.LumaRange : Prop :=
  (∀ p : Rgb, luma p = (299 * p.r + 587 * p.g + 114 * p.b) / 1000) ∧
  (∀ p : Rgb, p.r ≤ 255 → p.g ≤ 255 → p.b ≤ 255 →
    299 * p.r + 587 * p.g + 114 * p.b ≤ 255000 ∧ luma p ≤ 255) ∧ (∀ v : Nat, luma ⟨v, v, v⟩ = v) ∧
  luma ⟨255, 0, 0⟩ = 76 ∧ luma ⟨0, 255, 0⟩ = 149 ∧ luma ⟨0, 0, 255⟩ = 29 ∧ luma ⟨200, 100, 50⟩ = 124

/-- R174: a pixel is white when `(luma >= THRESH) XOR INVERT`: the comparison first; luma equal to the threshold is
white when not inverted, threshold 0 makes every pixel white (black when inverted), threshold 255 only luma 255. -/
def Obligations.ClassifyThreshold : Prop :=
  (∀ (l t : Nat) (inv : Bool), classify l t inv = (decide (t ≤ l)).xor inv ∧ classify t t inv = !inv ∧
    classify l 0 inv = !inv ∧ classify l t (!inv) = !classify l t inv ∧
    (l ≤ 255 → (classify l 255 false = true ↔ l = 255))) ∧
  classify 128 128 false = true ∧ classify 127 128 false = false ∧ classify 128 128 true = false

/-- R171 (the spec's decision D26; log entry 11): `SCALE8` keeps 8-bit channels and drops the low byte of 16-bit ones; its
results are 8-bit, also, by the model's choice of log entry 11, for a channel above `IMG_DEPTH` bits, whose high bits are
not read. -/
def Obligations.ScaleEight : Prop :=
  ∀ p : Pixel,
    scale8 16 p = ⟨p.r.toNat / 256, p.g.toNat / 256, p.b.toNat / 256⟩ ∧
    (p.r.toNat < 256 → p.g.toNat < 256 → p.b.toNat < 256 → scale8 8 p = ⟨p.r.toNat, p.g.toNat, p.b.toNat⟩) ∧
    ∀ d, d = 8 ∨ d = 16 → (scale8 d p).r < 256 ∧ (scale8 d p).g < 256 ∧ (scale8 d p).b < 256

/-! ### The whole machine -/

/-- Every step keeps the invariant of the block: canonical buffers (log entries 9 and 11), `CS` and `SCLK` at rest
(log entry 26; after a failed transaction also 5), a legal `STATUS`, `OFFSET` 0 or the start of a chunk, `SEQ` inside
its micro-program, `Transferring` only inside `DISPLAY_FULL` (R11, R13, R15, R16, R17; the spec's decisions D1, D4,
D14, D15; log entry 7 for the chunk of 4096). -/
def Obligations.StepKeepsInvariant : Prop := ∀ s t : State, s.Inv → step s = .next t → t.Inv

/-- Every step keeps the invariant of the trace: transactions of 1 to 4096 bytes, lines at the level last written,
transactions with the level `DC` was last written to (R15, R24, R83; the spec's decisions D14, D36; log entry 7 for
4096). -/
def Obligations.StepKeepsTraceInvariant : Prop := ∀ s t : State, s.TraceInv → step s = .next t → t.TraceInv

/-- R24, R50, R112 (log entry 17): a step only appends to the trace; and with nothing on the bench, which no step changes,
the trace and the output pins move only inside `INIT`, `DISPLAY_FULL` or `SLEEP` or in a step that runs one of them for
the host: the sequencer alone calls the primitives, and `ENCODE` and a host write call none. -/
def Obligations.TraceOnlyGrows : Prop :=
  ∀ s t : State, step s = .next t → (∃ evs, t.tr = s.tr ++ evs) ∧
    (s.bench = none → t.bench = none ∧
      (PinsKeep s t ∨ s.seq.op = .init ∨ s.seq.op = .display ∨ s.seq.op = .sleep ∨
        ∃ code rest i tail, s.seq.op = .idle ∧ s.pending = .issue code :: rest ∧ decode .host code = .ok (i, tail) ∧
          (i = .init ∨ i = .displayFull ∨ i = .sleep)))

/-- R205 (log entry 21): nothing is fatal: from a state that meets the invariant no step ends in a fault. -/
def Obligations.NoStepFaults : Prop := ∀ (s : State) (f : Fault), s.Inv → step s ≠ .fault f

/-- R200 (log entry 16): a level-H operation that ends leaves the block idle and ready, with its result delivered. -/
def Obligations.OperationsEndDelivered : Prop :=
  ∀ (s t : State) (i : Instr), i.level = .host → exec i s = .next t → ∃ r, Delivered r t ∧ opReady t = true

/-- R148: running the micro-operations one step at a time, once it is accepted, its entry checks done and the bitmap
captured, is the whole operation (the spec's decision D24 for the captured bitmap; log entries 1, 27 and 30). `INIT`
from `Transferring`, where no run is between operations, only by the model's choice (log entry 29). -/
def Obligations.MicroStepsMakeTheOperation : Prop :=
  ∀ s : State, s.seq.op = .idle →
    (s.st ≠ .awake → ∃ k, Host.Core.run Sys2Proof.core k (accept .init s) = exec .init s) ∧
    (s.st = .awake → s.bmpLen = 48000 →
      ∃ k, Host.Core.run Sys2Proof.core k (capture hw (accept .display s)) = exec .displayFull s) ∧
    (s.st = .awake → ∃ k, Host.Core.run Sys2Proof.core k (accept .sleep s) = exec .sleep s)

/-- R21, R54, R239 (the spec's decision D24; log entries 27, 30 and 31): the frame in progress does not depend on
`BMP`: inside `DISPLAY_FULL` a step from a state with other bytes in `BMP` is the same step. This is the spec's own
choice D24, the bitmap captured in `LATCH`, which log entry 27 calls unsafe (toward proving): a block that streams
from `BMP` has more runs. -/
def Obligations.BitmapStable : Prop :=
  ∀ (s t : State) (m : Memory), s.seq.op = .display → step s = .next t →
    step { s with bmp := m } = .next { t with bmp := m }

/-- R80: the panel operations and the wire commands send no command byte outside the table of R74. -/
def Obligations.OnlyDocumentedCommandBytes : Prop :=
  ∀ (s t : State) (i : Instr), i.level ≠ .micro → exec i s = .next t →
    ∃ evs, t.tr = s.tr ++ evs ∧ ∀ bytes, (Event.txn false bytes ∈ evs ∨ Event.txnFail false bytes ∈ evs) →
      ∃ cmd, bytes = [cmd] ∧ cmd ∈ [0x12, 0x01, 0x11, 0x44, 0x45, 0x4E, 0x4F, 0x10, 0x13] ++ hw.gsv.map GsvEntry.cmd

/-- R72, R74, R149 (the spec's decisions D7, D11, D13, D14, D20; log entries 7 and 27): the frames a receiver reads
from a completed `INIT`: soft reset, then the setup commands in order, with their parameters whole. From
`Transferring`, where no run is between operations, only by the model's choice (log entry 29). -/
def Obligations.InitFramesInOrder : Prop :=
  ∀ (s : State) (n : Nat), s.seq.op = .idle → s.st ≠ .awake → NoFail (txnCount (initEvents hw n)) s →
    ClearsAfter n s → clearsInTime hw hw.tInitBusy n →
    ∃ t evs, exec .init s = .next t ∧ t.tr = s.tr ++ evs ∧
      framesOf evs = [⟨0x12, []⟩, ⟨0x01, hw.pDoc⟩] ++ hw.gsv.map (fun g => ⟨g.cmd, g.params⟩) ++
        [⟨0x11, hw.pDem⟩, ⟨0x44, hw.pXwin⟩, ⟨0x45, hw.pYwin⟩, ⟨0x4E, hw.pXcnt⟩, ⟨0x4F, hw.pYcnt⟩]
end

