-- ==== Sys2Proof/Laws/Memory.lean ====
section
/-!
SUPPORT. The laws of the sparse buffers: read after write, other addresses unchanged, the canonical form kept by every
memory operation (log entries 9 to 11).
-/

namespace Sys2Proof.Machine

section Sparse

variable {α : Type} [DecidableEq α] (d : α)

omit [DecidableEq α] in
theorem Sparse.read_above {m : List (Nat × α)} {a : Nat} (h : ∀ p ∈ m, a < p.1) : Sparse.read d m a = d := by
  induction m with
  | nil => rfl
  | cons p m ih =>
    have hp := h p (by simp)
    simp only [Sparse.read]
    rw [if_neg (by omega)]
    exact ih fun q hq => h q (by simp [hq])

/-- A write leaves every other address alone. -/
theorem Sparse.read_write_other (m : List (Nat × α)) {a x : Nat} (v : α) (h : x ≠ a) :
    Sparse.read d (Sparse.write d m a v) x = Sparse.read d m x := by
  induction m with
  | nil =>
    simp only [Sparse.write]
    split
    · rfl
    · simp only [Sparse.read]
      rw [if_neg (Ne.symm h)]
  | cons p m ih =>
    obtain ⟨k, w⟩ := p
    simp only [Sparse.write]
    split
    · split
      · rfl
      · conv_lhs => rw [Sparse.read]
        rw [if_neg (Ne.symm h)]
    · split
      · rename_i _ hk
        subst hk
        split
        · simp only [Sparse.read]
          rw [if_neg (Ne.symm h)]
        · simp only [Sparse.read]
          rw [if_neg (Ne.symm h), if_neg (Ne.symm h)]
      · simp only [Sparse.read, ih]

/-- A read after a write to the same address gives the value written. -/
theorem Sparse.read_write_same (m : List (Nat × α)) (a : Nat) (v : α) (h : m.Pairwise (fun p q => p.1 < q.1)) :
    Sparse.read d (Sparse.write d m a v) a = v := by
  induction m with
  | nil =>
    simp only [Sparse.write]
    split
    · simp_all [Sparse.read]
    · simp [Sparse.read]
  | cons p m ih =>
    obtain ⟨k, w⟩ := p
    rw [List.pairwise_cons] at h
    simp only [Sparse.write]
    split
    · rename_i hak
      split
      · rename_i hv
        rw [hv]
        refine Sparse.read_above d fun q hq => ?_
        rcases List.mem_cons.mp hq with rfl | hq
        · exact hak
        · have := h.1 q hq
          simp only at this
          omega
      · simp [Sparse.read]
    · split
      · rename_i _ hk
        subst hk
        split
        · rename_i hv
          rw [hv]
          exact Sparse.read_above d fun q hq => h.1 q hq
        · simp [Sparse.read]
      · rename_i _ hk
        simp only [Sparse.read]
        rw [if_neg (Ne.symm hk)]
        exact ih h.2

theorem Sparse.mem_write {m : List (Nat × α)} {a : Nat} {v : α} {p : Nat × α} (h : p ∈ Sparse.write d m a v) :
    p ∈ m ∨ (p = (a, v) ∧ v ≠ d) := by
  induction m with
  | nil =>
    simp only [Sparse.write] at h
    split at h
    · simp at h
    · simp_all
  | cons q m ih =>
    obtain ⟨k, w⟩ := q
    simp only [Sparse.write] at h
    split at h
    · split at h
      · exact .inl h
      · rcases List.mem_cons.mp h with rfl | h
        · exact .inr ⟨rfl, by assumption⟩
        · exact .inl h
    · split at h
      · split at h
        · exact .inl (List.mem_cons_of_mem _ h)
        · rcases List.mem_cons.mp h with rfl | h
          · exact .inr ⟨rfl, by assumption⟩
          · exact .inl (List.mem_cons_of_mem _ h)
      · rcases List.mem_cons.mp h with rfl | h
        · exact .inl (by simp)
        · rcases ih h with h | h
          · exact .inl (List.mem_cons_of_mem _ h)
          · exact .inr h

/-- A write keeps the canonical form. -/
theorem Sparse.write_wf {m : List (Nat × α)} (a : Nat) (v : α) (h : Sparse.Wf d m) :
    Sparse.Wf d (Sparse.write d m a v) := by
  refine ⟨?_, fun p hp => ?_⟩
  · obtain ⟨hs, -⟩ := h
    induction m with
    | nil =>
      simp only [Sparse.write]
      split <;> simp
    | cons q m ih =>
      obtain ⟨k, w⟩ := q
      have hs' := hs
      rw [List.pairwise_cons] at hs'
      simp only [Sparse.write]
      split
      · rename_i hak
        split
        · exact hs
        · refine List.pairwise_cons.mpr ⟨fun p hp => ?_, hs⟩
          rcases List.mem_cons.mp hp with rfl | hp
          · exact hak
          · exact Nat.lt_trans hak (hs'.1 p hp)
      · split
        · rename_i _ hk
          subst hk
          split
          · exact hs'.2
          · exact List.pairwise_cons.mpr ⟨hs'.1, hs'.2⟩
        · rename_i h1 h2
          refine List.pairwise_cons.mpr ⟨fun p hp => ?_, ih hs'.2⟩
          rcases Sparse.mem_write d hp with hp | ⟨rfl, -⟩
          · exact hs'.1 p hp
          · show k < a
            omega
  · rcases Sparse.mem_write d hp with hp | ⟨rfl, hv⟩
    · exact h.2 p hp
    · exact hv

/-- What a filter by address keeps is in canonical form. -/
theorem Sparse.filter_wf {m : List (Nat × α)} (f : Nat × α → Bool) (h : Sparse.Wf d m) : Sparse.Wf d (m.filter f) :=
  ⟨h.1.filter f, fun p hp => h.2 p (List.mem_of_mem_filter hp)⟩

omit [DecidableEq α] in
/-- A filter by address leaves the addresses it keeps. -/
theorem Sparse.read_filter (m : List (Nat × α)) (n a : Nat) :
    Sparse.read d (m.filter (fun p => decide (p.1 < n))) a = if a < n then Sparse.read d m a else d := by
  induction m with
  | nil => simp [Sparse.read]
  | cons p m ih =>
    obtain ⟨k, w⟩ := p
    simp only [List.filter_cons]
    split
    · rename_i hk
      have hk' : k < n := by simpa using hk
      simp only [Sparse.read, ih]
      split
      · subst k
        rw [if_pos hk']
      · rfl
    · rename_i hk
      have hk' : ¬ k < n := by simpa using hk
      rw [ih]
      split
      · simp only [Sparse.read]
        rw [if_neg (by omega)]
      · rfl

end Sparse

theorem Memory.read_write_same {m : Memory} (h : Memory.wf m) (a : Nat) (v : Byte) : Memory.read (Memory.write m a v) a = v :=
  Sparse.read_write_same _ m a v h.1

theorem Memory.read_write_other (m : Memory) {a x : Nat} (v : Byte) (h : x ≠ a) :
    Memory.read (Memory.write m a v) x = Memory.read m x :=
  Sparse.read_write_other _ m v h

theorem Memory.write_wf {m : Memory} (a : Nat) (v : Byte) (h : Memory.wf m) : Memory.wf (Memory.write m a v) :=
  Sparse.write_wf _ a v h

theorem Memory.restrict_wf {m : Memory} (n : Nat) (h : Memory.wf m) : Memory.wf (Memory.restrict m n) :=
  Sparse.filter_wf _ _ h

@[simp] theorem Memory.read_restrict (m : Memory) (n a : Nat) :
    Memory.read (Memory.restrict m n) a = if a < n then Memory.read m a else unlistedByte :=
  Sparse.read_filter _ m n a

theorem Memory.writeRange_wf {m : Memory} (a : Nat) (vs : List Byte) (h : Memory.wf m) :
    Memory.wf (Memory.writeRange m a vs) := by
  induction vs generalizing m a with
  | nil => exact h
  | cons v vs ih => exact ih _ (Memory.write_wf a v h)

theorem Memory.read_writeRange_below (m : Memory) (a : Nat) (vs : List Byte) {x : Nat} (h : x < a) :
    Memory.read (Memory.writeRange m a vs) x = Memory.read m x := by
  induction vs generalizing m a with
  | nil => rfl
  | cons v vs ih =>
    rw [Memory.writeRange, ih _ _ (by omega), Memory.read_write_other _ _ (by omega)]

/-- The bytes written are read back. -/
theorem Memory.read_writeRange_inside {m : Memory} (hm : Memory.wf m) (a : Nat) (vs : List Byte) (i : Nat)
    (hi : i < vs.length) : Memory.read (Memory.writeRange m a vs) (a + i) = vs[i] := by
  induction vs generalizing m a i with
  | nil => simp at hi
  | cons v vs ih =>
    rw [Memory.writeRange]
    cases i with
    | zero =>
      rw [Memory.read_writeRange_below _ _ _ (by omega)]
      exact Memory.read_write_same hm a v
    | succ i =>
      have := ih (Memory.write_wf a v hm) (a + 1) i (by simpa using hi)
      rw [show a + (i + 1) = a + 1 + i by omega, this]
      rfl

/-- The bytes above the ones written are left alone. -/
theorem Memory.read_writeRange_above (m : Memory) (a : Nat) (vs : List Byte) {x : Nat} (h : a + vs.length ≤ x) :
    Memory.read (Memory.writeRange m a vs) x = Memory.read m x := by
  induction vs generalizing m a with
  | nil => rfl
  | cons v vs ih =>
    simp only [List.length_cons] at h
    rw [Memory.writeRange, ih _ _ (by omega), Memory.read_write_other _ _ (by omega)]

@[simp] theorem Memory.length_readRange (m : Memory) (a n : Nat) : (Memory.readRange m a n).length = n := by
  simp [Memory.readRange]

/-- The captured bitmap reads as `BMP` did, below its length (R21). -/
theorem Memory.readRange_restrict (m : Memory) (n : Nat) :
    Memory.readRange (Memory.restrict m n) 0 n = Memory.readRange m 0 n := by
  simp only [Memory.readRange]
  refine List.map_congr_left fun i hi => ?_
  rw [Memory.read_restrict, if_pos (by simpa using List.mem_range.mp hi)]

theorem Pixels.write_wf {m : Pixels} (sx sy : Nat) (p : Pixel) (h : Pixels.wf m) : Pixels.wf (Pixels.write m sx sy p) :=
  Sparse.write_wf _ _ p h

theorem pixelKey_inj {sx sy sx' sy' : Nat} (h : sx < 2 ^ 32) (h' : sx' < 2 ^ 32)
    (hk : pixelKey sx sy = pixelKey sx' sy') : sx = sx' ∧ sy = sy' := by
  simp only [pixelKey] at hk
  omega

theorem Pixels.read_write_same {m : Pixels} (h : Pixels.wf m) (sx sy : Nat) (p : Pixel) :
    Pixels.read (Pixels.write m sx sy p) sx sy = p :=
  Sparse.read_write_same _ m _ p h.1

theorem Pixels.read_write_other (m : Pixels) {sx sy sx' sy' : Nat} (p : Pixel) (h : sx < 2 ^ 32) (h' : sx' < 2 ^ 32)
    (hne : (sx', sy') ≠ (sx, sy)) : Pixels.read (Pixels.write m sx sy p) sx' sy' = Pixels.read m sx' sy' := by
  refine Sparse.read_write_other _ m p fun hk => hne ?_
  obtain ⟨rfl, rfl⟩ := pixelKey_inj h' h hk
  rfl

end Sys2Proof.Machine
end

