-- ==== Sys2Proof/Laws/Codec.lean ====
section
/-!
SUPPORT. The laws of the frame codec: the bits of `PACK` (R175), the place of each byte (R41), the `require` line (R170)
for this hardware, and what `ENCODE` answers.
-/

namespace Sys2Proof.Machine

/-- Bit `7-k` of a packed byte is pixel `k` (R175). -/
theorem pack_bit (white : Nat → Bool) (k : Nat) (hk : k < 8) : (pack white).getLsbD (7 - k) = white k := by
  have hcases : k = 0 ∨ k = 1 ∨ k = 2 ∨ k = 3 ∨ k = 4 ∨ k = 5 ∨ k = 6 ∨ k = 7 := by omega
  simp only [pack]
  generalize ha : white 0 = a
  generalize hb : white 1 = b
  generalize hc : white 2 = c
  generalize hd : white 3 = d
  generalize he : white 4 = e
  generalize hf : white 5 = f
  generalize hg : white 6 = g
  generalize hh : white 7 = h
  rcases hcases with rfl | rfl | rfl | rfl | rfl | rfl | rfl | rfl <;>
    simp only [ha, hb, hc, hd, he, hf, hg, hh] <;> clear ha hb hc hd he hf hg hh hk <;>
    revert a b c d e f g h <;> decide

/-- Eight complemented pixels pack to the complemented byte. -/
theorem pack_not (white : Nat → Bool) : pack (fun k => !white k) = ~~~pack white := by
  simp only [pack]
  generalize white 0 = a
  generalize white 1 = b
  generalize white 2 = c
  generalize white 3 = d
  generalize white 4 = e
  generalize white 5 = f
  generalize white 6 = g
  generalize white 7 = h
  revert a b c d e f g h
  decide

/-- A list of `h` rows of `w` entries each. -/
theorem length_rows {α : Type} (f : Nat → Nat → α) (h w : Nat) :
    ((List.range h).flatMap (fun y => (List.range w).map (f y))).length = h * w := by
  simp

theorem getElem_rows {α : Type} (f : Nat → Nat → α) (h w y x : Nat) (hy : y < h) (hx : x < w) :
    ((List.range h).flatMap (fun y => (List.range w).map (f y)))[y * w + x]? = some (f y x) := by
  induction h with
  | zero => omega
  | succ h ih =>
    rw [List.range_succ, List.flatMap_append]
    by_cases hyh : y < h
    · rw [List.getElem?_append_left]
      · exact ih hyh
      · rw [length_rows]
        calc y * w + x < y * w + w := by omega
          _ = (y + 1) * w := by ring
          _ ≤ h * w := Nat.mul_le_mul_right _ hyh
    · obtain rfl : y = h := by omega
      rw [List.getElem?_append_right]
      · simp [hx]
      · rw [length_rows]
        omega

theorem encodedBytes_length (c : Cfg) (a : EncodeArgs) : (encodedBytes c a).length = c.height * c.rowBytes :=
  length_rows (encodedByte c a) _ _

/-- Byte `xb` of row `y` stands at `y * ROW_BYTES + xb` (R41). -/
theorem encodedBytes_get (c : Cfg) (a : EncodeArgs) {y xb : Nat} (hy : y < c.height) (hx : xb < c.rowBytes) :
    (encodedBytes c a)[y * c.rowBytes + xb]? = some (encodedByte c a y xb) :=
  getElem_rows (encodedByte c a) _ _ _ _ hy hx

theorem encodedBytes_length_hw (a : EncodeArgs) : (encodedBytes hw a).length = 48000 := by
  rw [encodedBytes_length]
  rfl

/-- The `require` line of `ENCODE` on this hardware (R170). -/
theorem encodeReady_hw (a : EncodeArgs) :
    encodeReady hw a = true ↔ 1 ≤ a.imgW ∧ 1 ≤ a.imgH ∧ (a.depth = 8 ∨ a.depth = 16) := by
  have h8 : hw.width % 8 = 0 := rfl
  have hd : hw.imgDepthSet = [8, 16] := rfl
  simp [encodeReady, h8, hd, and_assoc]

theorem exec_encode {s : State} (h : s.seq.op = .idle) (hr : encodeReady hw (encodeArgs s) = true) :
    exec .encode s = .next (encodeBody hw (accept .encode s)) := by
  simp [exec, execEncode, encodeOp, h, hr]

/-- Where `ENCODE` answers a next state, which one, and on which operands. -/
theorem exec_encode_next {s t : State} (he : exec .encode s = .next t) :
    s.seq.op = .idle ∧ encodeReady hw (encodeArgs s) = true ∧ t = encodeBody hw (accept .encode s) := by
  simp only [exec, execEncode, encodeOp] at he
  split at he
  · split at he
    · cases he
      exact ⟨by assumption, by assumption, rfl⟩
    · cases he
  · cases he

@[simp] theorem encodeArgs_accept (op : SeqOp) (s : State) : encodeArgs (accept op s) = encodeArgs s := rfl

theorem encodeBody_bmp (c : Cfg) (s : State) :
    (encodeBody c s).bmp = Memory.writeRange s.bmp 0 (encodedBytes c (encodeArgs s)) := rfl

theorem encodeBody_delivered (c : Cfg) (s : State) : Delivered .ok (encodeBody c s) := ⟨rfl, rfl, rfl, rfl⟩

/-- A range written is read back whole. -/
theorem Memory.readRange_writeRange {m : Memory} (hm : Memory.wf m) (b : List Byte) {n : Nat} (hb : b.length = n) :
    Memory.readRange (Memory.writeRange m 0 b) 0 n = b := by
  subst hb
  refine List.ext_getElem (by simp) fun i h1 h2 => ?_
  simp only [Memory.readRange, List.getElem_map, List.getElem_range]
  exact Memory.read_writeRange_inside hm 0 b i h2

end Sys2Proof.Machine
end

