-- ==== Sys2Proof/Laws/Decode.lean ====
section
/-!
SUPPORT. The operand fields of format P: a field that was put is taken back, and a field that is taken is the one that
was put (log entry 12).
-/

namespace Sys2Proof

theorem takeNumber_putNumber (k v : Nat) (rest : List Byte) :
    takeNumber k (putNumber k v ++ rest) = some (v % 256 ^ k, rest) := by
  induction k generalizing v with
  | zero => simp [takeNumber, putNumber, Nat.mod_one]
  | succ k ih =>
    simp only [putNumber, List.cons_append, takeNumber, ih, Option.some.injEq, Prod.mk.injEq, and_true]
    have hm := Nat.mod_mul (a := 256) (b := 256 ^ k) (x := v)
    rw [← Nat.pow_succ'] at hm
    rw [hm, BitVec.toNat_ofNat]

theorem putNumber_takeNumber {k v : Nat} {bs rest : List Byte} (h : takeNumber k bs = some (v, rest)) :
    putNumber k v ++ rest = bs ∧ v < 256 ^ k := by
  induction k generalizing bs v with
  | zero =>
    simp only [takeNumber, Option.some.injEq, Prod.mk.injEq] at h
    obtain ⟨rfl, rfl⟩ := h
    simp [putNumber]
  | succ k ih =>
    cases bs with
    | nil => simp [takeNumber] at h
    | cons b bs =>
      simp only [takeNumber] at h
      split at h
      · rename_i w r hw
        simp only [Option.some.injEq, Prod.mk.injEq] at h
        obtain ⟨rfl, rfl⟩ := h
        obtain ⟨h1, h2⟩ := ih hw
        have hb := b.isLt
        refine ⟨?_, ?_⟩
        · simp only [putNumber, List.cons_append, List.cons.injEq]
          refine ⟨BitVec.eq_of_toNat_eq ?_, ?_⟩
          · rw [BitVec.toNat_ofNat]
            omega
          · rw [show (b.toNat + 256 * w) / 256 = w by omega, h1]
        · rw [Nat.pow_succ]
          omega
      · cases h

theorem takeList_put {k bias : Nat} {bs : List Byte} (hb : bias ≤ bs.length) (hl : bs.length - bias < 256 ^ k)
    (rest : List Byte) : takeList k bias (putNumber k (bs.length - bias) ++ (bs ++ rest)) = some (bs, rest) := by
  simp only [takeList, takeNumber_putNumber, Nat.mod_eq_of_lt hl, takeBytes, Nat.sub_add_cancel hb]
  simp

theorem put_takeList {k bias : Nat} {bs l rest : List Byte} (h : takeList k bias bs = some (l, rest)) :
    putNumber k (l.length - bias) ++ (l ++ rest) = bs := by
  simp only [takeList] at h
  split at h
  · rename_i n r hn
    simp only [takeBytes] at h
    split at h
    · simp only [Option.some.injEq, Prod.mk.injEq] at h
      obtain ⟨rfl, rfl⟩ := h
      obtain ⟨h1, -⟩ := putNumber_takeNumber hn
      rw [List.length_take, Nat.min_eq_left (by assumption), Nat.add_sub_cancel, List.take_append_drop, h1]
    · cases h
  · cases h

theorem decodeLevelOperand_put (mk : Bool → Instr) (l : Bool) (rest : List Byte) :
    decodeLevelOperand mk (putLevel l :: rest) = .ok (mk l, rest) := by
  cases l <;> rfl

theorem put_decodeLevelOperand {mk : Bool → Instr} {bs rest : List Byte} {i : Instr}
    (h : decodeLevelOperand mk bs = .ok (i, rest)) : ∃ l, i = mk l ∧ putLevel l :: rest = bs := by
  cases bs with
  | nil => cases h
  | cons b bs =>
    simp only [decodeLevelOperand] at h
    split at h
    · cases h
      exact ⟨false, rfl, by simp [putLevel, *]⟩
    · split at h
      · cases h
        exact ⟨true, rfl, by simp [putLevel, *]⟩
      · cases h

theorem decodeDuration_put (mk : Nat → Instr) {d : Nat} (hd : d < 2 ^ 64) (rest : List Byte) :
    decodeDuration mk (putNumber 8 d ++ rest) = .ok (mk d, rest) := by
  simp only [decodeDuration, takeNumber_putNumber]
  rw [Nat.mod_eq_of_lt (by simpa using hd)]

theorem put_decodeDuration {mk : Nat → Instr} {bs rest : List Byte} {i : Instr}
    (h : decodeDuration mk bs = .ok (i, rest)) : ∃ d, i = mk d ∧ putNumber 8 d ++ rest = bs := by
  simp only [decodeDuration] at h
  split at h
  · rename_i hn
    cases h
    exact ⟨_, rfl, (putNumber_takeNumber hn).1⟩
  · cases h

end Sys2Proof
end

