-- ==== Sys2Proof/Laws/State.lean ====
section
/-!
SUPPORT. One lemma per field per named update of State, so that no proof unfolds a record update.
-/

namespace Sys2Proof.Machine

/-! ### The parameters of this hardware (R4) -/

@[simp] theorem hw_cSwreset : hw.cSwreset = 0x12 := rfl
@[simp] theorem hw_cDoc : hw.cDoc = 0x01 := rfl
@[simp] theorem hw_cDem : hw.cDem = 0x11 := rfl
@[simp] theorem hw_cXwin : hw.cXwin = 0x44 := rfl
@[simp] theorem hw_cYwin : hw.cYwin = 0x45 := rfl
@[simp] theorem hw_cXcnt : hw.cXcnt = 0x4E := rfl
@[simp] theorem hw_cYcnt : hw.cYcnt = 0x4F := rfl
@[simp] theorem hw_cOld : hw.cOld = 0x10 := rfl
@[simp] theorem hw_cNew : hw.cNew = 0x13 := rfl
@[simp] theorem hw_cRefresh : hw.cRefresh = 0x12 := rfl
@[simp] theorem hw_cDsleep : hw.cDsleep = 0x10 := rfl
@[simp] theorem hw_pDsleep : hw.pDsleep = [0x01] := rfl

/-! ### `emit` -/

@[simp] theorem emit_st (e : Event) (s : State) : (emit e s).st = s.st := rfl
@[simp] theorem emit_seq (e : Event) (s : State) : (emit e s).seq = s.seq := rfl
@[simp] theorem emit_pwr (e : Event) (s : State) : (emit e s).pwr = s.pwr := rfl
@[simp] theorem emit_rst (e : Event) (s : State) : (emit e s).rst = s.rst := rfl
@[simp] theorem emit_dc (e : Event) (s : State) : (emit e s).dc = s.dc := rfl
@[simp] theorem emit_cs (e : Event) (s : State) : (emit e s).cs = s.cs := rfl
@[simp] theorem emit_sclk (e : Event) (s : State) : (emit e s).sclk = s.sclk := rfl
@[simp] theorem emit_mosi (e : Event) (s : State) : (emit e s).mosi = s.mosi := rfl
@[simp] theorem emit_status (e : Event) (s : State) : (emit e s).status = s.status := rfl
@[simp] theorem emit_offset (e : Event) (s : State) : (emit e s).offset = s.offset := rfl
@[simp] theorem emit_resValid (e : Event) (s : State) : (emit e s).resValid = s.resValid := rfl
@[simp] theorem emit_bmpLen (e : Event) (s : State) : (emit e s).bmpLen = s.bmpLen := rfl
@[simp] theorem emit_thresh (e : Event) (s : State) : (emit e s).thresh = s.thresh := rfl
@[simp] theorem emit_invert (e : Event) (s : State) : (emit e s).invert = s.invert := rfl
@[simp] theorem emit_imgW (e : Event) (s : State) : (emit e s).imgW = s.imgW := rfl
@[simp] theorem emit_imgH (e : Event) (s : State) : (emit e s).imgH = s.imgH := rfl
@[simp] theorem emit_imgDepth (e : Event) (s : State) : (emit e s).imgDepth = s.imgDepth := rfl
@[simp] theorem emit_bmp (e : Event) (s : State) : (emit e s).bmp = s.bmp := rfl
@[simp] theorem emit_img (e : Event) (s : State) : (emit e s).img = s.img := rfl
@[simp] theorem emit_latch (e : Event) (s : State) : (emit e s).latch = s.latch := rfl
@[simp] theorem emit_elapsed (e : Event) (s : State) : (emit e s).elapsed = s.elapsed := rfl
@[simp] theorem emit_tr (e : Event) (s : State) : (emit e s).tr = s.tr ++ [e] := rfl
@[simp] theorem emit_ret (e : Event) (s : State) : (emit e s).ret = s.ret := rfl
@[simp] theorem emit_pending (e : Event) (s : State) : (emit e s).pending = s.pending := rfl
@[simp] theorem emit_bench (e : Event) (s : State) : (emit e s).bench = s.bench := rfl
@[simp] theorem emit_busyIn (e : Event) (s : State) : (emit e s).busyIn = s.busyIn := rfl
@[simp] theorem emit_failIn (e : Event) (s : State) : (emit e s).failIn = s.failIn := rfl
@[simp] theorem emit_draws (e : Event) (s : State) : (emit e s).draws = s.draws := rfl

/-! ### `answer` -/

@[simp] theorem answer_st (r : Ret) (s : State) : (answer r s).st = s.st := rfl
@[simp] theorem answer_seq (r : Ret) (s : State) : (answer r s).seq = s.seq := rfl
@[simp] theorem answer_pwr (r : Ret) (s : State) : (answer r s).pwr = s.pwr := rfl
@[simp] theorem answer_rst (r : Ret) (s : State) : (answer r s).rst = s.rst := rfl
@[simp] theorem answer_dc (r : Ret) (s : State) : (answer r s).dc = s.dc := rfl
@[simp] theorem answer_cs (r : Ret) (s : State) : (answer r s).cs = s.cs := rfl
@[simp] theorem answer_sclk (r : Ret) (s : State) : (answer r s).sclk = s.sclk := rfl
@[simp] theorem answer_mosi (r : Ret) (s : State) : (answer r s).mosi = s.mosi := rfl
@[simp] theorem answer_status (r : Ret) (s : State) : (answer r s).status = s.status := rfl
@[simp] theorem answer_offset (r : Ret) (s : State) : (answer r s).offset = s.offset := rfl
@[simp] theorem answer_resValid (r : Ret) (s : State) : (answer r s).resValid = s.resValid := rfl
@[simp] theorem answer_bmpLen (r : Ret) (s : State) : (answer r s).bmpLen = s.bmpLen := rfl
@[simp] theorem answer_thresh (r : Ret) (s : State) : (answer r s).thresh = s.thresh := rfl
@[simp] theorem answer_invert (r : Ret) (s : State) : (answer r s).invert = s.invert := rfl
@[simp] theorem answer_imgW (r : Ret) (s : State) : (answer r s).imgW = s.imgW := rfl
@[simp] theorem answer_imgH (r : Ret) (s : State) : (answer r s).imgH = s.imgH := rfl
@[simp] theorem answer_imgDepth (r : Ret) (s : State) : (answer r s).imgDepth = s.imgDepth := rfl
@[simp] theorem answer_bmp (r : Ret) (s : State) : (answer r s).bmp = s.bmp := rfl
@[simp] theorem answer_img (r : Ret) (s : State) : (answer r s).img = s.img := rfl
@[simp] theorem answer_latch (r : Ret) (s : State) : (answer r s).latch = s.latch := rfl
@[simp] theorem answer_elapsed (r : Ret) (s : State) : (answer r s).elapsed = s.elapsed := rfl
@[simp] theorem answer_tr (r : Ret) (s : State) : (answer r s).tr = s.tr := rfl
@[simp] theorem answer_ret (r : Ret) (s : State) : (answer r s).ret = r := rfl
@[simp] theorem answer_pending (r : Ret) (s : State) : (answer r s).pending = s.pending := rfl
@[simp] theorem answer_bench (r : Ret) (s : State) : (answer r s).bench = s.bench := rfl
@[simp] theorem answer_busyIn (r : Ret) (s : State) : (answer r s).busyIn = s.busyIn := rfl
@[simp] theorem answer_failIn (r : Ret) (s : State) : (answer r s).failIn = s.failIn := rfl
@[simp] theorem answer_draws (r : Ret) (s : State) : (answer r s).draws = s.draws := rfl

/-! ### `afterBusy` -/

@[simp] theorem afterBusy_st (s : State) : (afterBusy s).st = s.st := rfl
@[simp] theorem afterBusy_seq (s : State) : (afterBusy s).seq = s.seq := rfl
@[simp] theorem afterBusy_pwr (s : State) : (afterBusy s).pwr = s.pwr := rfl
@[simp] theorem afterBusy_rst (s : State) : (afterBusy s).rst = s.rst := rfl
@[simp] theorem afterBusy_dc (s : State) : (afterBusy s).dc = s.dc := rfl
@[simp] theorem afterBusy_cs (s : State) : (afterBusy s).cs = s.cs := rfl
@[simp] theorem afterBusy_sclk (s : State) : (afterBusy s).sclk = s.sclk := rfl
@[simp] theorem afterBusy_mosi (s : State) : (afterBusy s).mosi = s.mosi := rfl
@[simp] theorem afterBusy_status (s : State) : (afterBusy s).status = s.status := rfl
@[simp] theorem afterBusy_offset (s : State) : (afterBusy s).offset = s.offset := rfl
@[simp] theorem afterBusy_resValid (s : State) : (afterBusy s).resValid = s.resValid := rfl
@[simp] theorem afterBusy_bmpLen (s : State) : (afterBusy s).bmpLen = s.bmpLen := rfl
@[simp] theorem afterBusy_thresh (s : State) : (afterBusy s).thresh = s.thresh := rfl
@[simp] theorem afterBusy_invert (s : State) : (afterBusy s).invert = s.invert := rfl
@[simp] theorem afterBusy_imgW (s : State) : (afterBusy s).imgW = s.imgW := rfl
@[simp] theorem afterBusy_imgH (s : State) : (afterBusy s).imgH = s.imgH := rfl
@[simp] theorem afterBusy_imgDepth (s : State) : (afterBusy s).imgDepth = s.imgDepth := rfl
@[simp] theorem afterBusy_bmp (s : State) : (afterBusy s).bmp = s.bmp := rfl
@[simp] theorem afterBusy_img (s : State) : (afterBusy s).img = s.img := rfl
@[simp] theorem afterBusy_latch (s : State) : (afterBusy s).latch = s.latch := rfl
@[simp] theorem afterBusy_elapsed (s : State) : (afterBusy s).elapsed = s.elapsed := rfl
@[simp] theorem afterBusy_tr (s : State) : (afterBusy s).tr = s.tr := rfl
@[simp] theorem afterBusy_ret (s : State) : (afterBusy s).ret = s.ret := rfl
@[simp] theorem afterBusy_pending (s : State) : (afterBusy s).pending = s.pending := rfl
@[simp] theorem afterBusy_bench (s : State) : (afterBusy s).bench = s.bench := rfl
@[simp] theorem afterBusy_busyIn (s : State) : (afterBusy s).busyIn = s.busyIn.tail := rfl
@[simp] theorem afterBusy_failIn (s : State) : (afterBusy s).failIn = s.failIn := rfl
@[simp] theorem afterBusy_draws (s : State) : (afterBusy s).draws = if s.busyIn = [] then s.draws + 1 else s.draws := rfl

/-! ### `afterFail` -/

@[simp] theorem afterFail_st (s : State) : (afterFail s).st = s.st := rfl
@[simp] theorem afterFail_seq (s : State) : (afterFail s).seq = s.seq := rfl
@[simp] theorem afterFail_pwr (s : State) : (afterFail s).pwr = s.pwr := rfl
@[simp] theorem afterFail_rst (s : State) : (afterFail s).rst = s.rst := rfl
@[simp] theorem afterFail_dc (s : State) : (afterFail s).dc = s.dc := rfl
@[simp] theorem afterFail_cs (s : State) : (afterFail s).cs = s.cs := rfl
@[simp] theorem afterFail_sclk (s : State) : (afterFail s).sclk = s.sclk := rfl
@[simp] theorem afterFail_mosi (s : State) : (afterFail s).mosi = s.mosi := rfl
@[simp] theorem afterFail_status (s : State) : (afterFail s).status = s.status := rfl
@[simp] theorem afterFail_offset (s : State) : (afterFail s).offset = s.offset := rfl
@[simp] theorem afterFail_resValid (s : State) : (afterFail s).resValid = s.resValid := rfl
@[simp] theorem afterFail_bmpLen (s : State) : (afterFail s).bmpLen = s.bmpLen := rfl
@[simp] theorem afterFail_thresh (s : State) : (afterFail s).thresh = s.thresh := rfl
@[simp] theorem afterFail_invert (s : State) : (afterFail s).invert = s.invert := rfl
@[simp] theorem afterFail_imgW (s : State) : (afterFail s).imgW = s.imgW := rfl
@[simp] theorem afterFail_imgH (s : State) : (afterFail s).imgH = s.imgH := rfl
@[simp] theorem afterFail_imgDepth (s : State) : (afterFail s).imgDepth = s.imgDepth := rfl
@[simp] theorem afterFail_bmp (s : State) : (afterFail s).bmp = s.bmp := rfl
@[simp] theorem afterFail_img (s : State) : (afterFail s).img = s.img := rfl
@[simp] theorem afterFail_latch (s : State) : (afterFail s).latch = s.latch := rfl
@[simp] theorem afterFail_elapsed (s : State) : (afterFail s).elapsed = s.elapsed := rfl
@[simp] theorem afterFail_tr (s : State) : (afterFail s).tr = s.tr := rfl
@[simp] theorem afterFail_ret (s : State) : (afterFail s).ret = s.ret := rfl
@[simp] theorem afterFail_pending (s : State) : (afterFail s).pending = s.pending := rfl
@[simp] theorem afterFail_bench (s : State) : (afterFail s).bench = s.bench := rfl
@[simp] theorem afterFail_busyIn (s : State) : (afterFail s).busyIn = s.busyIn := rfl
@[simp] theorem afterFail_failIn (s : State) : (afterFail s).failIn = s.failIn.tail := rfl
@[simp] theorem afterFail_draws (s : State) : (afterFail s).draws = if s.failIn = [] then s.draws + 1 else s.draws := rfl

/-! ### `afterShifted` -/

@[simp] theorem afterShifted_st (s : State) : (afterShifted s).st = s.st := rfl
@[simp] theorem afterShifted_seq (s : State) : (afterShifted s).seq = s.seq := rfl
@[simp] theorem afterShifted_pwr (s : State) : (afterShifted s).pwr = s.pwr := rfl
@[simp] theorem afterShifted_rst (s : State) : (afterShifted s).rst = s.rst := rfl
@[simp] theorem afterShifted_dc (s : State) : (afterShifted s).dc = s.dc := rfl
@[simp] theorem afterShifted_cs (s : State) : (afterShifted s).cs = s.cs := rfl
@[simp] theorem afterShifted_sclk (s : State) : (afterShifted s).sclk = s.sclk := rfl
@[simp] theorem afterShifted_mosi (s : State) : (afterShifted s).mosi = s.mosi := rfl
@[simp] theorem afterShifted_status (s : State) : (afterShifted s).status = s.status := rfl
@[simp] theorem afterShifted_offset (s : State) : (afterShifted s).offset = s.offset := rfl
@[simp] theorem afterShifted_resValid (s : State) : (afterShifted s).resValid = s.resValid := rfl
@[simp] theorem afterShifted_bmpLen (s : State) : (afterShifted s).bmpLen = s.bmpLen := rfl
@[simp] theorem afterShifted_thresh (s : State) : (afterShifted s).thresh = s.thresh := rfl
@[simp] theorem afterShifted_invert (s : State) : (afterShifted s).invert = s.invert := rfl
@[simp] theorem afterShifted_imgW (s : State) : (afterShifted s).imgW = s.imgW := rfl
@[simp] theorem afterShifted_imgH (s : State) : (afterShifted s).imgH = s.imgH := rfl
@[simp] theorem afterShifted_imgDepth (s : State) : (afterShifted s).imgDepth = s.imgDepth := rfl
@[simp] theorem afterShifted_bmp (s : State) : (afterShifted s).bmp = s.bmp := rfl
@[simp] theorem afterShifted_img (s : State) : (afterShifted s).img = s.img := rfl
@[simp] theorem afterShifted_latch (s : State) : (afterShifted s).latch = s.latch := rfl
@[simp] theorem afterShifted_elapsed (s : State) : (afterShifted s).elapsed = s.elapsed := rfl
@[simp] theorem afterShifted_tr (s : State) : (afterShifted s).tr = s.tr := rfl
@[simp] theorem afterShifted_ret (s : State) : (afterShifted s).ret = s.ret := rfl
@[simp] theorem afterShifted_pending (s : State) : (afterShifted s).pending = s.pending := rfl
@[simp] theorem afterShifted_bench (s : State) : (afterShifted s).bench = s.bench := rfl
@[simp] theorem afterShifted_busyIn (s : State) : (afterShifted s).busyIn = s.busyIn := rfl
@[simp] theorem afterShifted_failIn (s : State) : (afterShifted s).failIn = s.failIn := rfl
@[simp] theorem afterShifted_draws (s : State) : (afterShifted s).draws = s.draws + 1 := rfl

/-! ### `shiftBytes` -/

@[simp] theorem shiftBytes_st (bs : List Byte) (s : State) : (shiftBytes bs s).st = s.st := rfl
@[simp] theorem shiftBytes_seq (bs : List Byte) (s : State) : (shiftBytes bs s).seq = s.seq := rfl
@[simp] theorem shiftBytes_pwr (bs : List Byte) (s : State) : (shiftBytes bs s).pwr = s.pwr := rfl
@[simp] theorem shiftBytes_rst (bs : List Byte) (s : State) : (shiftBytes bs s).rst = s.rst := rfl
@[simp] theorem shiftBytes_dc (bs : List Byte) (s : State) : (shiftBytes bs s).dc = s.dc := rfl
@[simp] theorem shiftBytes_cs (bs : List Byte) (s : State) : (shiftBytes bs s).cs = s.cs := rfl
@[simp] theorem shiftBytes_sclk (bs : List Byte) (s : State) : (shiftBytes bs s).sclk = (shiftPins bs (s.mosi, s.sclk)).2 := rfl
@[simp] theorem shiftBytes_mosi (bs : List Byte) (s : State) : (shiftBytes bs s).mosi = (shiftPins bs (s.mosi, s.sclk)).1 := rfl
@[simp] theorem shiftBytes_status (bs : List Byte) (s : State) : (shiftBytes bs s).status = s.status := rfl
@[simp] theorem shiftBytes_offset (bs : List Byte) (s : State) : (shiftBytes bs s).offset = s.offset := rfl
@[simp] theorem shiftBytes_resValid (bs : List Byte) (s : State) : (shiftBytes bs s).resValid = s.resValid := rfl
@[simp] theorem shiftBytes_bmpLen (bs : List Byte) (s : State) : (shiftBytes bs s).bmpLen = s.bmpLen := rfl
@[simp] theorem shiftBytes_thresh (bs : List Byte) (s : State) : (shiftBytes bs s).thresh = s.thresh := rfl
@[simp] theorem shiftBytes_invert (bs : List Byte) (s : State) : (shiftBytes bs s).invert = s.invert := rfl
@[simp] theorem shiftBytes_imgW (bs : List Byte) (s : State) : (shiftBytes bs s).imgW = s.imgW := rfl
@[simp] theorem shiftBytes_imgH (bs : List Byte) (s : State) : (shiftBytes bs s).imgH = s.imgH := rfl
@[simp] theorem shiftBytes_imgDepth (bs : List Byte) (s : State) : (shiftBytes bs s).imgDepth = s.imgDepth := rfl
@[simp] theorem shiftBytes_bmp (bs : List Byte) (s : State) : (shiftBytes bs s).bmp = s.bmp := rfl
@[simp] theorem shiftBytes_img (bs : List Byte) (s : State) : (shiftBytes bs s).img = s.img := rfl
@[simp] theorem shiftBytes_latch (bs : List Byte) (s : State) : (shiftBytes bs s).latch = s.latch := rfl
@[simp] theorem shiftBytes_elapsed (bs : List Byte) (s : State) : (shiftBytes bs s).elapsed = s.elapsed := rfl
@[simp] theorem shiftBytes_tr (bs : List Byte) (s : State) : (shiftBytes bs s).tr = s.tr := rfl
@[simp] theorem shiftBytes_ret (bs : List Byte) (s : State) : (shiftBytes bs s).ret = s.ret := rfl
@[simp] theorem shiftBytes_pending (bs : List Byte) (s : State) : (shiftBytes bs s).pending = s.pending := rfl
@[simp] theorem shiftBytes_bench (bs : List Byte) (s : State) : (shiftBytes bs s).bench = s.bench := rfl
@[simp] theorem shiftBytes_busyIn (bs : List Byte) (s : State) : (shiftBytes bs s).busyIn = s.busyIn := rfl
@[simp] theorem shiftBytes_failIn (bs : List Byte) (s : State) : (shiftBytes bs s).failIn = s.failIn := rfl
@[simp] theorem shiftBytes_draws (bs : List Byte) (s : State) : (shiftBytes bs s).draws = s.draws := rfl

/-! ### `setOff` -/

@[simp] theorem setOff_st (n : Nat) (s : State) : (setOff n s).st = s.st := rfl
@[simp] theorem setOff_seq (n : Nat) (s : State) : (setOff n s).seq = ⟨s.seq.op, s.seq.step, n⟩ := rfl
@[simp] theorem setOff_pwr (n : Nat) (s : State) : (setOff n s).pwr = s.pwr := rfl
@[simp] theorem setOff_rst (n : Nat) (s : State) : (setOff n s).rst = s.rst := rfl
@[simp] theorem setOff_dc (n : Nat) (s : State) : (setOff n s).dc = s.dc := rfl
@[simp] theorem setOff_cs (n : Nat) (s : State) : (setOff n s).cs = s.cs := rfl
@[simp] theorem setOff_sclk (n : Nat) (s : State) : (setOff n s).sclk = s.sclk := rfl
@[simp] theorem setOff_mosi (n : Nat) (s : State) : (setOff n s).mosi = s.mosi := rfl
@[simp] theorem setOff_status (n : Nat) (s : State) : (setOff n s).status = s.status := rfl
@[simp] theorem setOff_offset (n : Nat) (s : State) : (setOff n s).offset = s.offset := rfl
@[simp] theorem setOff_resValid (n : Nat) (s : State) : (setOff n s).resValid = s.resValid := rfl
@[simp] theorem setOff_bmpLen (n : Nat) (s : State) : (setOff n s).bmpLen = s.bmpLen := rfl
@[simp] theorem setOff_thresh (n : Nat) (s : State) : (setOff n s).thresh = s.thresh := rfl
@[simp] theorem setOff_invert (n : Nat) (s : State) : (setOff n s).invert = s.invert := rfl
@[simp] theorem setOff_imgW (n : Nat) (s : State) : (setOff n s).imgW = s.imgW := rfl
@[simp] theorem setOff_imgH (n : Nat) (s : State) : (setOff n s).imgH = s.imgH := rfl
@[simp] theorem setOff_imgDepth (n : Nat) (s : State) : (setOff n s).imgDepth = s.imgDepth := rfl
@[simp] theorem setOff_bmp (n : Nat) (s : State) : (setOff n s).bmp = s.bmp := rfl
@[simp] theorem setOff_img (n : Nat) (s : State) : (setOff n s).img = s.img := rfl
@[simp] theorem setOff_latch (n : Nat) (s : State) : (setOff n s).latch = s.latch := rfl
@[simp] theorem setOff_elapsed (n : Nat) (s : State) : (setOff n s).elapsed = s.elapsed := rfl
@[simp] theorem setOff_tr (n : Nat) (s : State) : (setOff n s).tr = s.tr := rfl
@[simp] theorem setOff_ret (n : Nat) (s : State) : (setOff n s).ret = s.ret := rfl
@[simp] theorem setOff_pending (n : Nat) (s : State) : (setOff n s).pending = s.pending := rfl
@[simp] theorem setOff_bench (n : Nat) (s : State) : (setOff n s).bench = s.bench := rfl
@[simp] theorem setOff_busyIn (n : Nat) (s : State) : (setOff n s).busyIn = s.busyIn := rfl
@[simp] theorem setOff_failIn (n : Nat) (s : State) : (setOff n s).failIn = s.failIn := rfl
@[simp] theorem setOff_draws (n : Nat) (s : State) : (setOff n s).draws = s.draws := rfl

/-! ### `accept` -/

@[simp] theorem accept_st (op : SeqOp) (s : State) : (accept op s).st = s.st := rfl
@[simp] theorem accept_seq (op : SeqOp) (s : State) : (accept op s).seq = ⟨op, 0, 0⟩ := rfl
@[simp] theorem accept_pwr (op : SeqOp) (s : State) : (accept op s).pwr = s.pwr := rfl
@[simp] theorem accept_rst (op : SeqOp) (s : State) : (accept op s).rst = s.rst := rfl
@[simp] theorem accept_dc (op : SeqOp) (s : State) : (accept op s).dc = s.dc := rfl
@[simp] theorem accept_cs (op : SeqOp) (s : State) : (accept op s).cs = s.cs := rfl
@[simp] theorem accept_sclk (op : SeqOp) (s : State) : (accept op s).sclk = s.sclk := rfl
@[simp] theorem accept_mosi (op : SeqOp) (s : State) : (accept op s).mosi = s.mosi := rfl
@[simp] theorem accept_status (op : SeqOp) (s : State) : (accept op s).status = s.status := rfl
@[simp] theorem accept_offset (op : SeqOp) (s : State) : (accept op s).offset = s.offset := rfl
@[simp] theorem accept_resValid (op : SeqOp) (s : State) : (accept op s).resValid = false := rfl
@[simp] theorem accept_bmpLen (op : SeqOp) (s : State) : (accept op s).bmpLen = s.bmpLen := rfl
@[simp] theorem accept_thresh (op : SeqOp) (s : State) : (accept op s).thresh = s.thresh := rfl
@[simp] theorem accept_invert (op : SeqOp) (s : State) : (accept op s).invert = s.invert := rfl
@[simp] theorem accept_imgW (op : SeqOp) (s : State) : (accept op s).imgW = s.imgW := rfl
@[simp] theorem accept_imgH (op : SeqOp) (s : State) : (accept op s).imgH = s.imgH := rfl
@[simp] theorem accept_imgDepth (op : SeqOp) (s : State) : (accept op s).imgDepth = s.imgDepth := rfl
@[simp] theorem accept_bmp (op : SeqOp) (s : State) : (accept op s).bmp = s.bmp := rfl
@[simp] theorem accept_img (op : SeqOp) (s : State) : (accept op s).img = s.img := rfl
@[simp] theorem accept_latch (op : SeqOp) (s : State) : (accept op s).latch = s.latch := rfl
@[simp] theorem accept_elapsed (op : SeqOp) (s : State) : (accept op s).elapsed = s.elapsed := rfl
@[simp] theorem accept_tr (op : SeqOp) (s : State) : (accept op s).tr = s.tr := rfl
@[simp] theorem accept_ret (op : SeqOp) (s : State) : (accept op s).ret = s.ret := rfl
@[simp] theorem accept_pending (op : SeqOp) (s : State) : (accept op s).pending = s.pending := rfl
@[simp] theorem accept_bench (op : SeqOp) (s : State) : (accept op s).bench = s.bench := rfl
@[simp] theorem accept_busyIn (op : SeqOp) (s : State) : (accept op s).busyIn = s.busyIn := rfl
@[simp] theorem accept_failIn (op : SeqOp) (s : State) : (accept op s).failIn = s.failIn := rfl
@[simp] theorem accept_draws (op : SeqOp) (s : State) : (accept op s).draws = s.draws := rfl

/-! ### `deliver` -/

@[simp] theorem deliver_st (r : OpResult) (s : State) : (deliver r s).st = s.st := rfl
@[simp] theorem deliver_seq (r : OpResult) (s : State) : (deliver r s).seq = ⟨.idle, 0, 0⟩ := rfl
@[simp] theorem deliver_pwr (r : OpResult) (s : State) : (deliver r s).pwr = s.pwr := rfl
@[simp] theorem deliver_rst (r : OpResult) (s : State) : (deliver r s).rst = s.rst := rfl
@[simp] theorem deliver_dc (r : OpResult) (s : State) : (deliver r s).dc = s.dc := rfl
@[simp] theorem deliver_cs (r : OpResult) (s : State) : (deliver r s).cs = s.cs := rfl
@[simp] theorem deliver_sclk (r : OpResult) (s : State) : (deliver r s).sclk = s.sclk := rfl
@[simp] theorem deliver_mosi (r : OpResult) (s : State) : (deliver r s).mosi = s.mosi := rfl
@[simp] theorem deliver_status (r : OpResult) (s : State) : (deliver r s).status = r.status := rfl
@[simp] theorem deliver_offset (r : OpResult) (s : State) : (deliver r s).offset = r.offset := rfl
@[simp] theorem deliver_resValid (r : OpResult) (s : State) : (deliver r s).resValid = true := rfl
@[simp] theorem deliver_bmpLen (r : OpResult) (s : State) : (deliver r s).bmpLen = s.bmpLen := rfl
@[simp] theorem deliver_thresh (r : OpResult) (s : State) : (deliver r s).thresh = s.thresh := rfl
@[simp] theorem deliver_invert (r : OpResult) (s : State) : (deliver r s).invert = s.invert := rfl
@[simp] theorem deliver_imgW (r : OpResult) (s : State) : (deliver r s).imgW = s.imgW := rfl
@[simp] theorem deliver_imgH (r : OpResult) (s : State) : (deliver r s).imgH = s.imgH := rfl
@[simp] theorem deliver_imgDepth (r : OpResult) (s : State) : (deliver r s).imgDepth = s.imgDepth := rfl
@[simp] theorem deliver_bmp (r : OpResult) (s : State) : (deliver r s).bmp = s.bmp := rfl
@[simp] theorem deliver_img (r : OpResult) (s : State) : (deliver r s).img = s.img := rfl
@[simp] theorem deliver_latch (r : OpResult) (s : State) : (deliver r s).latch = s.latch := rfl
@[simp] theorem deliver_elapsed (r : OpResult) (s : State) : (deliver r s).elapsed = s.elapsed := rfl
@[simp] theorem deliver_tr (r : OpResult) (s : State) : (deliver r s).tr = s.tr := rfl
@[simp] theorem deliver_ret (r : OpResult) (s : State) : (deliver r s).ret = s.ret := rfl
@[simp] theorem deliver_pending (r : OpResult) (s : State) : (deliver r s).pending = s.pending := rfl
@[simp] theorem deliver_bench (r : OpResult) (s : State) : (deliver r s).bench = s.bench := rfl
@[simp] theorem deliver_busyIn (r : OpResult) (s : State) : (deliver r s).busyIn = s.busyIn := rfl
@[simp] theorem deliver_failIn (r : OpResult) (s : State) : (deliver r s).failIn = s.failIn := rfl
@[simp] theorem deliver_draws (r : OpResult) (s : State) : (deliver r s).draws = s.draws := rfl

/-! ### `advance` -/

@[simp] theorem advance_st (s : State) : (advance s).st = s.st := rfl
@[simp] theorem advance_seq (s : State) : (advance s).seq = ⟨s.seq.op, s.seq.step + 1, 0⟩ := rfl
@[simp] theorem advance_pwr (s : State) : (advance s).pwr = s.pwr := rfl
@[simp] theorem advance_rst (s : State) : (advance s).rst = s.rst := rfl
@[simp] theorem advance_dc (s : State) : (advance s).dc = s.dc := rfl
@[simp] theorem advance_cs (s : State) : (advance s).cs = s.cs := rfl
@[simp] theorem advance_sclk (s : State) : (advance s).sclk = s.sclk := rfl
@[simp] theorem advance_mosi (s : State) : (advance s).mosi = s.mosi := rfl
@[simp] theorem advance_status (s : State) : (advance s).status = s.status := rfl
@[simp] theorem advance_offset (s : State) : (advance s).offset = s.offset := rfl
@[simp] theorem advance_resValid (s : State) : (advance s).resValid = s.resValid := rfl
@[simp] theorem advance_bmpLen (s : State) : (advance s).bmpLen = s.bmpLen := rfl
@[simp] theorem advance_thresh (s : State) : (advance s).thresh = s.thresh := rfl
@[simp] theorem advance_invert (s : State) : (advance s).invert = s.invert := rfl
@[simp] theorem advance_imgW (s : State) : (advance s).imgW = s.imgW := rfl
@[simp] theorem advance_imgH (s : State) : (advance s).imgH = s.imgH := rfl
@[simp] theorem advance_imgDepth (s : State) : (advance s).imgDepth = s.imgDepth := rfl
@[simp] theorem advance_bmp (s : State) : (advance s).bmp = s.bmp := rfl
@[simp] theorem advance_img (s : State) : (advance s).img = s.img := rfl
@[simp] theorem advance_latch (s : State) : (advance s).latch = s.latch := rfl
@[simp] theorem advance_elapsed (s : State) : (advance s).elapsed = s.elapsed := rfl
@[simp] theorem advance_tr (s : State) : (advance s).tr = s.tr := rfl
@[simp] theorem advance_ret (s : State) : (advance s).ret = s.ret := rfl
@[simp] theorem advance_pending (s : State) : (advance s).pending = s.pending := rfl
@[simp] theorem advance_bench (s : State) : (advance s).bench = s.bench := rfl
@[simp] theorem advance_busyIn (s : State) : (advance s).busyIn = s.busyIn := rfl
@[simp] theorem advance_failIn (s : State) : (advance s).failIn = s.failIn := rfl
@[simp] theorem advance_draws (s : State) : (advance s).draws = s.draws := rfl

/-! ### `take` -/

@[simp] theorem take_st (rest : List Request) (s : State) : (take rest s).st = s.st := rfl
@[simp] theorem take_seq (rest : List Request) (s : State) : (take rest s).seq = s.seq := rfl
@[simp] theorem take_pwr (rest : List Request) (s : State) : (take rest s).pwr = s.pwr := rfl
@[simp] theorem take_rst (rest : List Request) (s : State) : (take rest s).rst = s.rst := rfl
@[simp] theorem take_dc (rest : List Request) (s : State) : (take rest s).dc = s.dc := rfl
@[simp] theorem take_cs (rest : List Request) (s : State) : (take rest s).cs = s.cs := rfl
@[simp] theorem take_sclk (rest : List Request) (s : State) : (take rest s).sclk = s.sclk := rfl
@[simp] theorem take_mosi (rest : List Request) (s : State) : (take rest s).mosi = s.mosi := rfl
@[simp] theorem take_status (rest : List Request) (s : State) : (take rest s).status = s.status := rfl
@[simp] theorem take_offset (rest : List Request) (s : State) : (take rest s).offset = s.offset := rfl
@[simp] theorem take_resValid (rest : List Request) (s : State) : (take rest s).resValid = false := rfl
@[simp] theorem take_bmpLen (rest : List Request) (s : State) : (take rest s).bmpLen = s.bmpLen := rfl
@[simp] theorem take_thresh (rest : List Request) (s : State) : (take rest s).thresh = s.thresh := rfl
@[simp] theorem take_invert (rest : List Request) (s : State) : (take rest s).invert = s.invert := rfl
@[simp] theorem take_imgW (rest : List Request) (s : State) : (take rest s).imgW = s.imgW := rfl
@[simp] theorem take_imgH (rest : List Request) (s : State) : (take rest s).imgH = s.imgH := rfl
@[simp] theorem take_imgDepth (rest : List Request) (s : State) : (take rest s).imgDepth = s.imgDepth := rfl
@[simp] theorem take_bmp (rest : List Request) (s : State) : (take rest s).bmp = s.bmp := rfl
@[simp] theorem take_img (rest : List Request) (s : State) : (take rest s).img = s.img := rfl
@[simp] theorem take_latch (rest : List Request) (s : State) : (take rest s).latch = s.latch := rfl
@[simp] theorem take_elapsed (rest : List Request) (s : State) : (take rest s).elapsed = s.elapsed := rfl
@[simp] theorem take_tr (rest : List Request) (s : State) : (take rest s).tr = s.tr := rfl
@[simp] theorem take_ret (rest : List Request) (s : State) : (take rest s).ret = s.ret := rfl
@[simp] theorem take_pending (rest : List Request) (s : State) : (take rest s).pending = rest := rfl
@[simp] theorem take_bench (rest : List Request) (s : State) : (take rest s).bench = s.bench := rfl
@[simp] theorem take_busyIn (rest : List Request) (s : State) : (take rest s).busyIn = s.busyIn := rfl
@[simp] theorem take_failIn (rest : List Request) (s : State) : (take rest s).failIn = s.failIn := rfl
@[simp] theorem take_draws (rest : List Request) (s : State) : (take rest s).draws = s.draws := rfl

/-! ### `takeBench` -/

@[simp] theorem takeBench_st (s : State) : (takeBench s).st = s.st := rfl
@[simp] theorem takeBench_seq (s : State) : (takeBench s).seq = s.seq := rfl
@[simp] theorem takeBench_pwr (s : State) : (takeBench s).pwr = s.pwr := rfl
@[simp] theorem takeBench_rst (s : State) : (takeBench s).rst = s.rst := rfl
@[simp] theorem takeBench_dc (s : State) : (takeBench s).dc = s.dc := rfl
@[simp] theorem takeBench_cs (s : State) : (takeBench s).cs = s.cs := rfl
@[simp] theorem takeBench_sclk (s : State) : (takeBench s).sclk = s.sclk := rfl
@[simp] theorem takeBench_mosi (s : State) : (takeBench s).mosi = s.mosi := rfl
@[simp] theorem takeBench_status (s : State) : (takeBench s).status = s.status := rfl
@[simp] theorem takeBench_offset (s : State) : (takeBench s).offset = s.offset := rfl
@[simp] theorem takeBench_resValid (s : State) : (takeBench s).resValid = false := rfl
@[simp] theorem takeBench_bmpLen (s : State) : (takeBench s).bmpLen = s.bmpLen := rfl
@[simp] theorem takeBench_thresh (s : State) : (takeBench s).thresh = s.thresh := rfl
@[simp] theorem takeBench_invert (s : State) : (takeBench s).invert = s.invert := rfl
@[simp] theorem takeBench_imgW (s : State) : (takeBench s).imgW = s.imgW := rfl
@[simp] theorem takeBench_imgH (s : State) : (takeBench s).imgH = s.imgH := rfl
@[simp] theorem takeBench_imgDepth (s : State) : (takeBench s).imgDepth = s.imgDepth := rfl
@[simp] theorem takeBench_bmp (s : State) : (takeBench s).bmp = s.bmp := rfl
@[simp] theorem takeBench_img (s : State) : (takeBench s).img = s.img := rfl
@[simp] theorem takeBench_latch (s : State) : (takeBench s).latch = s.latch := rfl
@[simp] theorem takeBench_elapsed (s : State) : (takeBench s).elapsed = s.elapsed := rfl
@[simp] theorem takeBench_tr (s : State) : (takeBench s).tr = s.tr := rfl
@[simp] theorem takeBench_ret (s : State) : (takeBench s).ret = s.ret := rfl
@[simp] theorem takeBench_pending (s : State) : (takeBench s).pending = s.pending := rfl
@[simp] theorem takeBench_bench (s : State) : (takeBench s).bench = none := rfl
@[simp] theorem takeBench_busyIn (s : State) : (takeBench s).busyIn = s.busyIn := rfl
@[simp] theorem takeBench_failIn (s : State) : (takeBench s).failIn = s.failIn := rfl
@[simp] theorem takeBench_draws (s : State) : (takeBench s).draws = s.draws := rfl

/-! ### `capture` -/

@[simp] theorem capture_st (c : Cfg) (s : State) : (capture c s).st = s.st := rfl
@[simp] theorem capture_seq (c : Cfg) (s : State) : (capture c s).seq = s.seq := rfl
@[simp] theorem capture_pwr (c : Cfg) (s : State) : (capture c s).pwr = s.pwr := rfl
@[simp] theorem capture_rst (c : Cfg) (s : State) : (capture c s).rst = s.rst := rfl
@[simp] theorem capture_dc (c : Cfg) (s : State) : (capture c s).dc = s.dc := rfl
@[simp] theorem capture_cs (c : Cfg) (s : State) : (capture c s).cs = s.cs := rfl
@[simp] theorem capture_sclk (c : Cfg) (s : State) : (capture c s).sclk = s.sclk := rfl
@[simp] theorem capture_mosi (c : Cfg) (s : State) : (capture c s).mosi = s.mosi := rfl
@[simp] theorem capture_status (c : Cfg) (s : State) : (capture c s).status = s.status := rfl
@[simp] theorem capture_offset (c : Cfg) (s : State) : (capture c s).offset = s.offset := rfl
@[simp] theorem capture_resValid (c : Cfg) (s : State) : (capture c s).resValid = s.resValid := rfl
@[simp] theorem capture_bmpLen (c : Cfg) (s : State) : (capture c s).bmpLen = s.bmpLen := rfl
@[simp] theorem capture_thresh (c : Cfg) (s : State) : (capture c s).thresh = s.thresh := rfl
@[simp] theorem capture_invert (c : Cfg) (s : State) : (capture c s).invert = s.invert := rfl
@[simp] theorem capture_imgW (c : Cfg) (s : State) : (capture c s).imgW = s.imgW := rfl
@[simp] theorem capture_imgH (c : Cfg) (s : State) : (capture c s).imgH = s.imgH := rfl
@[simp] theorem capture_imgDepth (c : Cfg) (s : State) : (capture c s).imgDepth = s.imgDepth := rfl
@[simp] theorem capture_bmp (c : Cfg) (s : State) : (capture c s).bmp = s.bmp := rfl
@[simp] theorem capture_img (c : Cfg) (s : State) : (capture c s).img = s.img := rfl
@[simp] theorem capture_latch (c : Cfg) (s : State) : (capture c s).latch = Memory.restrict s.bmp c.bmpBytes := rfl
@[simp] theorem capture_elapsed (c : Cfg) (s : State) : (capture c s).elapsed = s.elapsed := rfl
@[simp] theorem capture_tr (c : Cfg) (s : State) : (capture c s).tr = s.tr := rfl
@[simp] theorem capture_ret (c : Cfg) (s : State) : (capture c s).ret = s.ret := rfl
@[simp] theorem capture_pending (c : Cfg) (s : State) : (capture c s).pending = s.pending := rfl
@[simp] theorem capture_bench (c : Cfg) (s : State) : (capture c s).bench = s.bench := rfl
@[simp] theorem capture_busyIn (c : Cfg) (s : State) : (capture c s).busyIn = s.busyIn := rfl
@[simp] theorem capture_failIn (c : Cfg) (s : State) : (capture c s).failIn = s.failIn := rfl
@[simp] theorem capture_draws (c : Cfg) (s : State) : (capture c s).draws = s.draws := rfl
/-! ### `setCs` -/

@[simp] theorem setCs_st (l : Bool) (s : State) : (setCs l s).st = s.st := rfl
@[simp] theorem setCs_seq (l : Bool) (s : State) : (setCs l s).seq = s.seq := rfl
@[simp] theorem setCs_pwr (l : Bool) (s : State) : (setCs l s).pwr = s.pwr := rfl
@[simp] theorem setCs_rst (l : Bool) (s : State) : (setCs l s).rst = s.rst := rfl
@[simp] theorem setCs_dc (l : Bool) (s : State) : (setCs l s).dc = s.dc := rfl
@[simp] theorem setCs_cs (l : Bool) (s : State) : (setCs l s).cs = l := rfl
@[simp] theorem setCs_sclk (l : Bool) (s : State) : (setCs l s).sclk = s.sclk := rfl
@[simp] theorem setCs_mosi (l : Bool) (s : State) : (setCs l s).mosi = s.mosi := rfl
@[simp] theorem setCs_status (l : Bool) (s : State) : (setCs l s).status = s.status := rfl
@[simp] theorem setCs_offset (l : Bool) (s : State) : (setCs l s).offset = s.offset := rfl
@[simp] theorem setCs_resValid (l : Bool) (s : State) : (setCs l s).resValid = s.resValid := rfl
@[simp] theorem setCs_bmpLen (l : Bool) (s : State) : (setCs l s).bmpLen = s.bmpLen := rfl
@[simp] theorem setCs_thresh (l : Bool) (s : State) : (setCs l s).thresh = s.thresh := rfl
@[simp] theorem setCs_invert (l : Bool) (s : State) : (setCs l s).invert = s.invert := rfl
@[simp] theorem setCs_imgW (l : Bool) (s : State) : (setCs l s).imgW = s.imgW := rfl
@[simp] theorem setCs_imgH (l : Bool) (s : State) : (setCs l s).imgH = s.imgH := rfl
@[simp] theorem setCs_imgDepth (l : Bool) (s : State) : (setCs l s).imgDepth = s.imgDepth := rfl
@[simp] theorem setCs_bmp (l : Bool) (s : State) : (setCs l s).bmp = s.bmp := rfl
@[simp] theorem setCs_img (l : Bool) (s : State) : (setCs l s).img = s.img := rfl
@[simp] theorem setCs_latch (l : Bool) (s : State) : (setCs l s).latch = s.latch := rfl
@[simp] theorem setCs_elapsed (l : Bool) (s : State) : (setCs l s).elapsed = s.elapsed := rfl
@[simp] theorem setCs_tr (l : Bool) (s : State) : (setCs l s).tr = s.tr := rfl
@[simp] theorem setCs_ret (l : Bool) (s : State) : (setCs l s).ret = s.ret := rfl
@[simp] theorem setCs_pending (l : Bool) (s : State) : (setCs l s).pending = s.pending := rfl
@[simp] theorem setCs_bench (l : Bool) (s : State) : (setCs l s).bench = s.bench := rfl
@[simp] theorem setCs_busyIn (l : Bool) (s : State) : (setCs l s).busyIn = s.busyIn := rfl
@[simp] theorem setCs_failIn (l : Bool) (s : State) : (setCs l s).failIn = s.failIn := rfl
@[simp] theorem setCs_draws (l : Bool) (s : State) : (setCs l s).draws = s.draws := rfl

/-! ### `setElapsed` -/

@[simp] theorem setElapsed_st (d : Nat) (s : State) : (setElapsed d s).st = s.st := rfl
@[simp] theorem setElapsed_seq (d : Nat) (s : State) : (setElapsed d s).seq = s.seq := rfl
@[simp] theorem setElapsed_pwr (d : Nat) (s : State) : (setElapsed d s).pwr = s.pwr := rfl
@[simp] theorem setElapsed_rst (d : Nat) (s : State) : (setElapsed d s).rst = s.rst := rfl
@[simp] theorem setElapsed_dc (d : Nat) (s : State) : (setElapsed d s).dc = s.dc := rfl
@[simp] theorem setElapsed_cs (d : Nat) (s : State) : (setElapsed d s).cs = s.cs := rfl
@[simp] theorem setElapsed_sclk (d : Nat) (s : State) : (setElapsed d s).sclk = s.sclk := rfl
@[simp] theorem setElapsed_mosi (d : Nat) (s : State) : (setElapsed d s).mosi = s.mosi := rfl
@[simp] theorem setElapsed_status (d : Nat) (s : State) : (setElapsed d s).status = s.status := rfl
@[simp] theorem setElapsed_offset (d : Nat) (s : State) : (setElapsed d s).offset = s.offset := rfl
@[simp] theorem setElapsed_resValid (d : Nat) (s : State) : (setElapsed d s).resValid = s.resValid := rfl
@[simp] theorem setElapsed_bmpLen (d : Nat) (s : State) : (setElapsed d s).bmpLen = s.bmpLen := rfl
@[simp] theorem setElapsed_thresh (d : Nat) (s : State) : (setElapsed d s).thresh = s.thresh := rfl
@[simp] theorem setElapsed_invert (d : Nat) (s : State) : (setElapsed d s).invert = s.invert := rfl
@[simp] theorem setElapsed_imgW (d : Nat) (s : State) : (setElapsed d s).imgW = s.imgW := rfl
@[simp] theorem setElapsed_imgH (d : Nat) (s : State) : (setElapsed d s).imgH = s.imgH := rfl
@[simp] theorem setElapsed_imgDepth (d : Nat) (s : State) : (setElapsed d s).imgDepth = s.imgDepth := rfl
@[simp] theorem setElapsed_bmp (d : Nat) (s : State) : (setElapsed d s).bmp = s.bmp := rfl
@[simp] theorem setElapsed_img (d : Nat) (s : State) : (setElapsed d s).img = s.img := rfl
@[simp] theorem setElapsed_latch (d : Nat) (s : State) : (setElapsed d s).latch = s.latch := rfl
@[simp] theorem setElapsed_elapsed (d : Nat) (s : State) : (setElapsed d s).elapsed = d := rfl
@[simp] theorem setElapsed_tr (d : Nat) (s : State) : (setElapsed d s).tr = s.tr := rfl
@[simp] theorem setElapsed_ret (d : Nat) (s : State) : (setElapsed d s).ret = s.ret := rfl
@[simp] theorem setElapsed_pending (d : Nat) (s : State) : (setElapsed d s).pending = s.pending := rfl
@[simp] theorem setElapsed_bench (d : Nat) (s : State) : (setElapsed d s).bench = s.bench := rfl
@[simp] theorem setElapsed_busyIn (d : Nat) (s : State) : (setElapsed d s).busyIn = s.busyIn := rfl
@[simp] theorem setElapsed_failIn (d : Nat) (s : State) : (setElapsed d s).failIn = s.failIn := rfl
@[simp] theorem setElapsed_draws (d : Nat) (s : State) : (setElapsed d s).draws = s.draws := rfl

/-! ### `setDc` -/

@[simp] theorem setDc_st (l : Bool) (s : State) : (setDc l s).st = s.st := rfl
@[simp] theorem setDc_seq (l : Bool) (s : State) : (setDc l s).seq = s.seq := rfl
@[simp] theorem setDc_pwr (l : Bool) (s : State) : (setDc l s).pwr = s.pwr := rfl
@[simp] theorem setDc_rst (l : Bool) (s : State) : (setDc l s).rst = s.rst := rfl
@[simp] theorem setDc_dc (l : Bool) (s : State) : (setDc l s).dc = l := rfl
@[simp] theorem setDc_cs (l : Bool) (s : State) : (setDc l s).cs = s.cs := rfl
@[simp] theorem setDc_sclk (l : Bool) (s : State) : (setDc l s).sclk = s.sclk := rfl
@[simp] theorem setDc_mosi (l : Bool) (s : State) : (setDc l s).mosi = s.mosi := rfl
@[simp] theorem setDc_status (l : Bool) (s : State) : (setDc l s).status = s.status := rfl
@[simp] theorem setDc_offset (l : Bool) (s : State) : (setDc l s).offset = s.offset := rfl
@[simp] theorem setDc_resValid (l : Bool) (s : State) : (setDc l s).resValid = s.resValid := rfl
@[simp] theorem setDc_bmpLen (l : Bool) (s : State) : (setDc l s).bmpLen = s.bmpLen := rfl
@[simp] theorem setDc_thresh (l : Bool) (s : State) : (setDc l s).thresh = s.thresh := rfl
@[simp] theorem setDc_invert (l : Bool) (s : State) : (setDc l s).invert = s.invert := rfl
@[simp] theorem setDc_imgW (l : Bool) (s : State) : (setDc l s).imgW = s.imgW := rfl
@[simp] theorem setDc_imgH (l : Bool) (s : State) : (setDc l s).imgH = s.imgH := rfl
@[simp] theorem setDc_imgDepth (l : Bool) (s : State) : (setDc l s).imgDepth = s.imgDepth := rfl
@[simp] theorem setDc_bmp (l : Bool) (s : State) : (setDc l s).bmp = s.bmp := rfl
@[simp] theorem setDc_img (l : Bool) (s : State) : (setDc l s).img = s.img := rfl
@[simp] theorem setDc_latch (l : Bool) (s : State) : (setDc l s).latch = s.latch := rfl
@[simp] theorem setDc_elapsed (l : Bool) (s : State) : (setDc l s).elapsed = s.elapsed := rfl
@[simp] theorem setDc_tr (l : Bool) (s : State) : (setDc l s).tr = s.tr ++ [.pin .dc l] := rfl
@[simp] theorem setDc_ret (l : Bool) (s : State) : (setDc l s).ret = .ok := rfl
@[simp] theorem setDc_pending (l : Bool) (s : State) : (setDc l s).pending = s.pending := rfl
@[simp] theorem setDc_bench (l : Bool) (s : State) : (setDc l s).bench = s.bench := rfl
@[simp] theorem setDc_busyIn (l : Bool) (s : State) : (setDc l s).busyIn = s.busyIn := rfl
@[simp] theorem setDc_failIn (l : Bool) (s : State) : (setDc l s).failIn = s.failIn := rfl
@[simp] theorem setDc_draws (l : Bool) (s : State) : (setDc l s).draws = s.draws := rfl

/-! ### `setRst` -/

@[simp] theorem setRst_st (l : Bool) (s : State) : (setRst l s).st = s.st := rfl
@[simp] theorem setRst_seq (l : Bool) (s : State) : (setRst l s).seq = s.seq := rfl
@[simp] theorem setRst_pwr (l : Bool) (s : State) : (setRst l s).pwr = s.pwr := rfl
@[simp] theorem setRst_rst (l : Bool) (s : State) : (setRst l s).rst = l := rfl
@[simp] theorem setRst_dc (l : Bool) (s : State) : (setRst l s).dc = s.dc := rfl
@[simp] theorem setRst_cs (l : Bool) (s : State) : (setRst l s).cs = s.cs := rfl
@[simp] theorem setRst_sclk (l : Bool) (s : State) : (setRst l s).sclk = s.sclk := rfl
@[simp] theorem setRst_mosi (l : Bool) (s : State) : (setRst l s).mosi = s.mosi := rfl
@[simp] theorem setRst_status (l : Bool) (s : State) : (setRst l s).status = s.status := rfl
@[simp] theorem setRst_offset (l : Bool) (s : State) : (setRst l s).offset = s.offset := rfl
@[simp] theorem setRst_resValid (l : Bool) (s : State) : (setRst l s).resValid = s.resValid := rfl
@[simp] theorem setRst_bmpLen (l : Bool) (s : State) : (setRst l s).bmpLen = s.bmpLen := rfl
@[simp] theorem setRst_thresh (l : Bool) (s : State) : (setRst l s).thresh = s.thresh := rfl
@[simp] theorem setRst_invert (l : Bool) (s : State) : (setRst l s).invert = s.invert := rfl
@[simp] theorem setRst_imgW (l : Bool) (s : State) : (setRst l s).imgW = s.imgW := rfl
@[simp] theorem setRst_imgH (l : Bool) (s : State) : (setRst l s).imgH = s.imgH := rfl
@[simp] theorem setRst_imgDepth (l : Bool) (s : State) : (setRst l s).imgDepth = s.imgDepth := rfl
@[simp] theorem setRst_bmp (l : Bool) (s : State) : (setRst l s).bmp = s.bmp := rfl
@[simp] theorem setRst_img (l : Bool) (s : State) : (setRst l s).img = s.img := rfl
@[simp] theorem setRst_latch (l : Bool) (s : State) : (setRst l s).latch = s.latch := rfl
@[simp] theorem setRst_elapsed (l : Bool) (s : State) : (setRst l s).elapsed = s.elapsed := rfl
@[simp] theorem setRst_tr (l : Bool) (s : State) : (setRst l s).tr = s.tr ++ [.pin .rst l] := rfl
@[simp] theorem setRst_ret (l : Bool) (s : State) : (setRst l s).ret = .ok := rfl
@[simp] theorem setRst_pending (l : Bool) (s : State) : (setRst l s).pending = s.pending := rfl
@[simp] theorem setRst_bench (l : Bool) (s : State) : (setRst l s).bench = s.bench := rfl
@[simp] theorem setRst_busyIn (l : Bool) (s : State) : (setRst l s).busyIn = s.busyIn := rfl
@[simp] theorem setRst_failIn (l : Bool) (s : State) : (setRst l s).failIn = s.failIn := rfl
@[simp] theorem setRst_draws (l : Bool) (s : State) : (setRst l s).draws = s.draws := rfl

/-! ### `setPwr` -/

@[simp] theorem setPwr_st (l : Bool) (s : State) : (setPwr l s).st = s.st := rfl
@[simp] theorem setPwr_seq (l : Bool) (s : State) : (setPwr l s).seq = s.seq := rfl
@[simp] theorem setPwr_pwr (l : Bool) (s : State) : (setPwr l s).pwr = l := rfl
@[simp] theorem setPwr_rst (l : Bool) (s : State) : (setPwr l s).rst = s.rst := rfl
@[simp] theorem setPwr_dc (l : Bool) (s : State) : (setPwr l s).dc = s.dc := rfl
@[simp] theorem setPwr_cs (l : Bool) (s : State) : (setPwr l s).cs = s.cs := rfl
@[simp] theorem setPwr_sclk (l : Bool) (s : State) : (setPwr l s).sclk = s.sclk := rfl
@[simp] theorem setPwr_mosi (l : Bool) (s : State) : (setPwr l s).mosi = s.mosi := rfl
@[simp] theorem setPwr_status (l : Bool) (s : State) : (setPwr l s).status = s.status := rfl
@[simp] theorem setPwr_offset (l : Bool) (s : State) : (setPwr l s).offset = s.offset := rfl
@[simp] theorem setPwr_resValid (l : Bool) (s : State) : (setPwr l s).resValid = s.resValid := rfl
@[simp] theorem setPwr_bmpLen (l : Bool) (s : State) : (setPwr l s).bmpLen = s.bmpLen := rfl
@[simp] theorem setPwr_thresh (l : Bool) (s : State) : (setPwr l s).thresh = s.thresh := rfl
@[simp] theorem setPwr_invert (l : Bool) (s : State) : (setPwr l s).invert = s.invert := rfl
@[simp] theorem setPwr_imgW (l : Bool) (s : State) : (setPwr l s).imgW = s.imgW := rfl
@[simp] theorem setPwr_imgH (l : Bool) (s : State) : (setPwr l s).imgH = s.imgH := rfl
@[simp] theorem setPwr_imgDepth (l : Bool) (s : State) : (setPwr l s).imgDepth = s.imgDepth := rfl
@[simp] theorem setPwr_bmp (l : Bool) (s : State) : (setPwr l s).bmp = s.bmp := rfl
@[simp] theorem setPwr_img (l : Bool) (s : State) : (setPwr l s).img = s.img := rfl
@[simp] theorem setPwr_latch (l : Bool) (s : State) : (setPwr l s).latch = s.latch := rfl
@[simp] theorem setPwr_elapsed (l : Bool) (s : State) : (setPwr l s).elapsed = s.elapsed := rfl
@[simp] theorem setPwr_tr (l : Bool) (s : State) : (setPwr l s).tr = s.tr ++ [.pin .pwr l] := rfl
@[simp] theorem setPwr_ret (l : Bool) (s : State) : (setPwr l s).ret = .ok := rfl
@[simp] theorem setPwr_pending (l : Bool) (s : State) : (setPwr l s).pending = s.pending := rfl
@[simp] theorem setPwr_bench (l : Bool) (s : State) : (setPwr l s).bench = s.bench := rfl
@[simp] theorem setPwr_busyIn (l : Bool) (s : State) : (setPwr l s).busyIn = s.busyIn := rfl
@[simp] theorem setPwr_failIn (l : Bool) (s : State) : (setPwr l s).failIn = s.failIn := rfl
@[simp] theorem setPwr_draws (l : Bool) (s : State) : (setPwr l s).draws = s.draws := rfl

/-! ### `delay` -/

@[simp] theorem delay_st (d : Nat) (s : State) : (delay d s).st = s.st := rfl
@[simp] theorem delay_seq (d : Nat) (s : State) : (delay d s).seq = s.seq := rfl
@[simp] theorem delay_pwr (d : Nat) (s : State) : (delay d s).pwr = s.pwr := rfl
@[simp] theorem delay_rst (d : Nat) (s : State) : (delay d s).rst = s.rst := rfl
@[simp] theorem delay_dc (d : Nat) (s : State) : (delay d s).dc = s.dc := rfl
@[simp] theorem delay_cs (d : Nat) (s : State) : (delay d s).cs = s.cs := rfl
@[simp] theorem delay_sclk (d : Nat) (s : State) : (delay d s).sclk = s.sclk := rfl
@[simp] theorem delay_mosi (d : Nat) (s : State) : (delay d s).mosi = s.mosi := rfl
@[simp] theorem delay_status (d : Nat) (s : State) : (delay d s).status = s.status := rfl
@[simp] theorem delay_offset (d : Nat) (s : State) : (delay d s).offset = s.offset := rfl
@[simp] theorem delay_resValid (d : Nat) (s : State) : (delay d s).resValid = s.resValid := rfl
@[simp] theorem delay_bmpLen (d : Nat) (s : State) : (delay d s).bmpLen = s.bmpLen := rfl
@[simp] theorem delay_thresh (d : Nat) (s : State) : (delay d s).thresh = s.thresh := rfl
@[simp] theorem delay_invert (d : Nat) (s : State) : (delay d s).invert = s.invert := rfl
@[simp] theorem delay_imgW (d : Nat) (s : State) : (delay d s).imgW = s.imgW := rfl
@[simp] theorem delay_imgH (d : Nat) (s : State) : (delay d s).imgH = s.imgH := rfl
@[simp] theorem delay_imgDepth (d : Nat) (s : State) : (delay d s).imgDepth = s.imgDepth := rfl
@[simp] theorem delay_bmp (d : Nat) (s : State) : (delay d s).bmp = s.bmp := rfl
@[simp] theorem delay_img (d : Nat) (s : State) : (delay d s).img = s.img := rfl
@[simp] theorem delay_latch (d : Nat) (s : State) : (delay d s).latch = s.latch := rfl
@[simp] theorem delay_elapsed (d : Nat) (s : State) : (delay d s).elapsed = s.elapsed := rfl
@[simp] theorem delay_tr (d : Nat) (s : State) : (delay d s).tr = s.tr ++ [.delay d] := rfl
@[simp] theorem delay_ret (d : Nat) (s : State) : (delay d s).ret = .ok := rfl
@[simp] theorem delay_pending (d : Nat) (s : State) : (delay d s).pending = s.pending := rfl
@[simp] theorem delay_bench (d : Nat) (s : State) : (delay d s).bench = s.bench := rfl
@[simp] theorem delay_busyIn (d : Nat) (s : State) : (delay d s).busyIn = s.busyIn := rfl
@[simp] theorem delay_failIn (d : Nat) (s : State) : (delay d s).failIn = s.failIn := rfl
@[simp] theorem delay_draws (d : Nat) (s : State) : (delay d s).draws = s.draws := rfl

/-! ### `readBusy` -/

@[simp] theorem readBusy_st (s : State) : (readBusy s).st = s.st := rfl
@[simp] theorem readBusy_seq (s : State) : (readBusy s).seq = s.seq := rfl
@[simp] theorem readBusy_pwr (s : State) : (readBusy s).pwr = s.pwr := rfl
@[simp] theorem readBusy_rst (s : State) : (readBusy s).rst = s.rst := rfl
@[simp] theorem readBusy_dc (s : State) : (readBusy s).dc = s.dc := rfl
@[simp] theorem readBusy_cs (s : State) : (readBusy s).cs = s.cs := rfl
@[simp] theorem readBusy_sclk (s : State) : (readBusy s).sclk = s.sclk := rfl
@[simp] theorem readBusy_mosi (s : State) : (readBusy s).mosi = s.mosi := rfl
@[simp] theorem readBusy_status (s : State) : (readBusy s).status = s.status := rfl
@[simp] theorem readBusy_offset (s : State) : (readBusy s).offset = s.offset := rfl
@[simp] theorem readBusy_resValid (s : State) : (readBusy s).resValid = s.resValid := rfl
@[simp] theorem readBusy_bmpLen (s : State) : (readBusy s).bmpLen = s.bmpLen := rfl
@[simp] theorem readBusy_thresh (s : State) : (readBusy s).thresh = s.thresh := rfl
@[simp] theorem readBusy_invert (s : State) : (readBusy s).invert = s.invert := rfl
@[simp] theorem readBusy_imgW (s : State) : (readBusy s).imgW = s.imgW := rfl
@[simp] theorem readBusy_imgH (s : State) : (readBusy s).imgH = s.imgH := rfl
@[simp] theorem readBusy_imgDepth (s : State) : (readBusy s).imgDepth = s.imgDepth := rfl
@[simp] theorem readBusy_bmp (s : State) : (readBusy s).bmp = s.bmp := rfl
@[simp] theorem readBusy_img (s : State) : (readBusy s).img = s.img := rfl
@[simp] theorem readBusy_latch (s : State) : (readBusy s).latch = s.latch := rfl
@[simp] theorem readBusy_elapsed (s : State) : (readBusy s).elapsed = s.elapsed := rfl
@[simp] theorem readBusy_tr (s : State) : (readBusy s).tr = s.tr ++ [.sample (busyNow s)] := rfl
@[simp] theorem readBusy_ret (s : State) : (readBusy s).ret = .level (busyNow s) := rfl
@[simp] theorem readBusy_pending (s : State) : (readBusy s).pending = s.pending := rfl
@[simp] theorem readBusy_bench (s : State) : (readBusy s).bench = s.bench := rfl
@[simp] theorem readBusy_busyIn (s : State) : (readBusy s).busyIn = s.busyIn.tail := rfl
@[simp] theorem readBusy_failIn (s : State) : (readBusy s).failIn = s.failIn := rfl
@[simp] theorem readBusy_draws (s : State) : (readBusy s).draws = if s.busyIn = [] then s.draws + 1 else s.draws := rfl

end Sys2Proof.Machine
end

