-- ==== Sys2Proof/Laws/Run.lean ====
section
/-!
SUPPORT. What the bus operations can do, said once for each: the events they append and the pins they leave (`Run`),
what they keep (`BusOnly`), what they answer. Callers cite these and do not unfold the operations.
-/

namespace Sys2Proof.Machine

/-! ### Lists of events -/

theorem lastPin_append (line : Line) (xs ys : List Event) :
    lastPin line (xs ++ ys) = (lastPin line ys).or (lastPin line xs) := by
  induction xs with
  | nil => simp [lastPin]
  | cons e xs ih =>
    simp only [List.cons_append, lastPin, ih]
    cases lastPin line ys <;> simp

theorem dcAgrees_append (cur : Option Bool) (xs ys : List Event) :
    dcAgrees cur (xs ++ ys) = (dcAgrees cur xs && dcAgrees ((lastPin .dc xs).or cur) ys) := by
  induction xs generalizing cur with
  | nil => simp [dcAgrees, lastPin]
  | cons e xs ih =>
    cases e with
    | pin line l =>
      cases line <;> simp only [List.cons_append, dcAgrees, ih, lastPin] <;>
        cases lastPin .dc xs <;> simp
    | txn d bs =>
      simp only [List.cons_append, dcAgrees, ih, lastPin, Bool.and_assoc]
      cases lastPin .dc xs <;> rfl
    | txnFail d bs =>
      simp only [List.cons_append, dcAgrees, ih, lastPin, Bool.and_assoc]
      cases lastPin .dc xs <;> rfl
    | sample l =>
      simp only [List.cons_append, dcAgrees, ih, lastPin]
      cases lastPin .dc xs <;> rfl
    | delay n =>
      simp only [List.cons_append, dcAgrees, ih, lastPin]
      cases lastPin .dc xs <;> rfl

/-- Agreement with a known level is agreement with an unknown one. -/
theorem dcAgrees_none {l : Bool} {evs : List Event} (h : dcAgrees (some l) evs = true) : dcAgrees none evs = true := by
  induction evs with
  | nil => rfl
  | cons e evs ih =>
    cases e with
    | pin line x => cases line <;> simp_all [dcAgrees]
    | txn d bs =>
      simp only [dcAgrees, Option.getD_some, Bool.and_eq_true, decide_eq_true_eq] at h
      simpa [dcAgrees] using ih h.2
    | txnFail d bs =>
      simp only [dcAgrees, Option.getD_some, Bool.and_eq_true, decide_eq_true_eq] at h
      simpa [dcAgrees] using ih h.2
    | sample x => simp_all [dcAgrees]
    | delay n => simp_all [dcAgrees]

/-! ### Runs: events appended, pins as last written -/

/-- From `s`, the events `evs` were appended and `t` reached, with `CS` and `SCLK` back at rest. -/
structure Run (s : State) (evs : List Event) (t : State) : Prop where
  tr : t.tr = s.tr ++ evs
  lines : ∀ line, t.lineLevel line = (lastPin line evs).getD (s.lineLevel line)
  levels : dcAgrees (some s.dc) evs = true
  sized : ∀ e ∈ evs, e.sized = true
  cs : s.cs = true → t.cs = true
  sclk : s.sclk = false → t.sclk = false

/-- Updates that touch neither a pin nor the trace are the empty run. -/
theorem Run.of_same {s t : State} (htr : t.tr = s.tr) (hp : t.pwr = s.pwr) (hr : t.rst = s.rst) (hd : t.dc = s.dc)
    (hc : t.cs = s.cs) (hs : t.sclk = s.sclk) : Run s [] t where
  tr := by simp [htr]
  lines := by intro line; cases line <;> simp [State.lineLevel, lastPin, hp, hr, hd]
  levels := rfl
  sized := by simp
  cs := by simp [hc]
  sclk := by simp [hs]

theorem Run.refl (s : State) : Run s [] s := Run.of_same rfl rfl rfl rfl rfl rfl

theorem Run.dc {s t : State} {evs : List Event} (h : Run s evs t) : t.dc = (lastPin .dc evs).getD s.dc := h.lines .dc

theorem Run.trans {s t u : State} {xs ys : List Event} (h : Run s xs t) (k : Run t ys u) : Run s (xs ++ ys) u where
  tr := by rw [k.tr, h.tr, List.append_assoc]
  lines := by
    intro line
    rw [k.lines, h.lines, lastPin_append]
    cases lastPin line ys <;> simp
  levels := by
    rw [dcAgrees_append, h.levels, Bool.true_and]
    have := k.levels
    rw [h.dc] at this
    cases hl : lastPin .dc xs <;> simp_all
  sized := by
    intro e he
    rcases List.mem_append.mp he with he | he
    · exact h.sized e he
    · exact k.sized e he
  cs := fun hs => k.cs (h.cs hs)
  sclk := fun hs => k.sclk (h.sclk hs)

/-- A run keeps the invariant of the trace. -/
theorem Run.traceInv {s t : State} {evs : List Event} (h : Run s evs t) (hs : s.TraceInv) : t.TraceInv where
  sized := by
    intro e he
    rw [h.tr] at he
    rcases List.mem_append.mp he with he | he
    · exact hs.sized e he
    · exact h.sized e he
  held := by
    intro line l hl
    rw [h.tr, lastPin_append] at hl
    rw [h.lines]
    cases hx : lastPin line evs with
    | some x => simp_all
    | none =>
      rw [hx] at hl
      exact hs.held line l (by simpa using hl)
  levels := by
    rw [h.tr, dcAgrees_append, hs.levels, Bool.true_and]
    cases hx : lastPin .dc s.tr with
    | some x =>
      have := hs.held .dc x hx
      simp only [State.lineLevel] at this
      subst this
      simpa using h.levels
    | none => simpa using dcAgrees_none h.levels

/-! ### What a bus operation keeps -/

/-- `BusKeeps`, and the power and reset lines untouched (R28). -/
structure BusOnly (s t : State) : Prop where
  keeps : BusKeeps s t
  pwr : t.pwr = s.pwr
  rst : t.rst = s.rst

theorem BusKeeps.refl (s : State) : BusKeeps s s := by constructor <;> rfl

theorem BusKeeps.trans {s t u : State} (h : BusKeeps s t) (k : BusKeeps t u) : BusKeeps s u where
  st := k.st.trans h.st
  op := k.op.trans h.op
  step := k.step.trans h.step
  status := k.status.trans h.status
  offset := k.offset.trans h.offset
  resValid := k.resValid.trans h.resValid
  bmpLen := k.bmpLen.trans h.bmpLen
  thresh := k.thresh.trans h.thresh
  invert := k.invert.trans h.invert
  imgW := k.imgW.trans h.imgW
  imgH := k.imgH.trans h.imgH
  imgDepth := k.imgDepth.trans h.imgDepth
  bmp := k.bmp.trans h.bmp
  img := k.img.trans h.img
  latch := k.latch.trans h.latch
  pending := k.pending.trans h.pending
  bench := k.bench.trans h.bench

theorem BusOnly.refl (s : State) : BusOnly s s := ⟨.refl s, rfl, rfl⟩

theorem BusOnly.trans {s t u : State} (h : BusOnly s t) (k : BusOnly t u) : BusOnly s u :=
  ⟨h.keeps.trans k.keeps, k.pwr.trans h.pwr, k.rst.trans h.rst⟩

theorem answer_busOnly (r : Ret) (s : State) : BusOnly s (answer r s) := by
  refine ⟨?_, rfl, rfl⟩
  constructor <;> rfl

theorem answer_run (r : Ret) (s : State) : Run s [] (answer r s) := Run.of_same rfl rfl rfl rfl rfl rfl

theorem setOff_busOnly (n : Nat) (s : State) : BusOnly s (setOff n s) := by
  refine ⟨?_, rfl, rfl⟩
  constructor <;> rfl

theorem setOff_run (n : Nat) (s : State) : Run s [] (setOff n s) := Run.of_same rfl rfl rfl rfl rfl rfl

/-! ### The bus transaction (R101) -/

theorem emit_busOnly (e : Event) (s : State) : BusOnly s (emit e s) := by
  refine ⟨?_, rfl, rfl⟩
  constructor <;> rfl

theorem setCs_busOnly (l : Bool) (s : State) : BusOnly s (setCs l s) := by
  refine ⟨?_, rfl, rfl⟩
  constructor <;> rfl

theorem afterFail_busOnly (s : State) : BusOnly s (afterFail s) := by
  refine ⟨?_, rfl, rfl⟩
  constructor <;> rfl

theorem afterShifted_busOnly (s : State) : BusOnly s (afterShifted s) := by
  refine ⟨?_, rfl, rfl⟩
  constructor <;> rfl

theorem shiftBytes_busOnly (bs : List Byte) (s : State) : BusOnly s (shiftBytes bs s) := by
  refine ⟨?_, rfl, rfl⟩
  constructor <;> rfl

@[simp] theorem failNow_setCs (s : State) (b : Bool) : failNow (setCs b s) = failNow s := rfl

@[simp] theorem failNow_setDc (s : State) (b : Bool) : failNow (setDc b s) = failNow s := rfl

@[simp] theorem failNow_setOff (s : State) (n : Nat) : failNow (setOff n s) = failNow s := rfl

/-- A transaction that completes (R101). -/
theorem spiTxn_completes (bytes : List Byte) {s : State} (h : failNow s = false) : spiTxn bytes s =
    answer .ok (emit (.txn s.dc bytes) (setCs true (shiftBytes bytes (afterFail (setCs false s))))) := by
  simp [spiTxn, h]

/-- A transaction that fails (R101, U3). -/
theorem spiTxn_fails (bytes : List Byte) {s : State} (h : failNow s = true) : ∃ k, spiTxn bytes s =
    answer (.busError 0) (emit (.txnFail s.dc bytes)
      (setCs true (shiftBytes (bytes.take k) (afterShifted (afterFail (setCs false s)))))) :=
  ⟨shiftedNow bytes.length (afterFail (setCs false s)), by simp only [spiTxn, failNow_setCs, h, if_true]⟩

/-- The event of a transaction: completed or failed (R24, R101). -/
def txnEvent (s : State) (bytes : List Byte) : Event := if failNow s then .txnFail s.dc bytes else .txn s.dc bytes

theorem shiftPins_low (bytes : List Byte) (p : Bool × Bool) (h : p.2 = false) : (shiftPins bytes p).2 = false := by
  induction bytes generalizing p with
  | nil => exact h
  | cons v bytes ih =>
    simp only [shiftPins, List.foldl_cons]
    exact ih _ rfl

theorem spiTxn_tr (bytes : List Byte) (s : State) : (spiTxn bytes s).tr = s.tr ++ [txnEvent s bytes] := by
  cases h : failNow s
  · rw [spiTxn_completes bytes h]
    simp [txnEvent, h]
  · obtain ⟨k, hk⟩ := spiTxn_fails bytes h
    rw [hk]
    simp [txnEvent, h]

theorem spiTxn_ret (bytes : List Byte) (s : State) : (spiTxn bytes s).ret = if failNow s then .busError 0 else .ok := by
  cases h : failNow s
  · rw [spiTxn_completes bytes h]
    simp
  · obtain ⟨k, hk⟩ := spiTxn_fails bytes h
    rw [hk]
    simp

@[simp] theorem spiTxn_dc (bytes : List Byte) (s : State) : (spiTxn bytes s).dc = s.dc := by
  cases h : failNow s
  · rw [spiTxn_completes bytes h]
    rfl
  · obtain ⟨k, hk⟩ := spiTxn_fails bytes h
    rw [hk]
    rfl

@[simp] theorem spiTxn_seq (bytes : List Byte) (s : State) : (spiTxn bytes s).seq = s.seq := by
  cases h : failNow s
  · rw [spiTxn_completes bytes h]
    rfl
  · obtain ⟨k, hk⟩ := spiTxn_fails bytes h
    rw [hk]
    rfl

@[simp] theorem spiTxn_cs (bytes : List Byte) (s : State) : (spiTxn bytes s).cs = true := by
  cases h : failNow s
  · rw [spiTxn_completes bytes h]
    rfl
  · obtain ⟨k, hk⟩ := spiTxn_fails bytes h
    rw [hk]
    rfl

@[simp] theorem spiTxn_failIn (bytes : List Byte) (s : State) : (spiTxn bytes s).failIn = s.failIn.tail := by
  cases h : failNow s
  · rw [spiTxn_completes bytes h]
    rfl
  · obtain ⟨k, hk⟩ := spiTxn_fails bytes h
    rw [hk]
    rfl

@[simp] theorem spiTxn_busyIn (bytes : List Byte) (s : State) : (spiTxn bytes s).busyIn = s.busyIn := by
  cases h : failNow s
  · rw [spiTxn_completes bytes h]
    rfl
  · obtain ⟨k, hk⟩ := spiTxn_fails bytes h
    rw [hk]
    rfl

@[simp] theorem spiTxn_elapsed (bytes : List Byte) (s : State) : (spiTxn bytes s).elapsed = s.elapsed := by
  cases h : failNow s
  · rw [spiTxn_completes bytes h]
    rfl
  · obtain ⟨k, hk⟩ := spiTxn_fails bytes h
    rw [hk]
    rfl

theorem spiTxn_sclk (bytes : List Byte) (s : State) (hs : s.sclk = false) : (spiTxn bytes s).sclk = false := by
  cases h : failNow s
  · rw [spiTxn_completes bytes h]
    exact shiftPins_low _ _ hs
  · obtain ⟨k, hk⟩ := spiTxn_fails bytes h
    rw [hk]
    exact shiftPins_low _ _ hs

theorem spiTxn_busOnly (bytes : List Byte) (s : State) : BusOnly s (spiTxn bytes s) := by
  have hd : BusOnly s (afterFail (setCs false s)) := (setCs_busOnly false s).trans (afterFail_busOnly _)
  cases h : failNow s
  · rw [spiTxn_completes bytes h]
    exact (hd.trans (shiftBytes_busOnly bytes _)).trans
      ((setCs_busOnly true _).trans ((emit_busOnly _ _).trans (answer_busOnly _ _)))
  · obtain ⟨k, hk⟩ := spiTxn_fails bytes h
    rw [hk]
    exact ((hd.trans (afterShifted_busOnly _)).trans (shiftBytes_busOnly _ _)).trans
      ((setCs_busOnly true _).trans ((emit_busOnly _ _).trans (answer_busOnly _ _)))

theorem spiTxn_run {bytes : List Byte} (s : State) (h : txnLengthOk hw.maxChunk bytes = true) :
    Run s [txnEvent s bytes] (spiTxn bytes s) where
  tr := spiTxn_tr bytes s
  lines := by
    intro line
    have hb := spiTxn_busOnly bytes s
    cases line <;> simp only [State.lineLevel, hb.pwr, hb.rst, spiTxn_dc, txnEvent] <;> split <;> rfl
  levels := by simp only [txnEvent]; split <;> simp [dcAgrees]
  sized := by simp only [txnEvent, List.mem_singleton]; rintro e rfl; split <;> simpa [Event.sized] using h
  cs := by simp
  sclk := spiTxn_sclk bytes s

/-! ### Lines, samples, delays (R102 to R106) -/

theorem setDc_busOnly (l : Bool) (s : State) : BusOnly s (setDc l s) := by
  refine ⟨?_, rfl, rfl⟩
  constructor <;> rfl

theorem setDc_run (l : Bool) (s : State) : Run s [.pin .dc l] (setDc l s) where
  tr := rfl
  lines := by intro line; cases line <;> rfl
  levels := rfl
  sized := by simp [Event.sized]
  cs := id
  sclk := id

theorem readBusy_busOnly (s : State) : BusOnly s (readBusy s) := by
  refine ⟨?_, rfl, rfl⟩
  constructor <;> rfl

theorem readBusy_run (s : State) : Run s [.sample (busyNow s)] (readBusy s) where
  tr := rfl
  lines := by intro line; cases line <;> rfl
  levels := rfl
  sized := by simp [Event.sized]
  cs := id
  sclk := id

theorem delay_busOnly (d : Nat) (s : State) : BusOnly s (delay d s) := by
  refine ⟨?_, rfl, rfl⟩
  constructor <;> rfl

theorem delay_run (d : Nat) (s : State) : Run s [.delay d] (delay d s) where
  tr := rfl
  lines := by intro line; cases line <;> rfl
  levels := rfl
  sized := by simp [Event.sized]
  cs := id
  sclk := id

theorem setRst_keeps (l : Bool) (s : State) : BusKeeps s (setRst l s) := by constructor <;> rfl

theorem setRst_run (l : Bool) (s : State) : Run s [.pin .rst l] (setRst l s) where
  tr := rfl
  lines := by intro line; cases line <;> rfl
  levels := rfl
  sized := by simp [Event.sized]
  cs := id
  sclk := id

theorem setPwr_keeps (l : Bool) (s : State) : BusKeeps s (setPwr l s) := by constructor <;> rfl

theorem setPwr_run (l : Bool) (s : State) : Run s [.pin .pwr l] (setPwr l s) where
  tr := rfl
  lines := by intro line; cases line <;> rfl
  levels := rfl
  sized := by simp [Event.sized]
  cs := id
  sclk := id

/-! ### `WRITE_CMD` and `WRITE_DATA` (R107, R108) -/

theorem txnLengthOk_one (code : Byte) : txnLengthOk hw.maxChunk [code] = true := rfl

theorem writeCmd_busOnly (code : Byte) (s : State) : BusOnly s (writeCmd code s) :=
  (setDc_busOnly false s).trans (spiTxn_busOnly [code] _)

theorem writeCmd_run (code : Byte) (s : State) :
    Run s [.pin .dc false, txnEvent (setDc false s) [code]] (writeCmd code s) :=
  (setDc_run false s).trans (spiTxn_run _ (txnLengthOk_one code))

theorem writeCmd_ret (code : Byte) (s : State) :
    (writeCmd code s).ret = if failNow s then .busError 0 else .ok := spiTxn_ret [code] (setDc false s)

@[simp] theorem writeCmd_seq (code : Byte) (s : State) : (writeCmd code s).seq = s.seq := by simp [writeCmd, setDc]

theorem sendChunks_busOnly (chs : List (List Byte)) (s : State) : BusOnly s (sendChunks chs s) := by
  induction chs generalizing s with
  | nil => exact answer_busOnly _ s
  | cons ch chs ih =>
    have hb := spiTxn_busOnly ch s
    simp only [sendChunks]
    split
    · exact hb.trans (answer_busOnly _ _)
    all_goals exact hb.trans ((setOff_busOnly _ _).trans (ih _))

/-- `WRITE_DATA`'s loop appends transactions only, with bytes of the given chunks. -/
theorem sendChunks_run (chs : List (List Byte)) (s : State) (h : ∀ ch ∈ chs, txnLengthOk hw.maxChunk ch = true) :
    ∃ evs, Run s evs (sendChunks chs s) ∧ ∀ line, lastPin line evs = none := by
  induction chs generalizing s with
  | nil => exact ⟨[], answer_run _ s, fun _ => rfl⟩
  | cons ch chs ih =>
    have hr := spiTxn_run s (h ch (by simp))
    have hp : ∀ line, lastPin line [txnEvent s ch] = none := by
      intro line
      simp only [txnEvent]
      split <;> rfl
    have hrest := fun n => ih (setOff n (spiTxn ch s)) fun x hx => h x (by simp [hx])
    simp only [sendChunks]
    split
    · exact ⟨_, hr.trans (answer_run _ _), by simpa using hp⟩
    all_goals
      obtain ⟨evs, hrun, hnone⟩ := hrest _
      refine ⟨_, (hr.trans (setOff_run _ _)).trans hrun, fun line => ?_⟩
      rw [lastPin_append, hnone, Option.none_or, List.append_nil]
      exact hp line

/-- `WRITE_DATA`'s loop answers `Ok`, or `BusError` with the offset reached. -/
theorem sendChunks_ret (chs : List (List Byte)) (s : State) :
    (sendChunks chs s).ret = .ok ∨ ∃ k, k < chs.length ∧
      (sendChunks chs s).ret = .busError (s.seq.off + ((chs.take k).map List.length).sum) := by
  induction chs generalizing s with
  | nil => exact .inl rfl
  | cons ch chs ih =>
    have hok : (spiTxn ch s).ret = .ok ∨ ∃ n, (spiTxn ch s).ret = .busError n := by
      rw [spiTxn_ret]
      split
      · exact .inr ⟨0, rfl⟩
      · exact .inl rfl
    rcases hok with hok | ⟨n, hn⟩
    · simp only [sendChunks, hok]
      rcases ih (setOff ((spiTxn ch s).seq.off + ch.length) (spiTxn ch s)) with h | ⟨k, hk, h⟩
      · exact .inl h
      · refine .inr ⟨k + 1, by simpa using hk, h.trans ?_⟩
        simp [Nat.add_assoc]
    · simp only [sendChunks, hn]
      exact .inr ⟨0, by simp, by simp⟩

/-- The first `n` chunks, each by its place (R77). -/
theorem chunks_take {m n : Nat} {b : List Byte} (h : n ≤ chunkCount m b.length) :
    (chunks m b).take n = (List.range n).map (fun k => (b.drop (k * m)).take m) := by
  rw [chunks, ← List.map_take, List.take_range, Nat.min_eq_left h]
  rfl

/-- Every chunk has 1 to `m` bytes (R45, R77). -/
theorem chunks_sized {m : Nat} (hm : 1 ≤ m) {b ch : List Byte} (h : ch ∈ chunks m b) :
    1 ≤ ch.length ∧ ch.length ≤ m := by
  simp only [chunks, List.mem_map, List.mem_range, chunkCount] at h
  obtain ⟨k, hk, rfl⟩ := h
  have h1 : k + 1 ≤ (b.length + m - 1) / m := hk
  rw [Nat.le_div_iff_mul_le (by omega)] at h1
  have h2 : (k + 1) * m = k * m + m := by ring
  simp only [chunk, List.length_take, List.length_drop]
  omega

theorem chunks_ok {b ch : List Byte} (h : ch ∈ chunks hw.maxChunk b) : txnLengthOk hw.maxChunk ch = true := by
  obtain ⟨h1, h2⟩ := chunks_sized (by decide : 1 ≤ hw.maxChunk) h
  simp [txnLengthOk, h1, h2]

theorem writeData_busOnly (c : Cfg) (b : List Byte) (s : State) : BusOnly s (writeData c b s) :=
  ((setDc_busOnly true s).trans (setOff_busOnly 0 _)).trans (sendChunks_busOnly _ _)

theorem writeData_run (b : List Byte) (s : State) :
    ∃ evs, Run s (.pin .dc true :: evs) (writeData hw b s) ∧ ∀ line, lastPin line evs = none := by
  obtain ⟨evs, h, hn⟩ := sendChunks_run (chunks hw.maxChunk b) (setOff 0 (setDc true s)) fun _ => chunks_ok
  exact ⟨evs, ((setDc_run true s).trans (setOff_run 0 _)).trans h, hn⟩

theorem endData_busOnly (s : State) : BusOnly s (endData s) := setOff_busOnly 0 s

theorem endData_run (s : State) : Run s [] (endData s) := setOff_run 0 s

@[simp] theorem endData_ret (s : State) : (endData s).ret = s.ret := rfl

@[simp] theorem endData_tr (s : State) : (endData s).tr = s.tr := rfl

/-! ### `WAIT_BUSY` (R109) -/

theorem setElapsed_busOnly (d : Nat) (s : State) : BusOnly s (setElapsed d s) := by
  refine ⟨?_, rfl, rfl⟩
  constructor <;> rfl

theorem setElapsed_run (d : Nat) (s : State) : Run s [] (setElapsed d s) := Run.of_same rfl rfl rfl rfl rfl rfl

theorem waitLoop_busOnly (c : Cfg) (timeout fuel : Nat) (s : State) : BusOnly s (waitLoop c timeout fuel s) := by
  induction fuel generalizing s with
  | zero => exact answer_busOnly _ s
  | succ fuel ih =>
    have hb := readBusy_busOnly s
    simp only [waitLoop]
    split
    · exact hb.trans (answer_busOnly _ _)
    · split
      · exact hb.trans (answer_busOnly _ _)
      · exact hb.trans ((delay_busOnly c.pollInterval _).trans ((setElapsed_busOnly _ _).trans (ih _)))

theorem waitLoop_run (c : Cfg) (timeout fuel : Nat) (s : State) :
    ∃ evs, Run s evs (waitLoop c timeout fuel s) ∧ ∀ line, lastPin line evs = none := by
  induction fuel generalizing s with
  | zero => exact ⟨[], answer_run _ s, fun _ => rfl⟩
  | succ fuel ih =>
    have hr := readBusy_run s
    simp only [waitLoop]
    split
    · exact ⟨_, hr.trans (answer_run _ _), fun _ => rfl⟩
    · split
      · exact ⟨_, hr.trans (answer_run _ _), fun _ => rfl⟩
      · obtain ⟨evs, hrun, hn⟩ :=
          ih (setElapsed ((readBusy s).elapsed + c.pollInterval) (delay c.pollInterval (readBusy s)))
        refine ⟨_, (hr.trans (delay_run c.pollInterval _)).trans ((setElapsed_run _ _).trans hrun), fun line => ?_⟩
        rw [lastPin_append, List.nil_append, hn]
        rfl

theorem waitLoop_ret (c : Cfg) (timeout fuel : Nat) (s : State) :
    (waitLoop c timeout fuel s).ret = .ok ∨ (waitLoop c timeout fuel s).ret = .timeout := by
  induction fuel generalizing s with
  | zero => exact .inr rfl
  | succ fuel ih =>
    simp only [waitLoop]
    split
    · exact .inl rfl
    · split
      · exact .inr rfl
      · exact ih _

theorem waitLoop_seq (c : Cfg) (timeout fuel : Nat) (s : State) : (waitLoop c timeout fuel s).seq = s.seq := by
  induction fuel generalizing s with
  | zero => simp [waitLoop]
  | succ fuel ih =>
    simp only [waitLoop]
    split
    · simp
    · split
      · simp
      · simp [ih]

@[simp] theorem waitBusy_seq (c : Cfg) (timeout : Nat) (s : State) : (waitBusy c timeout s).seq = s.seq := by
  simp [waitBusy, waitLoop_seq]

theorem waitBusy_busOnly (c : Cfg) (timeout : Nat) (s : State) : BusOnly s (waitBusy c timeout s) :=
  (setElapsed_busOnly 0 s).trans (waitLoop_busOnly c timeout (timeout + 1) _)

theorem waitBusy_run (c : Cfg) (timeout : Nat) (s : State) :
    ∃ evs, Run s evs (waitBusy c timeout s) ∧ ∀ line, lastPin line evs = none := by
  obtain ⟨evs, h, hn⟩ := waitLoop_run c timeout (timeout + 1) (setElapsed 0 s)
  exact ⟨evs, (setElapsed_run 0 s).trans h, hn⟩

theorem waitBusy_ret (c : Cfg) (timeout : Nat) (s : State) :
    (waitBusy c timeout s).ret = .ok ∨ (waitBusy c timeout s).ret = .timeout :=
  waitLoop_ret c timeout _ _

/-! ### `SEND` (R130, R133) -/

theorem send_busOnly (c : Cfg) (cmd : Byte) (p : List Byte) (s : State) : BusOnly s (send c cmd p s) := by
  simp only [send]
  split
  · split
    · exact writeCmd_busOnly cmd s
    · exact (writeCmd_busOnly cmd s).trans ((writeData_busOnly c p _).trans (endData_busOnly _))
  all_goals exact writeCmd_busOnly cmd s

theorem send_run (cmd : Byte) (p : List Byte) (s : State) :
    ∃ evs, Run s evs (send hw cmd p s) ∧ lastPin .pwr evs = none ∧ lastPin .rst evs = none := by
  have hc := writeCmd_run cmd s
  have hn : ∀ line, line ≠ .dc → lastPin line [.pin .dc false, txnEvent (setDc false s) [cmd]] = none := by
    intro line hl
    simp only [txnEvent]
    cases line <;> split <;> simp_all [lastPin]
  simp only [send]
  split
  · split
    · exact ⟨_, hc, hn _ (by simp), hn _ (by simp)⟩
    · obtain ⟨evs, h, hx⟩ := writeData_run p (writeCmd cmd s)
      refine ⟨_, hc.trans (h.trans (endData_run _)), ?_, ?_⟩ <;>
      · rw [lastPin_append, lastPin_append, hn _ (by simp)]
        simp [lastPin, hx]
  all_goals exact ⟨_, hc, hn _ (by simp), hn _ (by simp)⟩

theorem sendAll_busOnly (c : Cfg) (gs : List GsvEntry) (s : State) : BusOnly s (sendAll c gs s) := by
  induction gs generalizing s with
  | nil => exact answer_busOnly _ s
  | cons g gs ih =>
    have hb := send_busOnly c g.cmd g.params s
    simp only [sendAll]
    split
    · exact hb.trans (ih _)
    all_goals exact hb

theorem sendAll_run (gs : List GsvEntry) (s : State) :
    ∃ evs, Run s evs (sendAll hw gs s) ∧ lastPin .pwr evs = none ∧ lastPin .rst evs = none := by
  induction gs generalizing s with
  | nil => exact ⟨[], answer_run _ s, rfl, rfl⟩
  | cons g gs ih =>
    obtain ⟨evs, h, hp, hr⟩ := send_run g.cmd g.params s
    simp only [sendAll]
    split
    · obtain ⟨evs', h', hp', hr'⟩ := ih (send hw g.cmd g.params s)
      exact ⟨_, h.trans h', by simp [lastPin_append, hp, hp'], by simp [lastPin_append, hr, hr']⟩
    all_goals exact ⟨_, h, hp, hr⟩

/-! ### Acceptance and delivery (R148, R200) -/

theorem accept_run (op : SeqOp) (s : State) : Run s [] (accept op s) := Run.of_same rfl rfl rfl rfl rfl rfl

theorem deliver_run (r : OpResult) (s : State) : Run s [] (deliver r s) := Run.of_same rfl rfl rfl rfl rfl rfl

theorem advance_run (s : State) : Run s [] (advance s) := Run.of_same rfl rfl rfl rfl rfl rfl

theorem capture_run (c : Cfg) (s : State) : Run s [] (capture c s) := Run.of_same rfl rfl rfl rfl rfl rfl

theorem take_run (rest : List Request) (s : State) : Run s [] (take rest s) := Run.of_same rfl rfl rfl rfl rfl rfl

/-- An abort touches neither a pin nor the trace: there is no clean-up (R202, D22). -/
theorem abort_run (cause : Ret) (s : State) : Run s [] (abort cause s) := by
  unfold abort
  split <;> exact Run.of_same rfl rfl rfl rfl rfl rfl

end Sys2Proof.Machine
end

