-- ==== Sys2Proof/Laws/Script.lean ====
section
/-!
SUPPORT. What the loops of the transport do under a script of the environment (R26): chunks that complete or fail at a
known place (R108, R110), a busy line that clears or stays (R109); and the arithmetic of chunks (R77).
-/

namespace Sys2Proof.Machine

/-! ### Chunks (R77) -/

@[simp] theorem chunks_length (m : Nat) (b : List Byte) : (chunks m b).length = chunkCount m b.length := by
  simp [chunks]

theorem chunks_get {m k : Nat} {b : List Byte} (h : k < chunkCount m b.length) :
    (chunks m b)[k]? = some (chunk m k b) := by
  simp [chunks, h]

/-- The chunks before chunk `k` are the first `k*M` bytes. -/
theorem chunks_flatten_take (m : Nat) (b : List Byte) (k : Nat) :
    ((List.range k).map (fun j => chunk m j b)).flatten = b.take (k * m) := by
  induction k with
  | zero => simp
  | succ k ih =>
    rw [List.range_succ, List.map_append, List.flatten_append, ih, Nat.succ_mul]
    simp only [List.map_cons, List.map_nil, List.flatten_cons, List.flatten_nil, List.append_nil, chunk]
    rw [List.take_add]

theorem chunkCount_covers {m : Nat} (hm : 1 ≤ m) (len : Nat) : len ≤ chunkCount m len * m := by
  have h := Nat.div_add_mod (len + m - 1) m
  have h2 := Nat.mod_lt (len + m - 1) (show m > 0 by omega)
  rw [chunkCount, Nat.mul_comm]
  omega

/-- The chunks cover the buffer exactly once (R42, R110). -/
theorem chunks_flatten {m : Nat} (hm : 1 ≤ m) (b : List Byte) : (chunks m b).flatten = b := by
  rw [chunks, chunks_flatten_take, List.take_of_length_le (chunkCount_covers hm _)]

theorem chunk_start_lt {m k len : Nat} (h : k < chunkCount m len) : k * m < len := by
  rcases Nat.eq_zero_or_pos m with rfl | hm
  · simp [chunkCount] at h
  · have h1 : k + 1 ≤ (len + m - 1) / m := h
    rw [Nat.le_div_iff_mul_le hm, Nat.succ_mul] at h1
    omega

/-- The bytes of the chunks before chunk `k` number `k*M` (R108: the offset reached). -/
theorem chunks_take_sum {m k : Nat} {b : List Byte} (h : k < chunkCount m b.length) :
    (((chunks m b).take k).map List.length).sum = k * m := by
  have h2 := chunk_start_lt h
  have ht : (chunks m b).take k = (List.range k).map (fun j => chunk m j b) := by
    rw [chunks, ← List.map_take, List.take_range, Nat.min_eq_left (by omega)]
  rw [ht, ← List.length_flatten, chunks_flatten_take, List.length_take]
  omega

theorem chunkCount_zero (m : Nat) : chunkCount m 0 = 0 := by
  rcases Nat.eq_zero_or_pos m with rfl | hm
  · simp [chunkCount]
  · simp only [chunkCount, Nat.zero_add]
    exact Nat.div_eq_of_lt (by omega)

/-! ### Draws -/

@[simp] theorem failNow_cons {s : State} {b : Bool} {rest : List Bool} (h : s.failIn = b :: rest) : failNow s = b := by
  simp [failNow, h]

@[simp] theorem busyNow_cons {s : State} {b : Bool} {rest : List Bool} (h : s.busyIn = b :: rest) : busyNow s = b := by
  simp [busyNow, h]

/-! ### The chunk loop (R108, R110) -/

@[simp] theorem sendChunks_busyIn (chs : List (List Byte)) (s : State) : (sendChunks chs s).busyIn = s.busyIn := by
  induction chs generalizing s with
  | nil => rfl
  | cons ch chs ih =>
    simp only [sendChunks]
    split
    · simp
    all_goals simp [ih]

@[simp] theorem sendChunks_elapsed (chs : List (List Byte)) (s : State) : (sendChunks chs s).elapsed = s.elapsed := by
  induction chs generalizing s with
  | nil => rfl
  | cons ch chs ih =>
    simp only [sendChunks]
    split
    · simp
    all_goals simp [ih]

@[simp] theorem sendChunks_dc (chs : List (List Byte)) (s : State) : (sendChunks chs s).dc = s.dc := by
  induction chs generalizing s with
  | nil => rfl
  | cons ch chs ih =>
    simp only [sendChunks]
    split
    · simp
    all_goals simp [ih]

/-- One turn of the loop, its transaction completing. -/
theorem sendChunks_turn (ch : List Byte) (chs : List (List Byte)) {s : State} (h : failNow s = false) :
    sendChunks (ch :: chs) s = sendChunks chs (setOff (s.seq.off + ch.length) (spiTxn ch s)) := by
  have hr := spiTxn_ret ch s
  rw [h] at hr
  simp only [Bool.false_eq_true, if_false] at hr
  simp only [sendChunks, hr, spiTxn_seq]

theorem sendChunks_noFail (chs : List (List Byte)) {s : State} {rest : List Bool}
    (h : s.failIn = List.replicate chs.length false ++ rest) :
    (sendChunks chs s).ret = .ok ∧ (sendChunks chs s).tr = s.tr ++ chs.map (Event.txn s.dc) ∧
      (sendChunks chs s).failIn = rest := by
  induction chs generalizing s with
  | nil => exact ⟨rfl, by simp [sendChunks], by simpa [sendChunks] using h⟩
  | cons ch chs ih =>
    rw [List.length_cons, List.replicate_succ, List.cons_append] at h
    have hf := failNow_cons h
    rw [sendChunks_turn ch chs hf]
    have hi := ih (s := setOff (s.seq.off + ch.length) (spiTxn ch s)) (by simp [h])
    refine ⟨hi.1, ?_, hi.2.2⟩
    rw [hi.2.1]
    simp [spiTxn_tr, txnEvent, hf]

theorem sendChunks_failsAt (chs : List (List Byte)) {s : State} {rest : List Bool} (n : Nat) {ch : List Byte}
    (hn : chs[n]? = some ch) (h : s.failIn = List.replicate n false ++ true :: rest) :
    (sendChunks chs s).ret = .busError (s.seq.off + ((chs.take n).map List.length).sum) ∧
      (sendChunks chs s).tr = s.tr ++ (chs.take n).map (Event.txn s.dc) ++ [.txnFail s.dc ch] ∧
      (sendChunks chs s).failIn = rest := by
  induction chs generalizing s n with
  | nil => simp at hn
  | cons c chs ih =>
    cases n with
    | zero =>
      simp only [List.getElem?_cons_zero, Option.some.injEq] at hn
      subst hn
      simp only [List.replicate_zero, List.nil_append] at h
      have hf := failNow_cons h
      have hr := spiTxn_ret c s
      rw [hf] at hr
      simp only [if_true] at hr
      simp only [sendChunks, hr, spiTxn_seq]
      simp [spiTxn_tr, txnEvent, hf, h]
    | succ n =>
      rw [List.replicate_succ, List.cons_append] at h
      have hf := failNow_cons h
      rw [sendChunks_turn c chs hf]
      have hi := ih (s := setOff (s.seq.off + c.length) (spiTxn c s)) n (by simpa using hn) (by simp [h])
      refine ⟨?_, ?_, hi.2.2⟩
      · rw [hi.1]
        simp [Nat.add_assoc]
      · rw [hi.2.1]
        simp [spiTxn_tr, txnEvent, hf]

/-! ### `WRITE_CMD` and `WRITE_DATA` -/

@[simp] theorem writeCmd_dc (code : Byte) (s : State) : (writeCmd code s).dc = false := by simp [writeCmd]

@[simp] theorem writeCmd_failIn (code : Byte) (s : State) : (writeCmd code s).failIn = s.failIn.tail := by
  simp [writeCmd]

@[simp] theorem writeCmd_busyIn (code : Byte) (s : State) : (writeCmd code s).busyIn = s.busyIn := by simp [writeCmd]

@[simp] theorem writeCmd_elapsed (code : Byte) (s : State) : (writeCmd code s).elapsed = s.elapsed := by
  simp [writeCmd]

theorem writeCmd_tr (code : Byte) (s : State) : (writeCmd code s).tr = s.tr ++ [.pin .dc false,
    if failNow s then .txnFail false [code] else .txn false [code]] := by
  cases h : failNow s <;> simp [writeCmd, spiTxn_tr, txnEvent, h]

@[simp] theorem writeData_dc (c : Cfg) (b : List Byte) (s : State) : (writeData c b s).dc = true := by simp [writeData]

@[simp] theorem writeData_busyIn (c : Cfg) (b : List Byte) (s : State) : (writeData c b s).busyIn = s.busyIn := by
  simp [writeData]

@[simp] theorem writeData_elapsed (c : Cfg) (b : List Byte) (s : State) : (writeData c b s).elapsed = s.elapsed := by
  simp [writeData]

theorem writeData_noFail (c : Cfg) (b : List Byte) {s : State} {rest : List Bool}
    (h : s.failIn = List.replicate (chunkCount c.maxChunk b.length) false ++ rest) :
    (writeData c b s).ret = .ok ∧
      (writeData c b s).tr = s.tr ++ .pin .dc true :: (chunks c.maxChunk b).map (Event.txn true) ∧
      (writeData c b s).failIn = rest := by
  have := sendChunks_noFail (chunks c.maxChunk b) (s := setOff 0 (setDc true s)) (rest := rest) (by simpa using h)
  refine ⟨this.1, ?_, this.2.2⟩
  rw [writeData, this.2.1]
  simp

theorem writeData_failsAt (c : Cfg) (b : List Byte) {s : State} {rest : List Bool} {n : Nat}
    (hn : n < chunkCount c.maxChunk b.length) (h : s.failIn = List.replicate n false ++ true :: rest) :
    (writeData c b s).ret = .busError (n * c.maxChunk) ∧
      (writeData c b s).tr = s.tr ++ .pin .dc true ::
        ((chunks c.maxChunk b).take n).map (Event.txn true) ++ [.txnFail true (chunk c.maxChunk n b)] ∧
      (writeData c b s).failIn = rest := by
  have := sendChunks_failsAt (chunks c.maxChunk b) (s := setOff 0 (setDc true s)) n (chunks_get hn) (by simpa using h)
  refine ⟨?_, ?_, this.2.2⟩
  · rw [writeData, this.1, chunks_take_sum hn]
    simp
  · rw [writeData, this.2.1]
    simp

/-- `WRITE_DATA` answers `Ok`, or `BusError` with the start of a chunk. -/
theorem writeData_ret (c : Cfg) (b : List Byte) (s : State) : (writeData c b s).ret = .ok ∨
    ∃ n, n < chunkCount c.maxChunk b.length ∧ (writeData c b s).ret = .busError (n * c.maxChunk) := by
  rcases sendChunks_ret (chunks c.maxChunk b) (setOff 0 (setDc true s)) with h | ⟨n, hn, h⟩
  · exact .inl h
  · rw [chunks_length] at hn
    refine .inr ⟨n, hn, ?_⟩
    rw [writeData, h, chunks_take_sum hn]
    simp

/-! ### The poll loop (R109) -/

theorem waitLoop_failIn (c : Cfg) (timeout fuel : Nat) (s : State) : (waitLoop c timeout fuel s).failIn = s.failIn := by
  induction fuel generalizing s with
  | zero => rfl
  | succ fuel ih =>
    simp only [waitLoop]
    split
    · simp
    · split
      · simp
      · simp [ih]

@[simp] theorem waitBusy_failIn (c : Cfg) (timeout : Nat) (s : State) :
    (waitBusy c timeout s).failIn = s.failIn := by simp [waitBusy, waitLoop_failIn]

theorem waitLoop_dc (c : Cfg) (timeout fuel : Nat) (s : State) : (waitLoop c timeout fuel s).dc = s.dc := by
  induction fuel generalizing s with
  | zero => rfl
  | succ fuel ih =>
    simp only [waitLoop]
    split
    · simp
    · split
      · simp
      · simp [ih]

@[simp] theorem waitBusy_dc (c : Cfg) (timeout : Nat) (s : State) : (waitBusy c timeout s).dc = s.dc := by
  simp [waitBusy, waitLoop_dc]

theorem waitLoop_cs (c : Cfg) (timeout fuel : Nat) (s : State) : (waitLoop c timeout fuel s).cs = s.cs := by
  induction fuel generalizing s with
  | zero => rfl
  | succ fuel ih =>
    simp only [waitLoop]
    split
    · simp
    · split
      · simp
      · simp [ih]

@[simp] theorem waitBusy_cs (c : Cfg) (timeout : Nat) (s : State) : (waitBusy c timeout s).cs = s.cs := by
  simp [waitBusy, waitLoop_cs]

theorem waitLoop_sclk (c : Cfg) (timeout fuel : Nat) (s : State) : (waitLoop c timeout fuel s).sclk = s.sclk := by
  induction fuel generalizing s with
  | zero => rfl
  | succ fuel ih =>
    simp only [waitLoop]
    split
    · simp
    · split
      · simp
      · simp [ih]

@[simp] theorem waitBusy_sclk (c : Cfg) (timeout : Nat) (s : State) : (waitBusy c timeout s).sclk = s.sclk := by
  simp [waitBusy, waitLoop_sclk]

theorem waitLoop_mosi (c : Cfg) (timeout fuel : Nat) (s : State) : (waitLoop c timeout fuel s).mosi = s.mosi := by
  induction fuel generalizing s with
  | zero => rfl
  | succ fuel ih =>
    simp only [waitLoop]
    split
    · simp
    · split
      · simp
      · simp [ih]

@[simp] theorem waitBusy_mosi (c : Cfg) (timeout : Nat) (s : State) : (waitBusy c timeout s).mosi = s.mosi := by
  simp [waitBusy, waitLoop_mosi]

@[simp] theorem send_elapsed (c : Cfg) (cmd : Byte) (p : List Byte) (s : State) :
    (send c cmd p s).elapsed = s.elapsed := by
  simp only [send]
  split
  · split
    · exact writeCmd_elapsed cmd s
    · exact (writeData_elapsed c p _).trans (writeCmd_elapsed cmd s)
  all_goals exact writeCmd_elapsed cmd s

@[simp] theorem sendAll_elapsed (c : Cfg) (gs : List GsvEntry) (s : State) : (sendAll c gs s).elapsed = s.elapsed := by
  induction gs generalizing s with
  | nil => rfl
  | cons g gs ih =>
    simp only [sendAll]
    split
    · rw [ih, send_elapsed]
    all_goals exact send_elapsed c g.cmd g.params s

/-- A turn of the poll loop whose sample reads 0 ends it. -/
theorem waitLoop_clear (c : Cfg) (timeout fuel : Nat) {s : State} (h : busyNow s = false) :
    waitLoop c timeout (fuel + 1) s = answer .ok (readBusy s) := by
  simp [waitLoop, h]

/-- A turn of the poll loop whose sample reads 1 after the timeout ends it. -/
theorem waitLoop_expired (c : Cfg) (timeout fuel : Nat) {s : State} (h : busyNow s = true) (ht : timeout ≤ s.elapsed) :
    waitLoop c timeout (fuel + 1) s = answer .timeout (readBusy s) := by
  simp [waitLoop, h, ht]

/-- A turn of the poll loop whose sample reads 1 before the timeout waits and goes on. -/
theorem waitLoop_turn (c : Cfg) (timeout fuel : Nat) {s : State} (h : busyNow s = true) (ht : s.elapsed < timeout) :
    waitLoop c timeout (fuel + 1) s =
      waitLoop c timeout fuel (setElapsed (s.elapsed + c.pollInterval) (delay c.pollInterval (readBusy s))) := by
  simp [waitLoop, h, Nat.not_le.mpr ht]

/-- The loop under a script: `n` ones, then a zero, in time. -/
theorem waitLoop_clears (c : Cfg) (timeout : Nat) (n fuel : Nat) {s : State} {rest : List Bool} (hf : n < fuel)
    (h : s.busyIn = List.replicate n true ++ false :: rest)
    (ht : ∀ i, i < n → s.elapsed + i * c.pollInterval < timeout) :
    (waitLoop c timeout fuel s).ret = .ok ∧ (waitLoop c timeout fuel s).tr = s.tr ++ clearEvents c n ∧
      (waitLoop c timeout fuel s).elapsed = s.elapsed + n * c.pollInterval ∧
      (waitLoop c timeout fuel s).busyIn = rest := by
  induction n generalizing s fuel with
  | zero =>
    obtain ⟨fuel, rfl⟩ := Nat.exists_eq_add_of_lt hf
    simp only [Nat.zero_add]
    simp only [List.replicate_zero, List.nil_append] at h
    rw [waitLoop_clear c timeout fuel (busyNow_cons h)]
    simp [clearEvents, busyNow_cons h, h]
  | succ n ih =>
    obtain ⟨fuel, rfl⟩ : ∃ k, fuel = k + 1 := ⟨fuel - 1, by omega⟩
    rw [List.replicate_succ, List.cons_append] at h
    have h0 := ht 0 (by omega)
    rw [waitLoop_turn c timeout fuel (busyNow_cons h) (by omega)]
    have hi := ih fuel (s := setElapsed (s.elapsed + c.pollInterval) (delay c.pollInterval (readBusy s))) (by omega)
      (by simp [h]) (fun i hi => by
        have := ht (i + 1) (by omega)
        rw [Nat.succ_mul] at this
        simp only [setElapsed_elapsed]
        omega)
    refine ⟨hi.1, ?_, ?_, hi.2.2.2⟩
    · rw [hi.2.1]
      simp [clearEvents, busyNow_cons h, List.replicate_succ]
    · rw [hi.2.2.1, Nat.succ_mul, setElapsed_elapsed]
      omega

/-- The loop under a script of ones only: it times out after `n` turns. -/
theorem waitLoop_stays (c : Cfg) (timeout : Nat) (n fuel : Nat) {s : State} {rest : List Bool} (hf : n < fuel)
    (h : s.busyIn = List.replicate (n + 1) true ++ rest) (ht : ∀ i, i < n → s.elapsed + i * c.pollInterval < timeout)
    (hN : timeout ≤ s.elapsed + n * c.pollInterval) :
    (waitLoop c timeout fuel s).ret = .timeout ∧ (waitLoop c timeout fuel s).tr = s.tr ++ stuckEvents c n ∧
      (waitLoop c timeout fuel s).elapsed = s.elapsed + n * c.pollInterval := by
  induction n generalizing s fuel with
  | zero =>
    obtain ⟨fuel, rfl⟩ : ∃ k, fuel = k + 1 := ⟨fuel - 1, by omega⟩
    rw [List.replicate_succ, List.cons_append] at h
    rw [waitLoop_expired c timeout fuel (busyNow_cons h) (by simpa using hN)]
    simp [stuckEvents, busyNow_cons h]
  | succ n ih =>
    obtain ⟨fuel, rfl⟩ : ∃ k, fuel = k + 1 := ⟨fuel - 1, by omega⟩
    rw [List.replicate_succ, List.cons_append] at h
    have h0 := ht 0 (by omega)
    rw [waitLoop_turn c timeout fuel (busyNow_cons h) (by omega)]
    have hi := ih fuel (s := setElapsed (s.elapsed + c.pollInterval) (delay c.pollInterval (readBusy s))) (by omega)
      (by simp [h]) (fun i hi => by
        have := ht (i + 1) (by omega)
        rw [Nat.succ_mul] at this
        simp only [setElapsed_elapsed]
        omega)
      (by
        rw [Nat.succ_mul] at hN
        simp only [setElapsed_elapsed]
        omega)
    refine ⟨hi.1, ?_, ?_⟩
    · rw [hi.2.1]
      simp [stuckEvents, busyNow_cons h, List.replicate_succ]
    · rw [hi.2.2, Nat.succ_mul, setElapsed_elapsed]
      omega

/-- The loop whatever the environment answers: it clears after some `n` ones, or times out after `N`. -/
theorem waitLoop_bounded (c : Cfg) (timeout : Nat) (N fuel : Nat) (s : State) (hf : N < fuel)
    (ht : ∀ i, i < N → s.elapsed + i * c.pollInterval < timeout) (hN : timeout ≤ s.elapsed + N * c.pollInterval) :
    ∃ n, n ≤ N ∧ (waitLoop c timeout fuel s).elapsed = s.elapsed + n * c.pollInterval ∧
      (((waitLoop c timeout fuel s).ret = .ok ∧ (waitLoop c timeout fuel s).tr = s.tr ++ clearEvents c n) ∨
      ((waitLoop c timeout fuel s).ret = .timeout ∧ n = N ∧
        (waitLoop c timeout fuel s).tr = s.tr ++ stuckEvents c n)) := by
  induction N generalizing s fuel with
  | zero =>
    obtain ⟨fuel, rfl⟩ : ∃ k, fuel = k + 1 := ⟨fuel - 1, by omega⟩
    refine ⟨0, by omega, ?_⟩
    cases hb : busyNow s
    · rw [waitLoop_clear c timeout fuel hb]
      simp [clearEvents, hb]
    · rw [waitLoop_expired c timeout fuel hb (by simpa using hN)]
      simp [stuckEvents, hb]
  | succ N ih =>
    obtain ⟨fuel, rfl⟩ : ∃ k, fuel = k + 1 := ⟨fuel - 1, by omega⟩
    cases hb : busyNow s
    · rw [waitLoop_clear c timeout fuel hb]
      exact ⟨0, by omega, by simp, .inl ⟨rfl, by simp [clearEvents, hb]⟩⟩
    · have h0 := ht 0 (by omega)
      rw [waitLoop_turn c timeout fuel hb (by omega)]
      obtain ⟨n, hn, he, hr⟩ := ih fuel (setElapsed (s.elapsed + c.pollInterval) (delay c.pollInterval (readBusy s)))
        (by omega)
        (fun i hi => by
          have := ht (i + 1) (by omega)
          rw [Nat.succ_mul] at this
          simp only [setElapsed_elapsed]
          omega)
        (by
          rw [Nat.succ_mul] at hN
          simp only [setElapsed_elapsed]
          omega)
      refine ⟨n + 1, by omega, ?_, ?_⟩
      · rw [he, Nat.succ_mul, setElapsed_elapsed]
        omega
      · rcases hr with ⟨hr, htr⟩ | ⟨hr, hnN, htr⟩
        · refine .inl ⟨hr, ?_⟩
          rw [htr]
          simp [clearEvents, hb, List.replicate_succ]
        · refine .inr ⟨hr, by omega, ?_⟩
          rw [htr]
          simp [stuckEvents, hb, List.replicate_succ]

/-- The turns a poll loop has before its timeout (R109). -/
theorem pollTurns_spec (c : Cfg) (hp : 1 ≤ c.pollInterval) (timeout : Nat) :
    (∀ i, i < pollTurns c timeout → i * c.pollInterval < timeout) ∧
      timeout ≤ pollTurns c timeout * c.pollInterval ∧ pollTurns c timeout < timeout + 1 := by
  have hcov : timeout ≤ pollTurns c timeout * c.pollInterval := chunkCount_covers hp timeout
  have hlt : ∀ i, i < pollTurns c timeout → i * c.pollInterval < timeout := fun i hi => chunk_start_lt hi
  refine ⟨hlt, hcov, ?_⟩
  rcases Nat.eq_zero_or_pos (pollTurns c timeout) with h | h
  · omega
  · have := hlt (pollTurns c timeout - 1) (by omega)
    have h2 : pollTurns c timeout - 1 ≤ (pollTurns c timeout - 1) * c.pollInterval := Nat.le_mul_of_pos_right _ hp
    omega

theorem hw_poll_pos : 1 ≤ hw.pollInterval := Nat.succ_le_succ (Nat.zero_le _)

/-- `WAIT_BUSY` when the busy line clears in time (R109). -/
theorem waitBusy_clears (c : Cfg) (hp : 1 ≤ c.pollInterval) {timeout : Nat} {n : Nat} {s : State}
    {rest : List Bool} (h : s.busyIn = List.replicate n true ++ false :: rest) (ht : clearsInTime c timeout n) :
    (waitBusy c timeout s).ret = .ok ∧ (waitBusy c timeout s).tr = s.tr ++ clearEvents c n ∧
      (waitBusy c timeout s).elapsed = n * c.pollInterval ∧ (waitBusy c timeout s).busyIn = rest := by
  have hi : ∀ i, i < n → i * c.pollInterval < timeout := by
    intro i hi
    rcases ht with rfl | ht
    · omega
    · exact Nat.lt_of_le_of_lt (Nat.mul_le_mul_right _ (by omega)) ht
  have hn : n < timeout + 1 := by
    rcases Nat.eq_zero_or_pos n with rfl | hn
    · omega
    · have := hi (n - 1) (by omega)
      have h2 : n - 1 ≤ (n - 1) * c.pollInterval := Nat.le_mul_of_pos_right _ hp
      omega
  have := waitLoop_clears c timeout n (timeout + 1) (s := setElapsed 0 s) hn h (by simpa using hi)
  simpa [waitBusy] using this

/-- `WAIT_BUSY` whatever the environment answers (R109). -/
theorem waitBusy_bounded (c : Cfg) (hp : 1 ≤ c.pollInterval) (timeout : Nat) (s : State) :
    ∃ n, n ≤ pollTurns c timeout ∧ (waitBusy c timeout s).elapsed = n * c.pollInterval ∧
      (((waitBusy c timeout s).ret = .ok ∧ (waitBusy c timeout s).tr = s.tr ++ clearEvents c n) ∨
      ((waitBusy c timeout s).ret = .timeout ∧ n = pollTurns c timeout ∧
        (waitBusy c timeout s).tr = s.tr ++ stuckEvents c n)) := by
  obtain ⟨h1, h2, h3⟩ := pollTurns_spec c hp timeout
  have := waitLoop_bounded c timeout (pollTurns c timeout) (timeout + 1) (setElapsed 0 s) h3 (by simpa using h1)
    (by simpa using h2)
  simpa [waitBusy] using this

end Sys2Proof.Machine
end

