-- ==== Sys2Proof/Laws/Sequencer.lean ====
section
/-!
SUPPORT. What the sequencer can do: one micro-operation, a stretch of micro-operations that use the bus only, and such a
stretch under a script of the environment (R13, R148, R149 to R154).
-/

namespace Sys2Proof.Machine

/-! ### Advancing and ending -/

theorem settle_ok {s : State} (h : s.ret = .ok) : settle s = advance s := by simp [settle, h]

theorem settle_busError {s : State} {off : Nat} (h : s.ret = .busError off) : settle s = abort (.busError off) s := by
  simp [settle, h]

theorem settle_timeout {s : State} (h : s.ret = .timeout) : settle s = abort .timeout s := by simp [settle, h]

/-- An operation that has a micro-program (R13). -/
def SeqOp.Programmed (op : SeqOp) : Prop := op = .init ∨ op = .display ∨ op = .sleep

theorem SeqOp.Programmed.ne_idle {op : SeqOp} (h : op.Programmed) : op ≠ .idle := by
  rcases h with rfl | rfl | rfl <;> decide

theorem SeqOp.Programmed.ne_encode {op : SeqOp} (h : op.Programmed) : op ≠ .encode := by
  rcases h with rfl | rfl | rfl <;> decide

/-- An abort inside a micro-program leaves the block idle. -/
theorem abort_seq (cause : Ret) {s : State} (h : s.seq.op.Programmed) : (abort cause s).seq = ⟨.idle, 0, 0⟩ := by
  rcases h with h | h | h <;> cases cause <;> simp [abort, h]

theorem settle_seq {s : State} (h : s.seq.op.Programmed) :
    (settle s).seq = ⟨.idle, 0, 0⟩ ∨ (settle s).seq = ⟨s.seq.op, s.seq.step + 1, 0⟩ := by
  unfold settle
  split
  · exact .inr rfl
  · exact .inr rfl
  · exact .inl (abort_seq _ h)
  · exact .inl (abort_seq _ h)

/-- Where `SEQ` is after one micro-operation (R13, R148). -/
theorem uopStep_seq (c : Cfg) (u : UOp) {s : State} (h : s.seq.op.Programmed) :
    (uopStep c u s).seq = ⟨.idle, 0, 0⟩ ∨ (uopStep c u s).seq = ⟨s.seq.op, s.seq.step + 1, 0⟩ := by
  cases u with
  | writeCmd code => simpa [uopStep] using settle_seq (s := writeCmd code s) (by simpa using h)
  | writeData src =>
    have hb := (writeData_busOnly c (sourceBytes c s src) s).keeps
    simpa [uopStep, hb.op, hb.step] using settle_seq (s := writeData c (sourceBytes c s src) s) (by rw [hb.op]; exact h)
  | waitBusy timeout => simpa [uopStep] using settle_seq (s := waitBusy c timeout s) (by simpa using h)
  | setPwr l => simpa [uopStep] using settle_seq (s := setPwr l s) (by simpa using h)
  | setRst l => simpa [uopStep] using settle_seq (s := setRst l s) (by simpa using h)
  | delay d => simpa [uopStep] using settle_seq (s := delay d s) (by simpa using h)
  | setSt p => exact .inr rfl
  | ret r => exact .inl rfl

theorem runProg_go {c : Cfg} {u : UOp} {us : List UOp} {s : State} (h : (uopStep c u s).seq.op ≠ .idle) :
    runProg c (u :: us) s = runProg c us (uopStep c u s) := by
  simp only [runProg]
  rw [if_neg h]

theorem runProg_stop {c : Cfg} {u : UOp} {us : List UOp} {s : State} (h : (uopStep c u s).seq.op = .idle) :
    runProg c (u :: us) s = uopStep c u s := by
  simp only [runProg]
  rw [if_pos h]

theorem runProg_ret (c : Cfg) (r : OpResult) (us : List UOp) (s : State) :
    runProg c (.ret r :: us) s = deliver r s := runProg_stop rfl

theorem runProg_setSt {c : Cfg} {p : PanelState} {us : List UOp} {s : State} (h : s.seq.op ≠ .idle) :
    runProg c (.setSt p :: us) s = runProg c us (advance { s with st := p }) := runProg_go h

/-- The end of every micro-program: `SETST`, `RET Ok`. -/
theorem runProg_end {c : Cfg} {p : PanelState} {s : State} (h : s.seq.op ≠ .idle) :
    runProg c [.setSt p, .ret .ok] s = deliver .ok (advance { s with st := p }) := by
  rw [runProg_setSt h, runProg_ret]

/-- Running micro-operations one step at a time is running the program (R148). -/
theorem run_runProg (pre us : List UOp) (r : OpResult) (s : State) (h : s.seq.op.Programmed)
    (hp : microProgram hw s.seq.op = pre ++ (us ++ [.ret r])) (hs : s.seq.step = pre.length) :
    ∃ k, Host.Core.run Sys2Proof.core k s = .next (runProg hw (us ++ [.ret r]) s) := by
  have hstep : ∀ u rest, us ++ [.ret r] = u :: rest → step s = .next (uopStep hw u s) := by
    intro u rest hu
    rw [step, if_neg h.ne_idle, resume, if_neg h.ne_encode, hp, hs, hu]
    simp
  induction us generalizing pre s with
  | nil =>
    refine ⟨1, ?_⟩
    have := hstep (.ret r) [] rfl
    simp only [Host.Core.run, Sys2Proof.core, this, List.nil_append, runProg_ret]
    rfl
  | cons u us ih =>
    have h1 := hstep u (us ++ [.ret r]) rfl
    rcases uopStep_seq hw u h with hq | hq
    · refine ⟨1, ?_⟩
      rw [List.cons_append, runProg_stop (by rw [hq])]
      simp only [Host.Core.run, Sys2Proof.core, h1]
    · have hop : (uopStep hw u s).seq.op = s.seq.op := by rw [hq]
      obtain ⟨k, hk⟩ := ih (pre ++ [u]) (uopStep hw u s) (by rw [hop]; exact h) (by rw [hop, hp]; simp)
        (by rw [hq]; simp [hs]) (by
          intro v rest hv
          rw [step, if_neg (by rw [hop]; exact h.ne_idle), resume, if_neg (by rw [hop]; exact h.ne_encode), hop, hp, hq]
          simp [hs, hv])
      refine ⟨k + 1, ?_⟩
      rw [List.cons_append, runProg_go (by rw [hop]; exact h.ne_idle), ← hk]
      simp only [Host.Core.run, Sys2Proof.core, h1]

/-! ### What an operation in progress keeps -/

theorem PanelKeeps.refl (s : State) : PanelKeeps s s := by constructor <;> rfl

theorem PanelKeeps.trans {s t u : State} (h : PanelKeeps s t) (k : PanelKeeps t u) : PanelKeeps s u where
  bmpLen := k.bmpLen.trans h.bmpLen
  thresh := k.thresh.trans h.thresh
  invert := k.invert.trans h.invert
  imgW := k.imgW.trans h.imgW
  imgH := k.imgH.trans h.imgH
  imgDepth := k.imgDepth.trans h.imgDepth
  bmp := k.bmp.trans h.bmp
  img := k.img.trans h.img
  pending := k.pending.trans h.pending
  bench := k.bench.trans h.bench

theorem BusKeeps.panelKeeps {s t : State} (h : BusKeeps s t) : PanelKeeps s t :=
  ⟨h.bmpLen, h.thresh, h.invert, h.imgW, h.imgH, h.imgDepth, h.bmp, h.img, h.pending, h.bench⟩

/-- Inside an operation: events appended, and only the bus used. -/
structure Along (s : State) (evs : List Event) (t : State) : Prop where
  run : Run s evs t
  keeps : PanelKeeps s t
  st : t.st = s.st
  op : t.seq.op = s.seq.op
  latch : t.latch = s.latch
  pwr : t.pwr = s.pwr
  rst : t.rst = s.rst
  status : t.status = s.status
  offset : t.offset = s.offset

theorem Along.of_bus {s t : State} {evs : List Event} (h : Run s evs t) (k : BusOnly s t) : Along s evs t :=
  ⟨h, k.keeps.panelKeeps, k.keeps.st, k.keeps.op, k.keeps.latch, k.pwr, k.rst, k.keeps.status, k.keeps.offset⟩

theorem Along.refl (s : State) : Along s [] s := .of_bus (.refl s) (.refl s)

theorem Along.trans {s t u : State} {xs ys : List Event} (h : Along s xs t) (k : Along t ys u) :
    Along s (xs ++ ys) u :=
  ⟨h.run.trans k.run, h.keeps.trans k.keeps, k.st.trans h.st, k.op.trans h.op, k.latch.trans h.latch,
    k.pwr.trans h.pwr, k.rst.trans h.rst, k.status.trans h.status, k.offset.trans h.offset⟩

theorem advance_along (s : State) : Along s [] (advance s) := by
  refine ⟨advance_run s, ?_, rfl, rfl, rfl, rfl, rfl, rfl, rfl⟩
  constructor <;> rfl

theorem Along.advance {s t : State} {evs : List Event} (h : Along s evs t) :
    Along s evs (Sys2Proof.Machine.advance t) := by simpa using h.trans (advance_along t)

/-! ### Stretches that use the bus only, whatever the environment answers -/

/-- The micro-operations that touch neither the power line, nor the reset line, nor `ST`. -/
def UOp.usesBus : UOp → Bool
  | .writeCmd _ | .writeData _ | .waitBusy _ | .delay _ => true
  | .setPwr _ | .setRst _ | .setSt _ | .ret _ => false

/-- How many bytes a source names. -/
def Src.size (c : Cfg) : Src → Nat
  | .lit bytes => bytes.length
  | .bmpInv => c.bmpBytes
  | .bmp => c.bmpBytes

theorem sourceBytes_length (c : Cfg) (s : State) (src : Src) : (sourceBytes c s src).length = Src.size c src := by
  cases src <;> simp [sourceBytes, Src.size, latchBytes]

/-- The failures a micro-operation may end with (R111). -/
def UOp.MayEnd (u : UOp) (cause : Ret) : Prop :=
  match u with
  | .writeCmd _ => cause = .busError 0
  | .writeData src => ∃ n, n < chunkCount hw.maxChunk (Src.size hw src) ∧ cause = .busError (n * hw.maxChunk)
  | .waitBusy _ => cause = .timeout
  | .setPwr _ | .setRst _ | .delay _ | .setSt _ | .ret _ => False

/-- One bus micro-operation: it advances, or ends the operation with a failure of its own (R148). -/
theorem uopStep_bus {u : UOp} (hu : u.usesBus = true) (s : State) :
    ∃ t evs, Along s evs t ∧ t.seq.step = s.seq.step ∧ ((∀ d, u ≠ .waitBusy d) → t.elapsed = s.elapsed) ∧
      (uopStep hw u s = advance t ∨ ∃ cause, u.MayEnd cause ∧ uopStep hw u s = abort cause t) := by
  cases u with
  | writeCmd code =>
    refine ⟨_, _, .of_bus (writeCmd_run code s) (writeCmd_busOnly code s), by simp, by simp, ?_⟩
    have hr := writeCmd_ret code s
    split at hr
    · exact .inr ⟨_, rfl, settle_busError hr⟩
    · exact .inl (settle_ok hr)
  | writeData src =>
    obtain ⟨evs, hr, -⟩ := writeData_run (sourceBytes hw s src) s
    have hb := writeData_busOnly hw (sourceBytes hw s src) s
    refine ⟨_, _, .of_bus hr hb, hb.keeps.step, by simp, ?_⟩
    rcases writeData_ret hw (sourceBytes hw s src) s with h | ⟨n, hn, h⟩
    · exact .inl (settle_ok h)
    · rw [sourceBytes_length] at hn
      exact .inr ⟨_, ⟨n, hn, rfl⟩, settle_busError h⟩
  | waitBusy timeout =>
    obtain ⟨evs, hr, -⟩ := waitBusy_run hw timeout s
    refine ⟨_, _, .of_bus hr (waitBusy_busOnly hw timeout s), by simp, by simp, ?_⟩
    rcases waitBusy_ret hw timeout s with h | h
    · exact .inl (settle_ok h)
    · exact .inr ⟨_, rfl, settle_timeout h⟩
  | delay d => exact ⟨_, _, .of_bus (delay_run d s) (delay_busOnly d s), by simp, by simp, .inl (settle_ok (s := delay d s) rfl)⟩
  | setPwr l => simp [UOp.usesBus] at hu
  | setRst l => simp [UOp.usesBus] at hu
  | setSt p => simp [UOp.usesBus] at hu
  | ret r => simp [UOp.usesBus] at hu

/-- A stretch of bus micro-operations: the program goes on behind it, or one of them ends the operation. -/
theorem runProg_bus {pre : List UOp} (rest : List UOp) (s : State) (hpre : ∀ u ∈ pre, u.usesBus = true)
    (h : s.seq.op.Programmed) :
    ∃ t evs, Along s evs t ∧ ((∀ d, .waitBusy d ∉ pre) → t.elapsed = s.elapsed) ∧
      ((runProg hw (pre ++ rest) s = runProg hw rest t ∧ t.seq.step = s.seq.step + pre.length) ∨
        ∃ u ∈ pre, ∃ cause, u.MayEnd cause ∧ runProg hw (pre ++ rest) s = abort cause t) := by
  induction pre generalizing s with
  | nil => exact ⟨s, [], .refl s, fun _ => rfl, .inl ⟨rfl, rfl⟩⟩
  | cons u pre ih =>
    obtain ⟨t, evs, ha, hst, he, hstep | ⟨cause, hc, hstep⟩⟩ := uopStep_bus (hpre u (by simp)) s
    · obtain ⟨t', evs', ha', he', hr⟩ := ih (advance t) (fun v hv => hpre v (by simp [hv]))
        (by rw [advance_seq]; simpa [ha.op] using h)
      refine ⟨t', evs ++ evs', ha.advance.trans ha', fun hd => ?_, ?_⟩
      · rw [he' fun d hd' => hd d (by simp [hd']), advance_elapsed]
        exact he fun d hd' => hd d (by simp [hd'])
      · rw [List.cons_append, runProg_go (by rw [hstep, advance_seq]; simpa [ha.op] using h.ne_idle), hstep]
        rcases hr with ⟨hr, hs⟩ | ⟨v, hv, cause, hc, hr⟩
        · refine .inl ⟨hr, ?_⟩
          rw [hs, advance_seq, List.length_cons, ← hst]
          simp only
          omega
        · exact .inr ⟨v, by simp [hv], cause, hc, hr⟩
    · refine ⟨t, evs, ha, fun hd => he fun d hd' => hd d (by simp [hd']), .inr ⟨u, by simp, cause, hc, ?_⟩⟩
      rw [List.cons_append, runProg_stop, hstep]
      rw [hstep, abort_seq _ (by rw [ha.op]; exact h)]

/-! ### Stretches under a script -/

theorem NoFail.mono {n m : Nat} {s : State} (h : NoFail n s) (hm : m ≤ n) : NoFail m s := by
  obtain ⟨rest, h⟩ := h
  refine ⟨List.replicate (n - m) false ++ rest, ?_⟩
  rw [h, ← List.append_assoc, List.replicate_append_replicate, Nat.add_sub_cancel' hm]

theorem NoFail.first {n : Nat} {s : State} (h : NoFail n s) (hn : 1 ≤ n) : failNow s = false := by
  obtain ⟨rest, h⟩ := h.mono hn
  exact failNow_cons h

theorem NoFail.drop {n k : Nat} {s t : State} (h : NoFail (n + k) s) (ht : t.failIn = s.failIn.drop n) :
    NoFail k t := by
  obtain ⟨rest, h⟩ := h
  exact ⟨rest, by rw [ht, h, ← List.replicate_append_replicate, List.append_assoc, List.drop_left' (by simp)]⟩

theorem FailsAt.drop {n k : Nat} {s t : State} (h : FailsAt (n + k) s) (ht : t.failIn = s.failIn.drop n) :
    FailsAt k t := by
  obtain ⟨rest, h⟩ := h
  exact ⟨rest, by rw [ht, h, ← List.replicate_append_replicate, List.append_assoc, List.drop_left' (by simp)]⟩

theorem FailsAt.noFail {n : Nat} {s : State} (h : FailsAt n s) : NoFail n s := by
  obtain ⟨rest, h⟩ := h
  exact ⟨true :: rest, h⟩

theorem FailsAt.now {s : State} (h : FailsAt 0 s) : failNow s = true := by
  obtain ⟨rest, h⟩ := h
  exact failNow_cons h

/-- Inside an operation, `nf` answers of `draw_fail()` used up, and of `draw_busy()` none. -/
structure Sent (s : State) (evs : List Event) (nf : Nat) (t : State) : Prop where
  along : Along s evs t
  failIn : t.failIn = s.failIn.drop nf
  busyIn : t.busyIn = s.busyIn
  elapsed : t.elapsed = s.elapsed

theorem Sent.trans {s t u : State} {xs ys : List Event} {n m : Nat} (h : Sent s xs n t) (k : Sent t ys m u) :
    Sent s (xs ++ ys) (n + m) u :=
  ⟨h.along.trans k.along, by rw [k.failIn, h.failIn, List.drop_drop], k.busyIn.trans h.busyIn,
    k.elapsed.trans h.elapsed⟩

theorem Sent.refl (s : State) : Sent s [] 0 s := ⟨.refl s, by simp, rfl, rfl⟩

theorem Sent.advance {s t : State} {evs : List Event} {n : Nat} (h : Sent s evs n t) :
    Sent s evs n (Sys2Proof.Machine.advance t) := ⟨h.along.advance, h.failIn, h.busyIn, h.elapsed⟩

theorem Sent.endData {s t : State} {evs : List Event} {n : Nat} (h : Sent s evs n t) :
    Sent s evs n (Sys2Proof.Machine.endData t) where
  along := by simpa using h.along.trans (.of_bus (endData_run t) (endData_busOnly t))
  failIn := h.failIn
  busyIn := h.busyIn
  elapsed := h.elapsed

theorem txnEvent_ok {s : State} {bytes : List Byte} (h : failNow s = false) : txnEvent s bytes = .txn s.dc bytes := by
  simp [txnEvent, h]

theorem writeCmd_sent {code : Byte} {s : State} (h : failNow s = false) :
    Sent s [.pin .dc false, .txn false [code]] 1 (writeCmd code s) ∧ (writeCmd code s).ret = .ok := by
  refine ⟨⟨.of_bus ?_ (writeCmd_busOnly code s), by simp, by simp, by simp⟩, by simp [writeCmd_ret, h]⟩
  have := writeCmd_run code s
  rwa [txnEvent_ok (by simpa using h)] at this

/-- The events of the data part of a frame (R110). -/
def dataEvents (c : Cfg) (b : List Byte) : List Event := .pin .dc true :: (chunks c.maxChunk b).map (Event.txn true)

theorem writeData_sent {b : List Byte} {s : State} (h : NoFail (chunkCount hw.maxChunk b.length) s) :
    Sent s (dataEvents hw b) (chunkCount hw.maxChunk b.length) (writeData hw b s) ∧
      (writeData hw b s).ret = .ok := by
  obtain ⟨rest, h⟩ := h
  obtain ⟨hr, htr, hf⟩ := writeData_noFail hw b h
  obtain ⟨evs, hrun, -⟩ := writeData_run b s
  have he : .pin .dc true :: evs = dataEvents hw b := by
    have := hrun.tr
    rw [htr] at this
    exact (List.append_cancel_left this).symm
  rw [he] at hrun
  exact ⟨⟨.of_bus hrun (writeData_busOnly hw b s), by rw [hf, h, List.drop_left' (by simp)], by simp, by simp⟩, hr⟩

theorem txnCount_append (xs ys : List Event) : txnCount (xs ++ ys) = txnCount xs + txnCount ys := by
  simp [txnCount]

theorem txnCount_txns (d : Bool) (chs : List (List Byte)) : txnCount (chs.map (Event.txn d)) = chs.length := by
  rw [txnCount, List.countP_eq_length.mpr]
  · simp
  · intro e he
    obtain ⟨b, -, rfl⟩ := List.mem_map.mp he
    rfl

@[simp] theorem txnCount_dataEvents (c : Cfg) (b : List Byte) :
    txnCount (dataEvents c b) = chunkCount c.maxChunk b.length := by
  have := txnCount_txns true (chunks c.maxChunk b)
  rw [chunks_length] at this
  rw [dataEvents, ← this]
  rfl

theorem sendEvents_eq (c : Cfg) (cmd : Byte) (p : List Byte) :
    sendEvents c cmd p = [.pin .dc false, .txn false [cmd]] ++ (if p = [] then [] else dataEvents c p) := rfl

theorem txnCount_sendEvents (c : Cfg) (cmd : Byte) (p : List Byte) :
    txnCount (sendEvents c cmd p) = 1 + chunkCount c.maxChunk p.length := by
  rw [sendEvents_eq, txnCount_append]
  split
  · subst p
    simp [txnCount, Event.isTxn, chunkCount_zero]
  · simp [txnCount_dataEvents, show txnCount [.pin .dc false, .txn false [cmd]] = 1 from rfl]

/-- `SEND`, nothing failing (R130). -/
theorem send_sent {cmd : Byte} {p : List Byte} {s : State} (h : NoFail (txnCount (sendEvents hw cmd p)) s) :
    Sent s (sendEvents hw cmd p) (txnCount (sendEvents hw cmd p)) (send hw cmd p s) ∧
      (send hw cmd p s).ret = .ok := by
  rw [txnCount_sendEvents] at h ⊢
  obtain ⟨h1, r1⟩ := writeCmd_sent (code := cmd) (h.first (by omega))
  simp only [send, r1, sendEvents_eq]
  split
  · subst p
    exact ⟨by simpa [chunkCount_zero] using h1, r1⟩
  · obtain ⟨h2, r2⟩ := writeData_sent (b := p) (h.drop h1.failIn)
    exact ⟨(h1.trans h2).endData, r2⟩

/-- `SEND` of each element of a list, nothing failing (R133). -/
theorem sendAll_sent {gs : List GsvEntry} {s : State}
    (h : NoFail (txnCount (gs.flatMap (fun g => sendEvents hw g.cmd g.params))) s) :
    Sent s (gs.flatMap (fun g => sendEvents hw g.cmd g.params))
      (txnCount (gs.flatMap (fun g => sendEvents hw g.cmd g.params))) (sendAll hw gs s) ∧
      (sendAll hw gs s).ret = .ok := by
  induction gs generalizing s with
  | nil => exact ⟨⟨.of_bus (answer_run _ s) (answer_busOnly _ s), by simp [sendAll, txnCount], rfl, rfl⟩, rfl⟩
  | cons g gs ih =>
    rw [List.flatMap_cons, txnCount_append] at h ⊢
    obtain ⟨h1, r1⟩ := send_sent (h.mono (Nat.le_add_right _ _))
    obtain ⟨h2, r2⟩ := ih (h.drop h1.failIn)
    simp only [sendAll, r1]
    exact ⟨h1.trans h2, r2⟩

theorem runProg_writeCmd {code : Byte} {s : State} (rest : List UOp) (hop : s.seq.op ≠ .idle)
    (h : failNow s = false) :
    runProg hw (.writeCmd code :: rest) s = runProg hw rest (advance (writeCmd code s)) := by
  have hu : uopStep hw (.writeCmd code) s = advance (writeCmd code s) := settle_ok (writeCmd_sent h).2
  rw [runProg_go (by rw [hu]; simpa using hop), hu]

theorem runProg_writeData {src : Src} {s : State} (rest : List UOp) (hop : s.seq.op ≠ .idle)
    (h : NoFail (chunkCount hw.maxChunk (sourceBytes hw s src).length) s) :
    runProg hw (.writeData src :: rest) s = runProg hw rest (advance (writeData hw (sourceBytes hw s src) s)) := by
  have hu : uopStep hw (.writeData src) s = advance (writeData hw (sourceBytes hw s src) s) :=
    settle_ok (writeData_sent h).2
  rw [runProg_go (by rw [hu]; simpa [(writeData_busOnly hw (sourceBytes hw s src) s).keeps.op] using hop), hu]

theorem runProg_delay {d : Nat} {s : State} (rest : List UOp) (hop : s.seq.op ≠ .idle) :
    runProg hw (.delay d :: rest) s = runProg hw rest (advance (delay d s)) := runProg_go hop

theorem runProg_setPwr {l : Bool} {s : State} (rest : List UOp) (hop : s.seq.op ≠ .idle) :
    runProg hw (.setPwr l :: rest) s = runProg hw rest (advance (setPwr l s)) := runProg_go hop

theorem runProg_setRst {l : Bool} {s : State} (rest : List UOp) (hop : s.seq.op ≠ .idle) :
    runProg hw (.setRst l :: rest) s = runProg hw rest (advance (setRst l s)) := runProg_go hop

/-- The micro-operations of one wire command with literal parameters, nothing failing (R130, R149). -/
theorem runProg_send {cmd : Byte} {p : List Byte} {s : State} (rest : List UOp) (hop : s.seq.op ≠ .idle)
    (h : NoFail (txnCount (sendEvents hw cmd p)) s) :
    ∃ t, Sent s (sendEvents hw cmd p) (txnCount (sendEvents hw cmd p)) t ∧
      runProg hw (sendUOps cmd p ++ rest) s = runProg hw rest t := by
  rw [txnCount_sendEvents] at h ⊢
  have hf := h.first (by omega)
  have h1 := (writeCmd_sent (code := cmd) hf).1.advance
  simp only [sendUOps, sendEvents_eq]
  split
  · subst p
    refine ⟨_, by simpa [chunkCount_zero] using h1, runProg_writeCmd rest hop hf⟩
  · have hd := h.drop h1.failIn
    refine ⟨_, h1.trans (writeData_sent hd).1.advance, ?_⟩
    rw [List.cons_append, List.singleton_append, runProg_writeCmd _ hop hf,
      runProg_writeData rest (by simpa using hop) (by simpa [sourceBytes] using hd)]
    rfl

/-- The micro-operations of a list of wire commands with literal parameters, nothing failing. -/
theorem runProg_sends {fs : List Frame} {s : State} (rest : List UOp) (hop : s.seq.op ≠ .idle)
    (h : NoFail (txnCount (framesEvents hw fs)) s) :
    ∃ t, Sent s (framesEvents hw fs) (txnCount (framesEvents hw fs)) t ∧
      runProg hw (fs.flatMap (fun f => sendUOps f.cmd f.payload) ++ rest) s = runProg hw rest t := by
  induction fs generalizing s with
  | nil => exact ⟨s, by simpa [framesEvents, txnCount] using Sent.refl s, rfl⟩
  | cons f fs ih =>
    simp only [framesEvents, List.flatMap_cons, txnCount_append] at h ⊢
    obtain ⟨t, h1, e1⟩ := runProg_send (fs.flatMap (fun f => sendUOps f.cmd f.payload) ++ rest) hop
      (h.mono (Nat.le_add_right _ _))
    obtain ⟨t', h2, e2⟩ := ih (s := t) (by rw [h1.along.op]; exact hop) (h.drop h1.failIn)
    exact ⟨t', h1.trans h2, by rw [List.append_assoc, e1, e2]⟩

/-- A busy wait that clears inside a program (R109). -/
theorem runProg_waitClears {timeout n : Nat} {s : State} (rest : List UOp) (hop : s.seq.op ≠ .idle)
    (h : ClearsAfter n s) (ht : clearsInTime hw timeout n) :
    ∃ t, Along s (clearEvents hw n) t ∧ t.failIn = s.failIn ∧
      runProg hw (.waitBusy timeout :: rest) s = runProg hw rest t := by
  obtain ⟨tail, h⟩ := h
  obtain ⟨hr, htr, -, -⟩ := waitBusy_clears hw hw_poll_pos h ht
  obtain ⟨evs, hrun, -⟩ := waitBusy_run hw timeout s
  have he : evs = clearEvents hw n := by
    have := hrun.tr
    rw [htr] at this
    exact (List.append_cancel_left this).symm
  rw [he] at hrun
  have hu : uopStep hw (.waitBusy timeout) s = advance (waitBusy hw timeout s) := settle_ok hr
  exact ⟨_, (Along.of_bus hrun (waitBusy_busOnly hw timeout s)).advance, by simp,
    by rw [runProg_go (by rw [hu]; simpa using hop), hu]⟩

/-- `WAIT_BUSY` when the busy line stays at 1 (R109). -/
theorem waitBusy_stuck {timeout : Nat} {s : State} (h : StaysBusy (pollTurns hw timeout + 1) s) :
    (waitBusy hw timeout s).ret = .timeout ∧
      (waitBusy hw timeout s).tr = s.tr ++ stuckEvents hw (pollTurns hw timeout) ∧
      (waitBusy hw timeout s).elapsed = pollTurns hw timeout * hw.pollInterval := by
  obtain ⟨h1, h2, h3⟩ := pollTurns_spec hw hw_poll_pos timeout
  obtain ⟨rest, h⟩ := h
  have := waitLoop_stays hw timeout (pollTurns hw timeout) (timeout + 1) (s := setElapsed 0 s) h3 h (by simpa using h1)
    (by simpa using h2)
  simpa [waitBusy] using this

/-- A busy wait that times out inside a program (R109, R196). -/
theorem runProg_waitStuck {timeout : Nat} {s : State} (rest : List UOp) (hop : s.seq.op.Programmed)
    (h : StaysBusy (pollTurns hw timeout + 1) s) :
    ∃ t, Along s (stuckEvents hw (pollTurns hw timeout)) t ∧
      runProg hw (.waitBusy timeout :: rest) s = abort .timeout t := by
  obtain ⟨hr, htr, -⟩ := waitBusy_stuck h
  obtain ⟨evs, hrun, -⟩ := waitBusy_run hw timeout s
  have he : evs = stuckEvents hw (pollTurns hw timeout) := by
    have := hrun.tr
    rw [htr] at this
    exact (List.append_cancel_left this).symm
  rw [he] at hrun
  have hu : uopStep hw (.waitBusy timeout) s = abort .timeout (waitBusy hw timeout s) := settle_timeout hr
  refine ⟨_, .of_bus hrun (waitBusy_busOnly hw timeout s), ?_⟩
  rw [runProg_stop, hu]
  rw [hu, abort_seq _ (by simpa using hop)]

/-! ### `SEND` that fails (R130, R133) -/

/-- A `SEND` whose command byte fails: no data part (R130). -/
theorem send_commandFails {cmd : Byte} {p : List Byte} {s : State} (h : FailsAt 0 s) :
    (send hw cmd p s).ret = .busError 0 ∧ (send hw cmd p s).dc = false ∧
      (send hw cmd p s).tr = s.tr ++ [.pin .dc false, .txnFail false [cmd]] := by
  have hn := h.now
  have e : send hw cmd p s = writeCmd cmd s := by simp [send, writeCmd_ret, hn]
  rw [e]
  exact ⟨by simp [writeCmd_ret, hn], by simp, by simp [writeCmd_tr, hn]⟩

/-- A `SEND` whose chunk `n` of data fails: the offset reached is where that chunk starts (R130, R108). -/
theorem send_dataFails {cmd : Byte} {p : List Byte} {s : State} {n : Nat}
    (hn : n < chunkCount hw.maxChunk p.length) (h : FailsAt (1 + n) s) :
    (send hw cmd p s).ret = .busError (n * hw.maxChunk) ∧ (send hw cmd p s).dc = true ∧
      (send hw cmd p s).tr = s.tr ++ [.pin .dc false, .txn false [cmd], .pin .dc true] ++
        (List.range n).map (fun k => Event.txn true ((p.drop (k * hw.maxChunk)).take hw.maxChunk)) ++
        [.txnFail true ((p.drop (n * hw.maxChunk)).take hw.maxChunk)] := by
  have hp : p ≠ [] := by
    rintro rfl
    simp [chunkCount_zero] at hn
  obtain ⟨h1, r1⟩ := writeCmd_sent (code := cmd) (h.noFail.first (by omega))
  obtain ⟨rest, h2⟩ : FailsAt n (writeCmd cmd s) := h.drop h1.failIn
  obtain ⟨r, tr, -⟩ := writeData_failsAt hw p hn h2
  have e : send hw cmd p s = endData (writeData hw p (writeCmd cmd s)) := by simp [send, r1, hp]
  rw [e]
  refine ⟨r, writeData_dc _ _ _, ?_⟩
  rw [endData_tr, tr, h1.along.run.tr, chunks_take (Nat.le_of_lt hn), List.map_map]
  simp [chunk, Function.comp_def]

theorem send_answer (r : Ret) (cmd : Byte) (p : List Byte) (s : State) :
    send hw cmd p (answer r s) = send hw cmd p s := rfl

theorem sendAll_answer (gs : List GsvEntry) (s : State) : sendAll hw gs (answer .ok s) = sendAll hw gs s := by
  cases gs with
  | nil => rfl
  | cons g gs => simp only [sendAll, send_answer]

/-- `sendAll` of two lists, the first one sent whole (R133). -/
theorem sendAll_append {pre post : List GsvEntry} {s : State} (h : (sendAll hw pre s).ret = .ok) :
    sendAll hw (pre ++ post) s = sendAll hw post (sendAll hw pre s) := by
  induction pre generalizing s with
  | nil => exact (sendAll_answer post s).symm
  | cons g gs ih =>
    simp only [List.cons_append, sendAll] at h ⊢
    split <;> rename_i hr <;> simp only [hr] at h
    · exact ih h
    all_goals cases h

/-- `sendAll` stops at an element that fails (R133). -/
theorem sendAll_stops {g : GsvEntry} {gs : List GsvEntry} {s : State} {off : Nat}
    (h : (send hw g.cmd g.params s).ret = .busError off) : sendAll hw (g :: gs) s = send hw g.cmd g.params s := by
  simp [sendAll, h]

/-! ### Deliveries -/

theorem deliver_delivered (r : OpResult) (s : State) : Delivered r (deliver r s) := ⟨rfl, rfl, rfl, rfl⟩

theorem deliver_keeps (r : OpResult) (s : State) : PanelKeeps s (deliver r s) := by constructor <;> rfl

theorem accept_keeps (op : SeqOp) (s : State) : PanelKeeps s (accept op s) := by constructor <;> rfl

theorem capture_keeps (c : Cfg) (s : State) : PanelKeeps s (capture c s) := by constructor <;> rfl

theorem deliver_accept_quiet (r : OpResult) (op : SeqOp) (s : State) : QuietKeeps s (deliver r (accept op s)) := by
  constructor <;> rfl

end Sys2Proof.Machine
end

