-- ==== Sys2Proof/Laws/Panel.lean ====
section
/-!
SUPPORT. The shape of the panel operations: what an accepted operation runs (R150, R152, R154), `INIT_PROG` cut into its
parts (R149), and its first part, which cannot fail.
-/

namespace Sys2Proof.Machine

/-! ### What an accepted operation runs -/

theorem exec_init {s : State} (h : s.seq.op = .idle) (hst : s.st ≠ .awake) :
    exec .init s = .next (runProg hw (initProg hw) (accept .init s)) := by
  simp [exec, execInit, hostOp, h, initBody, hst]

/-- `DISPLAY_FULL` behind its first micro-operation: the bitmap captured, `Transferring` (R151, R152). -/
def displayStart (s : State) : State := advance { capture hw (accept .display s) with st := .transferring }

theorem displayStart_keeps (s : State) : PanelKeeps s (displayStart s) := by constructor <;> rfl

theorem displayStart_run (s : State) : Run s [] (displayStart s) := Run.of_same rfl rfl rfl rfl rfl rfl

/-- The micro-operations of `DISPLAY_FULL` that use the bus (R151). -/
def displayBus : List UOp :=
  [.writeCmd hw.cOld, .writeData .bmpInv, .writeCmd hw.cNew, .writeData .bmp, .writeCmd hw.cRefresh, .waitBusy hw.tRefresh]

theorem exec_display {s : State} (h : s.seq.op = .idle) (hst : s.st = .awake) (hlen : s.bmpLen = 48000) :
    exec .displayFull s = .next (runProg hw (displayBus ++ [.setSt .awake, .ret .ok]) (displayStart s)) := by
  have hl : s.bmpLen.toNat = hw.bmpBytes := by rw [hlen]; rfl
  have he : exec .displayFull s = .next (runProg hw (displayProg hw) (capture hw (accept .display s))) := by
    simp [exec, execDisplayFull, hostOp, h, displayBody, hst, hl]
  rw [he, displayProg, runProg_setSt (by simp)]
  rfl

theorem exec_sleep {s : State} (h : s.seq.op = .idle) (hst : s.st = .awake) :
    exec .sleep s = .next (runProg hw (sleepProg hw) (accept .sleep s)) := by
  simp [exec, execSleep, hostOp, h, sleepBody, hst]

/-! ### `INIT_PROG` in its parts (R149) -/

/-- Power and reset pulse. -/
def pulseUOps (c : Cfg) : List UOp :=
  (if c.hasPwr then [.setPwr true, .delay c.tPwrSettle] else []) ++
  [.setRst false, .delay c.tRstLow, .setRst true, .delay c.tRstHigh]

/-- The setup commands behind the busy wait. -/
def setupUOps (c : Cfg) : List UOp := (setupFrames c).flatMap (fun f => sendUOps f.cmd f.payload)

theorem initProg_eq (c : Cfg) : initProg c =
    pulseUOps c ++ (.writeCmd c.cSwreset :: .waitBusy c.tInitBusy :: (setupUOps c ++ [.setSt .awake, .ret .ok])) := by
  simp [initProg, pulseUOps, setupUOps, setupFrames, List.flatMap_append, List.flatMap_map]

theorem setupUOps_usesBus (c : Cfg) : ∀ u ∈ setupUOps c, u.usesBus = true := by
  intro u hu
  simp only [setupUOps, List.mem_flatMap] at hu
  obtain ⟨f, -, hu⟩ := hu
  simp only [sendUOps] at hu
  split at hu
  · simp only [List.mem_singleton] at hu
    subst hu
    rfl
  · simp only [List.mem_cons, List.not_mem_nil, or_false] at hu
    rcases hu with rfl | rfl <;> rfl

theorem txnCount_clearEvents (c : Cfg) (n : Nat) : txnCount (clearEvents c n) = 0 := by
  simp only [clearEvents, txnCount_append]
  induction n with
  | zero => rfl
  | succ n ih => simp [List.replicate_succ, txnCount, Event.isTxn]

theorem txnCount_pulseEvents (c : Cfg) : txnCount (pulseEvents c) = 0 := by
  unfold pulseEvents
  split <;> rfl

theorem txnCount_initEvents (n : Nat) :
    txnCount (initEvents hw n) = 1 + txnCount (framesEvents hw (setupFrames hw)) := by
  simp only [initEvents, txnCount_append, txnCount_clearEvents, txnCount_pulseEvents, txnCount_sendEvents]
  rfl

/-- The block behind the power and reset pulse of `INIT`. -/
structure Pulsed (s t : State) : Prop where
  run : Run s (pulseEvents hw) t
  keeps : PanelKeeps s t
  st : t.st = s.st
  op : t.seq.op = s.seq.op
  latch : t.latch = s.latch
  failIn : t.failIn = s.failIn
  busyIn : t.busyIn = s.busyIn
  rst : t.rst = true
  pwr : t.pwr = if hw.hasPwr then true else s.pwr

/-- The reset pulse. -/
def pulseRst (s : State) : State :=
  advance (delay hw.tRstHigh (advance (setRst true (advance (delay hw.tRstLow (advance (setRst false s)))))))

/-- Power on and the settle delay. -/
def pulsePwr (s : State) : State := advance (delay hw.tPwrSettle (advance (setPwr true s)))

theorem pulseRst_run (s : State) :
    Run s [.pin .rst false, .delay hw.tRstLow, .pin .rst true, .delay hw.tRstHigh] (pulseRst s) :=
  ((((((setRst_run false s).trans (advance_run _)).trans (delay_run _ _)).trans (advance_run _)).trans
    (setRst_run _ _)).trans (advance_run _)).trans ((delay_run _ _).trans (advance_run _))

theorem pulsePwr_run (s : State) : Run s [.pin .pwr true, .delay hw.tPwrSettle] (pulsePwr s) :=
  (((setPwr_run true s).trans (advance_run _)).trans (delay_run _ _)).trans (advance_run _)

theorem pulseRst_keeps (s : State) : PanelKeeps s (pulseRst s) := by constructor <;> simp [pulseRst]

theorem pulsePwr_keeps (s : State) : PanelKeeps s (pulsePwr s) := by constructor <;> simp [pulsePwr]

theorem runProg_pulseRst (rest : List UOp) {s : State} (hop : s.seq.op ≠ .idle) :
    runProg hw (.setRst false :: .delay hw.tRstLow :: .setRst true :: .delay hw.tRstHigh :: rest) s =
      runProg hw rest (pulseRst s) := by
  rw [runProg_setRst _ hop, runProg_delay _ (by exact hop), runProg_setRst _ (by exact hop),
    runProg_delay _ (by exact hop)]
  rfl

theorem runProg_pulsePwr (rest : List UOp) {s : State} (hop : s.seq.op ≠ .idle) :
    runProg hw (.setPwr true :: .delay hw.tPwrSettle :: rest) s = runProg hw rest (pulsePwr s) := by
  rw [runProg_setPwr _ hop, runProg_delay _ (by exact hop)]
  rfl

/-- The power and reset pulse of `INIT`, which no primitive of can fail (R111, R149). -/
theorem runProg_pulse (rest : List UOp) {s : State} (hop : s.seq.op ≠ .idle) :
    ∃ t, Pulsed s t ∧ runProg hw (pulseUOps hw ++ rest) s = runProg hw rest t := by
  cases hp : hw.hasPwr
  · refine ⟨pulseRst s, ⟨?_, pulseRst_keeps s, ?_, ?_, ?_, ?_, ?_, ?_, ?_⟩, ?_⟩
    · simpa [pulseEvents, hp] using pulseRst_run s
    iterate 7 simp [pulseRst, hp]
    · simpa [pulseUOps, hp] using runProg_pulseRst rest hop
  · have hop' : (pulsePwr s).seq.op ≠ .idle := by simpa [pulsePwr] using hop
    refine ⟨pulseRst (pulsePwr s), ⟨?_, (pulsePwr_keeps s).trans (pulseRst_keeps _), ?_, ?_, ?_, ?_, ?_, ?_, ?_⟩, ?_⟩
    · simpa [pulseEvents, hp] using (pulsePwr_run s).trans (pulseRst_run _)
    iterate 7 simp [pulseRst, pulsePwr, hp]
    · simpa [pulseUOps, hp, runProg_pulsePwr _ hop] using runProg_pulseRst rest hop'

/-! ### The data passes of `DISPLAY_FULL` (R151) -/

theorem sourceBytes_congr {s t : State} (h : t.latch = s.latch) (c : Cfg) (src : Src) :
    sourceBytes c t src = sourceBytes c s src := by
  cases src <;> simp only [sourceBytes, latchBytes, h]

/-- One pass, nothing failing: the command byte and the 12 chunks of a source of 48000 bytes. -/
theorem runProg_pass {cmd : Byte} {src : Src} {s : State} (rest : List UOp) (hop : s.seq.op ≠ .idle)
    (h : NoFail 13 s) (hsrc : Src.size hw src = 48000) :
    ∃ t, Sent s ([.pin .dc false, .txn false [cmd]] ++ dataEvents hw (sourceBytes hw s src)) 13 t ∧
      runProg hw (.writeCmd cmd :: .writeData src :: rest) s = runProg hw rest t := by
  have hf := h.first (by omega)
  have h1 := (writeCmd_sent (code := cmd) hf).1.advance
  have hsb := sourceBytes_congr h1.along.latch hw src
  have hd : NoFail (chunkCount hw.maxChunk (sourceBytes hw (advance (writeCmd cmd s)) src).length)
      (advance (writeCmd cmd s)) := by
    rw [sourceBytes_length, hsrc]
    exact NoFail.drop (n := 1) (k := 12) h h1.failIn
  have h2 := (writeData_sent hd).1.advance
  have hc : chunkCount hw.maxChunk (sourceBytes hw (advance (writeCmd cmd s)) src).length = 12 := by
    rw [sourceBytes_length, hsrc]
    rfl
  rw [hc, hsb] at h2
  refine ⟨_, h1.trans h2, ?_⟩
  rw [runProg_writeCmd _ hop hf, runProg_writeData rest (by simpa using hop) hd, hsb]

/-- The bitmap `DISPLAY_FULL` sends is the one `BMP` held at acceptance (R21). -/
theorem latchBytes_displayStart (s : State) : latchBytes hw (displayStart s) = Memory.readRange s.bmp 0 48000 :=
  Memory.readRange_restrict s.bmp 48000

theorem readRange_ne_nil (m : Memory) : Memory.readRange m 0 48000 ≠ [] := by
  intro h
  have := congrArg List.length h
  simp at this

theorem displayEvents_eq (m : Memory) : displayEvents hw (Memory.readRange m 0 48000) =
    ([.pin .dc false, .txn false [hw.cOld]] ++ dataEvents hw ((Memory.readRange m 0 48000).map (fun v => ~~~v))) ++
      ([.pin .dc false, .txn false [hw.cNew]] ++ dataEvents hw (Memory.readRange m 0 48000)) ++
      [.pin .dc false, .txn false [hw.cRefresh]] := by
  simp [displayEvents, framesEvents, displayFrames, sendEvents_eq, readRange_ne_nil]

theorem lastPin_clearEvents (c : Cfg) (line : Line) (n : Nat) : lastPin line (clearEvents c n) = none := by
  simp only [clearEvents, lastPin_append]
  induction n with
  | zero => rfl
  | succ n ih =>
    have ih' : lastPin line (List.replicate n [Event.sample true, .delay c.pollInterval]).flatten = none := by
      simpa [lastPin] using ih
    simp [List.replicate_succ, lastPin, ih']

/-- The micro-operations of `SLEEP` that use the bus (R153). -/
def sleepBus : List UOp := [.writeCmd hw.cDsleep, .writeData (.lit hw.pDsleep), .delay hw.tSleepSettle]

/-- The end of `SLEEP`: power low where the line exists, `Asleep` (R153). -/
def sleepTail : List UOp := (if hw.hasPwr then [.setPwr false] else []) ++ [.setSt .asleep, .ret .ok]

theorem sleepProg_eq : sleepProg hw = sleepBus ++ sleepTail := by simp [sleepProg, sleepBus, sleepTail]

/-- The end of `SLEEP` cannot fail. -/
theorem runProg_sleepTail {s : State} (hop : s.seq.op ≠ .idle) :
    ∃ t, runProg hw sleepTail s = deliver .ok t ∧
      Run s (if hw.hasPwr then [.pin .pwr false] else []) t ∧ PanelKeeps s t ∧ t.st = .asleep ∧ t.latch = s.latch ∧
      t.pwr = (if hw.hasPwr then false else s.pwr) ∧ t.rst = s.rst ∧ t.elapsed = s.elapsed := by
  cases hp : hw.hasPwr
  · refine ⟨advance { s with st := .asleep }, ?_, Run.of_same rfl rfl rfl rfl rfl rfl, ?_, rfl, rfl, rfl, rfl, rfl⟩
    · simp only [sleepTail, hp, Bool.false_eq_true, if_false, List.nil_append]
      exact runProg_end hop
    · constructor <;> rfl
  · refine ⟨advance { advance (setPwr false s) with st := .asleep }, ?_, ?_, ?_, rfl, rfl, rfl, rfl, rfl⟩
    · simp only [sleepTail, hp, if_true, List.singleton_append]
      rw [runProg_setPwr _ hop, runProg_end (by exact hop)]
    · exact (setPwr_run false s).trans (Run.of_same rfl rfl rfl rfl rfl rfl)
    · constructor <;> rfl

/-- A `SEND` whose command byte fails (R130). -/
theorem send_fails {c : Cfg} {cmd : Byte} {p : List Byte} {s : State} (h : failNow s = true) :
    send c cmd p s = writeCmd cmd s := by
  simp [send, writeCmd_ret, h]

end Sys2Proof.Machine
end

