-- ==== Sys2Proof/Laws/PerInstr.lean ====
section
/-!
SUPPORT. The family `LeadByte`: the first byte of an operation's encoding is the code spec/opcode_table.json gives it
(R70, R71, R74), one lemma per operation.
-/

namespace Sys2Proof.Laws.LeadByte

/-- The code of each operation, from the column "encoding" of the table; that of `GATE_SRC_VOLT` is OPEN. -/
def code : Instr → Byte
  | .init => 0b00
  | .displayFull => 0b01
  | .sleep => 0b10
  | .encode => 0b11
  | .writeCmd _ => 0b0000
  | .writeData _ => 0b0001
  | .waitBusy _ => 0b0010
  | .setPwr _ => 0b0011
  | .setRst _ => 0b0100
  | .delay _ => 0b0101
  | .setDc _ => 0b0110
  | .spiTxn _ => 0b0111
  | .readBusy => 0b1000
  | .swreset => 0b00010010
  | .drvOutCtrl => 0b00000001
  | .gateSrcVolt => Config.gsvHead.cmd
  | .dataEntry => 0b00010001
  | .xWindow => 0b01000100
  | .yWindow => 0b01000101
  | .xCounter => 0b01001110
  | .yCounter => 0b01001111
  | .writeOld => 0b00010000
  | .writeNew => 0b00010011
  | .refresh => 0b00010010
  | .deepSleep => 0b00010000

/-- The encoding begins with the operation's code. -/
def Statement (i : Instr) : Prop := (encode i).head? = some (code i)

theorem init : Statement .init := rfl
theorem displayFull : Statement .displayFull := rfl
theorem sleep : Statement .sleep := rfl
theorem encode : Statement .encode := rfl
theorem writeCmd (code : Byte) : Statement (.writeCmd code) := rfl
theorem writeData (src : Src) : Statement (.writeData src) := rfl
theorem waitBusy (timeout : Nat) : Statement (.waitBusy timeout) := rfl
theorem setPwr (level : Bool) : Statement (.setPwr level) := rfl
theorem setRst (level : Bool) : Statement (.setRst level) := rfl
theorem delay (d : Nat) : Statement (.delay d) := rfl
theorem setDc (level : Bool) : Statement (.setDc level) := rfl
theorem spiTxn (bytes : List Byte) : Statement (.spiTxn bytes) := rfl
theorem readBusy : Statement .readBusy := rfl
theorem swreset : Statement .swreset := rfl
theorem drvOutCtrl : Statement .drvOutCtrl := rfl
theorem gateSrcVolt : Statement .gateSrcVolt := rfl
theorem dataEntry : Statement .dataEntry := rfl
theorem xWindow : Statement .xWindow := rfl
theorem yWindow : Statement .yWindow := rfl
theorem xCounter : Statement .xCounter := rfl
theorem yCounter : Statement .yCounter := rfl
theorem writeOld : Statement .writeOld := rfl
theorem writeNew : Statement .writeNew := rfl
theorem refresh : Statement .refresh := rfl
theorem deepSleep : Statement .deepSleep := rfl

end Sys2Proof.Laws.LeadByte
end

