-- ==== Sys2Proof/Laws/Step.lean ====
section
/-!
SUPPORT. What one step of the machine can do, said once, and the ends of the micro-programs.
-/

namespace Sys2Proof.Machine

/-! ### The step (R25, R148) -/

/-- A code that ran is the encoding of a well-formed operation, and `exec` of it ran. -/
theorem runCode_next {level : Level} {code : List Byte} {s t : State} (h : runCode level code s = .next t) :
    ∃ i tail, decode level code = .ok (i, tail) ∧ i.WellFormed ∧ exec i s = .next t := by
  simp only [runCode, fetched] at h
  split at h
  · rename_i i hf
    split at hf
    · rename_i j tail hd
      split at hf
      · cases hf
        exact ⟨_, _, hd, by assumption, h⟩
      · cases hf
    · cases hf
  · cases h

/-- A step that goes on: nothing waits, a host write, the host's operation, that of the bench, the body of `ENCODE`, or one micro-operation. -/
theorem step_cases {s t : State} (h : step s = .next t) :
    (s.seq.op = .idle ∧ s.bench = none ∧ s.pending = [] ∧ t = take [] s) ∨
    (∃ w rest, s.seq.op = .idle ∧ s.bench = none ∧ s.pending = .write w :: rest ∧ t = hostWrite w (take rest s)) ∨
    (∃ code rest i tail, s.seq.op = .idle ∧ s.bench = none ∧ s.pending = .issue code :: rest ∧
      decode .host code = .ok (i, tail) ∧ exec i (take rest s) = .next t) ∨
    (∃ b i, s.seq.op = .idle ∧ s.bench = some b ∧ exec i (takeBench s) = .next t) ∨
    (s.seq.op = .encode ∧ encodeReady hw (encodeArgs s) = true ∧ t = encodeBody hw s) ∨
    (∃ u, s.seq.op.Programmed ∧ (microProgram hw s.seq.op)[s.seq.step]? = some u ∧ t = uopStep hw u s) := by
  by_cases hi : s.seq.op = .idle
  · simp only [step, hi, if_true] at h
    split at h
    · obtain ⟨i, tail, -, -, h⟩ := runCode_next h
      exact .inr (.inr (.inr (.inl ⟨_, i, hi, by assumption, h⟩)))
    · split at h
      · cases h; exact .inl ⟨hi, by assumption, by assumption, rfl⟩
      · cases h; exact .inr (.inl ⟨_, _, hi, by assumption, by assumption, rfl⟩)
      · obtain ⟨i, tail, hd, -, h⟩ := runCode_next h
        exact .inr (.inr (.inl ⟨_, _, i, tail, hi, by assumption, by assumption, hd, h⟩))
  · simp only [step, hi, if_false, resume] at h
    split at h
    · split at h
      · cases h; exact .inr (.inr (.inr (.inr (.inl ⟨by assumption, by assumption, rfl⟩))))
      · cases h
    · split at h
      · cases h
        refine .inr (.inr (.inr (.inr (.inr ⟨_, ?_, by assumption, rfl⟩))))
        rcases hs : s.seq.op with _ | _ | _ | _ | _ <;> simp_all [SeqOp.Programmed]
      · cases h

/-- A micro-operation appends its events and keeps the lines and the trace in agreement. -/
theorem uopStep_run (u : UOp) (s : State) : ∃ evs, Run s evs (uopStep hw u s) := by
  cases hu : u.usesBus
  · cases u <;> simp [UOp.usesBus] at hu
    · exact ⟨_, (setPwr_run _ s).trans (advance_run _)⟩
    · exact ⟨_, (setRst_run _ s).trans (advance_run _)⟩
    · exact ⟨[], Run.of_same rfl rfl rfl rfl rfl rfl⟩
    · exact ⟨_, deliver_run _ _⟩
  · obtain ⟨t, evs, ha, -, -, h | ⟨c, -, h⟩⟩ := uopStep_bus hu s
    · rw [h]; exact ⟨_, ha.run.trans (advance_run _)⟩
    · rw [h]; exact ⟨_, ha.run.trans (abort_run _ _)⟩

/-- A level-H operation goes on only from an idle block (R155). -/
theorem exec_host_idle {i : Instr} {s t : State} (hl : i.level = .host) (he : exec i s = .next t) :
    s.seq.op = .idle := by
  by_contra h
  cases i <;> simp_all [Instr.level, exec, execInit, execDisplayFull, execSleep, execEncode, hostOp, encodeOp]

/-! ### The micro-programs (R13, R148) -/

/-- A micro-program ends with its one `RET Ok`. -/
theorem microProgram_ends {op : SeqOp} (h : op.Programmed) :
    ∃ us, microProgram hw op = us ++ [.ret .ok] ∧ .ret .ok ∉ us := by
  rcases h with rfl | rfl | rfl
  · refine ⟨pulseUOps hw ++ (.writeCmd hw.cSwreset :: .waitBusy hw.tInitBusy :: (setupUOps hw ++ [.setSt .awake])), ?_, ?_⟩
    · show initProg hw = _
      rw [initProg_eq]
      simp
    · intro hm
      simp only [List.mem_append, List.mem_cons, List.not_mem_nil, or_false] at hm
      rcases hm with hm | hm | hm | hm | hm
      · unfold pulseUOps at hm
        split at hm <;> simp at hm
      · simp at hm
      · simp at hm
      · simpa [UOp.usesBus] using setupUOps_usesBus hw _ hm
      · simp at hm
  · exact ⟨[.setSt .transferring, .writeCmd hw.cOld, .writeData .bmpInv, .writeCmd hw.cNew, .writeData .bmp, .writeCmd hw.cRefresh,
    .waitBusy hw.tRefresh, .setSt .awake], rfl, by simp⟩
  · refine ⟨sleepBus ++ ((if hw.hasPwr then [.setPwr false] else []) ++ [.setSt .asleep]), ?_, ?_⟩
    · show sleepProg hw = _
      rw [sleepProg_eq, sleepTail]; simp
    · intro hm
      simp only [sleepBus, List.mem_append, List.mem_cons, List.not_mem_nil, or_false] at hm
      rcases hm with (hm | hm | hm) | hm | hm
      · simp at hm
      · simp at hm
      · simp at hm
      · split at hm <;> simp at hm
      · simp at hm

/-- A micro-operation that is not the `RET` is not the last one. -/
theorem microProgram_next_lt {op : SeqOp} (h : op.Programmed) {n : Nat} {u : UOp}
    (hu : (microProgram hw op)[n]? = some u) (hn : u ≠ .ret .ok) : n + 1 < (microProgram hw op).length := by
  obtain ⟨us, e, -⟩ := microProgram_ends h
  rw [e] at hu ⊢
  rw [List.length_append, List.length_singleton]
  by_contra hc
  by_cases hx : n < us.length
  · omega
  · have hx2 : n = us.length := by
      have := (List.getElem?_eq_some_iff.mp hu).1
      rw [List.length_append, List.length_singleton] at this
      omega
    subst hx2
    simp at hu
    exact hn hu.symm

end Sys2Proof.Machine
end

