-- ==== Sys2Proof/Tests/Slice0.lean ====
section
/-!
SUPPORT. The model's own tests: expected results from spec/95_test_vectors.md and the examples of the rules, each named.
The configurations are those of section 0 there, taken as arguments (D34).
-/

namespace Sys2Proof.Tests

open Sys2Proof.Machine

/-! ### Configurations and states of the tests (95_test_vectors.md section 0) -/

/-- `CFG_B`: 8 by 2 pixels, the placeholder bytes, `POLL` = 10, the settle delays 1 to 4. -/
def cfgB : Cfg where
  width := 8
  height := 2
  maxChunk := 4096
  spiMode := 0
  spiWord := 8
  spiHz := 2000000
  spiMsbFirst := true
  hasPwr := true
  pinRst := 0
  pinDc := 1
  pinBusy := 2
  pinPwr := 3
  tPwrSettle := 1
  tRstLow := 2
  tRstHigh := 3
  tSleepSettle := 4
  pollInterval := 10
  tInitBusy := 30
  tRefresh := 30
  cSwreset := 0x12
  cDoc := 0x01
  cDem := 0x11
  cXwin := 0x44
  cYwin := 0x45
  cXcnt := 0x4E
  cYcnt := 0x4F
  cOld := 0x10
  cNew := 0x13
  cRefresh := 0x12
  cDsleep := 0x10
  pDsleep := [0x01]
  pDoc := [0xDF, 0x01, 0x00]
  pDem := [0x03]
  pXwin := [0x00, 0x00, 0x1F, 0x03]
  pYwin := [0x00, 0x00, 0xDF, 0x01]
  pXcnt := [0x00, 0x00]
  pYcnt := [0x00, 0x00]
  gsv := [⟨0x03, [0x17]⟩, ⟨0x04, [0x41, 0x00, 0x32]⟩]
  imgDepthSet := [8, 16]
  resizeMap := floorMap

/-- `CFG_C`: `CFG_B` with chunks of one byte. -/
def cfgC : Cfg := { cfgB with maxChunk := 1 }

/-- `CFG_D`: 16 by 2 pixels. -/
def cfgD : Cfg := { cfgB with width := 16 }

/-- No power-enable line, on the small geometry. -/
def cfgN : Cfg := { cfgB with hasPwr := false }

/-- The state after reset with `ST` and the environment's scripts as given. -/
def start (st : PanelState) (busy fail : List Bool) : State :=
  { State.reset with st := st, busyIn := busy, failIn := fail }

/-- `n` transactions that complete. -/
def fine (n : Nat) : List Bool := List.replicate n false

/-- The bitmap `7F FF` of V41, on an awake panel. -/
def withBitmap (busy fail : List Bool) : State :=
  { start .awake busy fail with bmp := [(0, 0x7F), (1, 0xFF)], bmpLen := 2 }

/-- A grey or colour pixel of 8-bit channels. -/
def px (r g b : BitVec 16) : Pixel := ⟨r, g, b⟩

/-- `IMG` from its rows. -/
def image (rows : List (List Pixel)) : Pixels :=
  rows.zipIdx.foldl (fun m r => r.1.zipIdx.foldl (fun m p => Pixels.write m p.2 r.2 p.1) m) []

/-- An image, its size, depth and threshold in the operand registers. -/
def withImage (rows : List (List Pixel)) (w h : Word32) (depth thresh : Byte) (inv : Bool) : State :=
  { State.reset with img := image rows, imgW := w, imgH := h, imgDepth := depth, thresh := thresh, invert := inv }

/-- The bytes `ENCODE` leaves in `BMP`, or nothing when it is refused. -/
def encoded (c : Cfg) (s : State) : Option (List Byte) :=
  match encodeOp c s with
  | .next t => some (Memory.readRange t.bmp 0 c.bmpBytes)
  | .fault _ => none
  | .refused _ => none

/-- The trace, `STATUS`, `OFFSET` and `ST` of an outcome. -/
def seen : Host.Outcome State Fault Refusal → Option (List Event × Byte × Word32 × PanelState)
  | .next t => some (t.tr, t.status, t.offset, t.st)
  | .fault _ => none
  | .refused _ => none

/-- `PWR`, `RST`, `DC` of an outcome. -/
def pins : Host.Outcome State Fault Refusal → Option (Bool × Bool × Bool)
  | .next t => some (t.pwr, t.rst, t.dc)
  | .fault _ => none
  | .refused _ => none

/-! ### WellFormed: an ill-formed term for each check -/

theorem test_wellFormed_txn_empty : (Instr.spiTxn []).wellFormed = false := by decide

theorem test_wellFormed_txn_long : (Instr.spiTxn (List.replicate 4097 0)).wellFormed = false := by
  simp only [Instr.wellFormed, txnLengthOk, List.length_replicate]
  decide

theorem test_wellFormed_wait : (Instr.waitBusy (2 ^ 64)).wellFormed = false := by decide

theorem test_wellFormed_delay : (Instr.delay (2 ^ 64)).wellFormed = false := by decide

theorem test_wellFormed_literal : (Instr.writeData (.lit (List.replicate (2 ^ 32) 0))).wellFormed = false := by
  simp only [Instr.wellFormed, Src.wellFormed, List.length_replicate]
  decide

/-! ### Decoding: words written out from R70, R71, R74 (V50) -/

theorem test_decode_host :
    decode .host [0b00] = .ok (.init, []) ∧ decode .host [0b01] = .ok (.displayFull, []) ∧
    decode .host [0b10] = .ok (.sleep, []) ∧ decode .host [0b11] = .ok (.encode, []) := ⟨rfl, rfl, rfl, rfl⟩

theorem test_decode_micro_data :
    decode .micro [0b0000, 0x13] = .ok (.writeCmd 0x13, []) ∧
    decode .micro [0b0001, 0x00, 1, 0, 0, 0, 0x01] = .ok (.writeData (.lit [0x01]), []) ∧
    decode .micro [0b0001, 0x01] = .ok (.writeData .bmpInv, []) ∧
    decode .micro [0b0001, 0x02] = .ok (.writeData .bmp, []) ∧
    decode .micro [0b0111, 1, 0, 0xAA, 0xBB] = .ok (.spiTxn [0xAA, 0xBB], []) := ⟨rfl, rfl, rfl, rfl, rfl⟩

theorem test_decode_micro_lines :
    decode .micro [0b0010, 0x34, 0x12, 0, 0, 0, 0, 0, 0] = .ok (.waitBusy 0x1234, []) ∧
    decode .micro [0b0011, 1] = .ok (.setPwr true, []) ∧ decode .micro [0b0100, 0] = .ok (.setRst false, []) ∧
    decode .micro [0b0101, 7, 0, 0, 0, 0, 0, 0, 0] = .ok (.delay 7, []) ∧
    decode .micro [0b0110, 1] = .ok (.setDc true, []) ∧ decode .micro [0b1000] = .ok (.readBusy, []) :=
  ⟨rfl, rfl, rfl, rfl, rfl, rfl⟩

theorem test_decode_micro_unused :
    decode .micro [0b1001] = .error (.unusedOrdinal 0b1001) ∧ decode .micro [0b1111] = .error (.unusedOrdinal 0b1111) ∧
    decode .micro [0b0011, 2] = .error (.notLevel 2) ∧ decode .host [0b100] = .error (.notHostCode 0b100) :=
  ⟨rfl, rfl, rfl, rfl⟩

theorem test_decode_wire_init :
    decode (.wire .init) [0b00010010] = .ok (.swreset, []) ∧ decode (.wire .init) [0b00000001] = .ok (.drvOutCtrl, []) ∧
    decode (.wire .init) [0b00010001] = .ok (.dataEntry, []) ∧ decode (.wire .init) [0b01000100] = .ok (.xWindow, []) ∧
    decode (.wire .init) [0b01000101] = .ok (.yWindow, []) ∧ decode (.wire .init) [0b01001110] = .ok (.xCounter, []) ∧
    decode (.wire .init) [0b01001111] = .ok (.yCounter, []) := ⟨rfl, rfl, rfl, rfl, rfl, rfl, rfl⟩

theorem test_decode_wire_shared :
    decode (.wire .display) [0b00010000] = .ok (.writeOld, []) ∧
    decode (.wire .display) [0b00010011] = .ok (.writeNew, []) ∧
    decode (.wire .display) [0b00010010] = .ok (.refresh, []) ∧
    decode (.wire .sleep) [0b00010000] = .ok (.deepSleep, []) ∧
    decode (.wire .sleep) [0b00010010] = .error (.notInContext .sleep 0x12) := ⟨rfl, rfl, rfl, rfl, rfl⟩

theorem test_decode_wire_gsv : decode (.wire .initGsv) [Config.gsvHead.cmd] = .ok (.gateSrcVolt, []) := by
  simp [decode, decodeWire, wireCommand]

theorem test_decode_table_word :
    decodeTableWord 8 0x00 = some .init ∧ decodeTableWord 8 0x03 = some .encode ∧
    decodeTableWord 4 0x0 = some (.writeCmd 0x00) ∧ decodeTableWord 8 0x07 = some (.spiTxn [0x00]) ∧
    decodeTableWord 8 0x08 = some .readBusy ∧ decodeTableWord 8 0x10 = some .writeOld ∧
    decodeTableWord 8 0x12 = some .swreset ∧ decodeTableWord 8 0x4F = some .yCounter := by decide

/-! ### Transport (V30 to V35) -/

/-- V33: `SPI_SHIFT 0x12` and `0x80`, `MOSI` at the eight rising edges. -/
theorem test_shift_edges :
    risingEdges false (shiftWave 0x12) = [false, false, false, true, false, false, true, false] ∧
    risingEdges false (shiftWave 0x80) = [true, false, false, false, false, false, false, false] := by decide

/-- V32: `WRITE_CMD 0x12`, completed and failed. -/
theorem test_writeCmd :
    (writeCmd 0x12 (start .awake [] [false])).tr = [.pin .dc false, .txn false [0x12]] ∧
    (writeCmd 0x12 (start .awake [] [true])).tr = [.pin .dc false, .txnFail false [0x12]] ∧
    (writeCmd 0x12 (start .awake [] [true])).ret = .busError 0 := by decide

/-- V30: chunk counts of the table. -/
theorem test_chunk_counts :
    chunkCount 4096 0 = 0 ∧ chunkCount 4096 1 = 1 ∧ chunkCount 4096 4096 = 1 ∧ chunkCount 4096 4097 = 2 ∧
    chunkCount 4096 8192 = 2 ∧ chunkCount 4096 48000 = 12 ∧ chunkCount 4095 48000 = 12 ∧ chunkCount 1000 48000 = 48 ∧
    chunkCount 1 2 = 2 := by decide

/-- V31 in small: five bytes in chunks of two, the third transaction fails; the offset reached is 4. -/
theorem test_writeData_fails :
    (writeData { cfgB with maxChunk := 2 } [1, 2, 3, 4, 5] (start .awake [] [false, false, true])).tr =
      [.pin .dc true, .txn true [1, 2], .txn true [3, 4], .txnFail true [5]] ∧
    (writeData { cfgB with maxChunk := 2 } [1, 2, 3, 4, 5] (start .awake [] [false, false, true])).ret = .busError 4 := by
  decide

/-- V30: an empty buffer sends no transaction. -/
theorem test_writeData_empty : (writeData cfgB [] (start .awake [] [])).tr = [.pin .dc true] := by decide

/-- V35: clears at the last sample; the final `ELAPSED` is 3 POLL. -/
theorem test_waitBusy_last :
    (waitBusy cfgB 30 (start .awake [true, true, true, false] [])).tr =
      [.sample true, .delay 10, .sample true, .delay 10, .sample true, .delay 10, .sample false] ∧
    (waitBusy cfgB 30 (start .awake [true, true, true, false] [])).ret = .ok ∧
    (waitBusy cfgB 30 (start .awake [true, true, true, false] [])).elapsed = 30 := by decide

/-- V35: timeouts of 0 and of 2.5 POLL. -/
theorem test_waitBusy_timeout :
    (waitBusy cfgB 0 (start .awake [true] [])).tr = [.sample true] ∧
    (waitBusy cfgB 0 (start .awake [true] [])).ret = .timeout ∧
    (waitBusy cfgB 25 (start .awake [true, true, true, true] [])).tr =
      [.sample true, .delay 10, .sample true, .delay 10, .sample true, .delay 10, .sample true] ∧
    (waitBusy cfgB 25 (start .awake [true, true, true, true] [])).ret = .timeout := by decide

/-- R102, R104, R105, R106: the events of the lines and the delay; a write of the level a line has is recorded. -/
theorem test_lines :
    (setDc false (setRst false (setPwr true (delay 5 State.reset)))).tr =
      [.delay 5, .pin .pwr true, .pin .rst false, .pin .dc false] := by decide

/-- R103: two reads of the script `1,0`. -/
theorem test_readBusy :
    (readBusy (readBusy (start .awake [true, false] []))).tr = [.sample true, .sample false] ∧
    (readBusy (start .awake [true, false] [])).ret = .level true := by decide

/-- R101's assert: a transaction of no byte is refused. -/
theorem test_spiTxn_assert : exec (.spiTxn []) State.reset = .refused .txnLength := rfl

/-! ### Wire commands (R131 to R142) -/

/-- R142 and R131: `DEEP_SLEEP` has one parameter byte, `SWRESET` none, and then `DC` stays 0. -/
theorem test_send :
    (send cfgB cDsleep pDsleep (start .awake [] (fine 2))).tr =
      [.pin .dc false, .txn false [0x10], .pin .dc true, .txn true [0x01]] ∧
    (send cfgB cSwreset [] (start .awake [] (fine 1))).tr = [.pin .dc false, .txn false [0x12]] ∧
    (send cfgB cSwreset [] (start .awake [] (fine 1))).dc = false := by decide

/-- R133: both elements of `GSV` of the illustrative configuration. -/
theorem test_gateSrcVolt :
    (sendAll cfgB cfgB.gsv (start .awake [] (fine 4))).tr =
      [.pin .dc false, .txn false [0x03], .pin .dc true, .txn true [0x17],
       .pin .dc false, .txn false [0x04], .pin .dc true, .txn true [0x41, 0x00, 0x32]] := by decide

/-- R139: the payload of `WRITE_OLD` is the complement of `LATCH`. -/
theorem test_writeOld_payload :
    sourceBytes cfgB { State.reset with latch := [(0, 0x7F), (1, 0xFF)] } .bmpInv = [0x80, 0x00] := by decide

/-! ### INIT (V45, V46) -/

/-- The trace of V45 up to the busy wait. -/
def initHead : List Event :=
  [.pin .pwr true, .delay 1, .pin .rst false, .delay 2, .pin .rst true, .delay 3, .pin .dc false, .txn false [0x12]]

/-- The trace of V45 after the busy wait. -/
def initTail : List Event :=
  [.pin .dc false, .txn false [0x01], .pin .dc true, .txn true [0xDF, 0x01, 0x00],
   .pin .dc false, .txn false [0x03], .pin .dc true, .txn true [0x17],
   .pin .dc false, .txn false [0x04], .pin .dc true, .txn true [0x41, 0x00, 0x32],
   .pin .dc false, .txn false [0x11], .pin .dc true, .txn true [0x03],
   .pin .dc false, .txn false [0x44], .pin .dc true, .txn true [0x00, 0x00, 0x1F, 0x03],
   .pin .dc false, .txn false [0x45], .pin .dc true, .txn true [0x00, 0x00, 0xDF, 0x01],
   .pin .dc false, .txn false [0x4E], .pin .dc true, .txn true [0x00, 0x00],
   .pin .dc false, .txn false [0x4F], .pin .dc true, .txn true [0x00, 0x00]]

/-- V45: from `Asleep` as from `Uninitialized`. -/
theorem test_init_trace :
    seen (hostOp .init (initBody cfgB) (start .asleep [false] (fine 17))) =
      some (initHead ++ [.sample false] ++ initTail, 0x00, 0, .awake) ∧
    pins (hostOp .init (initBody cfgB) (start .asleep [false] (fine 17))) = some (true, true, true) := by decide +kernel

/-- V46: transaction 5 fails, entered from `Asleep`: `Uninitialized`, `OFFSET` 0. -/
theorem test_init_bus_error :
    seen (hostOp .init (initBody cfgB) (start .asleep [false] (fine 4 ++ [true]))) =
      some (initHead ++ [.sample false] ++ initTail.take 7 ++ [.txnFail true [0x17]], 0x11, 0, .uninitialized) := by
  decide +kernel

/-- V46: no power-enable line; the busy line never clears. -/
theorem test_init_timeout :
    seen (hostOp .init (initBody cfgN) (start .uninitialized (List.replicate 4 true) (fine 1))) =
      some (initHead.drop 2 ++ [.sample true, .delay 10, .sample true, .delay 10, .sample true, .delay 10, .sample true],
        0x12, 0, .uninitialized) := by decide +kernel

/-! ### DISPLAY_FULL (V41, V42, V43) -/

/-- V41, and with `CFG_C`. -/
theorem test_display_trace :
    seen (hostOp .display (displayBody cfgB) (withBitmap [true, false] (fine 5))) =
      some ([.pin .dc false, .txn false [0x10], .pin .dc true, .txn true [0x80, 0x00], .pin .dc false,
        .txn false [0x13], .pin .dc true, .txn true [0x7F, 0xFF], .pin .dc false, .txn false [0x12], .sample true,
        .delay 10, .sample false], 0x00, 0, .awake) ∧
    seen (hostOp .display (displayBody cfgC) (withBitmap [false] (fine 7))) =
      some ([.pin .dc false, .txn false [0x10], .pin .dc true, .txn true [0x80], .txn true [0x00], .pin .dc false,
        .txn false [0x13], .pin .dc true, .txn true [0x7F], .txn true [0xFF], .pin .dc false, .txn false [0x12],
        .sample false], 0x00, 0, .awake) := by decide +kernel

/-- V42, V43: the checks in their order, a failed second chunk, a refresh that times out. -/
theorem test_display_errors :
    seen (hostOp .display (displayBody cfgB) { withBitmap [] [] with st := .asleep, bmpLen := 1 }) =
      some ([], 0x03, 0, .asleep) ∧
    seen (hostOp .display (displayBody cfgB) { withBitmap [] [] with bmpLen := 3 }) = some ([], 0x04, 0, .awake) ∧
    seen (hostOp .display (displayBody cfgC) (withBitmap [] [false, false, true])) =
      some ([.pin .dc false, .txn false [0x10], .pin .dc true, .txn true [0x80], .txnFail true [0x00]],
        0x21, 1, .awake) ∧
    (seen (hostOp .display (displayBody cfgB) (withBitmap (List.replicate 4 true) (fine 5)))).map (fun r => r.2) =
      some (0x32, 0, .awake) := by decide +kernel

/-! ### SLEEP (V47) -/

theorem test_sleep :
    seen (hostOp .sleep (sleepBody cfgB) { start .awake [] (fine 2) with pwr := true, rst := true }) =
      some ([.pin .dc false, .txn false [0x10], .pin .dc true, .txn true [0x01], .delay 4, .pin .pwr false],
        0x00, 0, .asleep) ∧
    pins (hostOp .sleep (sleepBody cfgB) { start .awake [] (fine 2) with pwr := true, rst := true }) =
      some (false, true, true) := by decide +kernel

theorem test_sleep_other :
    seen (hostOp .sleep (sleepBody cfgB) (start .asleep [] [])) = some ([], 0x00, 0, .asleep) ∧
    seen (hostOp .sleep (sleepBody cfgB) (start .uninitialized [] [])) = some ([], 0x03, 0, .uninitialized) ∧
    seen (hostOp .sleep (sleepBody cfgB) (start .awake [] [false, true])) =
      some ([.pin .dc false, .txn false [0x10], .pin .dc true, .txnFail true [0x01]], 0x41, 0, .awake) := by
  decide +kernel

/-! ### ENCODE (V2, V20 to V28) -/

/-- V20: the table of lumas, with truncation. -/
theorem test_luma :
    luma ⟨255, 0, 0⟩ = 76 ∧ luma ⟨0, 255, 0⟩ = 149 ∧ luma ⟨0, 0, 255⟩ = 29 ∧ luma ⟨200, 100, 50⟩ = 124 ∧
    luma ⟨3, 0, 0⟩ = 0 ∧ luma ⟨0, 0, 9⟩ = 1 ∧ luma ⟨127, 128, 127⟩ = 127 ∧ luma ⟨254, 255, 255⟩ = 254 := by decide

/-- The rows of V22. -/
def rows22 : List (List Pixel) :=
  [[px 255 0 0, px 0 255 0, px 0 0 255, px 200 100 50, px 100 150 200, px 128 128 128, px 127 127 127, px 255 255 0],
   [px 0 255 255, px 255 0 255, px 0 0 0, px 255 255 255, px 128 127 128, px 127 128 127, px 3 0 0, px 254 255 255]]

/-- V22: three rows of its table. -/
theorem test_encode_colour :
    encoded cfgB (withImage rows22 8 2 8 128 false) = some [0x4D, 0x91] ∧
    encoded cfgB (withImage rows22 8 2 8 128 true) = some [0xB2, 0x6E] ∧
    encoded cfgB (withImage rows22 8 2 8 77 false) = some [0x5F, 0xDD] := by decide +kernel

/-- V26 (12 by 3 to 8 by 2) and V27 (two bytes a row). -/
theorem test_encode_maps :
    encoded cfgB (withImage (List.replicate 3 ((List.range 12).map
      (fun x => if x % 3 = 1 then px 255 255 255 else px 0 0 0))) 12 3 8 128 false) = some [0x55, 0x55] ∧
    encoded cfgD (withImage [(List.range 16).map (fun x => if x = 0 ∨ x = 15 then px 255 255 255 else px 0 0 0),
      (List.range 16).map (fun x => if x = 7 ∨ x = 8 then px 255 255 255 else px 0 0 0)] 16 2 8 128 false) =
      some [0x80, 0x01, 0x01, 0x80] := by decide +kernel

/-- V21, V23: 16-bit channels lose their low byte. -/
theorem test_scale8 :
    scale8 16 (px 0xFFFF 0x8000 0x00FF) = ⟨0xFF, 0x80, 0x00⟩ ∧ scale8 8 (px 200 100 50) = ⟨200, 100, 50⟩ ∧
    scale8 16 (px 0x80FF 0x7FFF 0x0100) = ⟨0x80, 0x7F, 0x01⟩ := by decide

/-- V28: refused operands. -/
theorem test_encode_refused :
    encoded cfgB (withImage [] 0 1 8 128 false) = none ∧ encoded cfgB (withImage [] 1 0 8 128 false) = none ∧
    encoded cfgB (withImage [] 1 1 12 128 false) = none ∧ encoded cfgB (withImage [] 1 1 32 128 false) = none := by
  decide +kernel

/-! ### The step, the host port, the trace -/

/-- R16, V48, V50: the eight values of `STATUS`. -/
theorem test_status :
    [OpResult.ok, .err .invalidState, .err .geometryMismatch, .err (.initFailed .busError), .err (.initFailed .timeout),
      .err (.transferFailed 7), .err .refreshTimeout, .err .sleepFailed].map OpResult.status = legalStatus := by decide

/-- R82: a host write, then an operation, taken from the queue in order. -/
theorem test_step_queue :
    (match step { State.reset with pending := [.write (.thresh 128), .issue [0b10]] } with
      | .next t => some (t.thresh, t.pending)
      | .fault _ => none
      | .refused _ => none) = some (128, [.issue [0b10]]) ∧
    (match step { State.reset with pending := [.issue [0b10]] } with
      | .next t => some (t.status, t.resValid, t.pending)
      | .fault _ => none
      | .refused _ => none) = some (0x03, true, []) := by decide +kernel

/-- Log entry 17: an operation on the bench runs before the queue, and leaves it. -/
theorem test_step_bench :
    (match step { State.reset with bench := some (.micro, [0b0110, 1]), pending := [.issue [0b10]] } with
      | .next t => some (t.dc, t.tr, t.bench.isNone, t.pending)
      | .fault _ => none
      | .refused _ => none) = some (true, [.pin .dc true], true, [.issue [0b10]]) := by decide +kernel

/-- Log entry 13: where a table word is put, by its level. -/
theorem test_withFetchWord :
    (State.reset.withFetchWord 2 0b10).pending = [.issue (tableBytes 2 0b10)] ∧
    (State.reset.withFetchWord 2 0b10).bench = none ∧
    (State.reset.withFetchWord 4 0b1000).bench = some (.micro, tableBytes 4 0b1000) ∧
    (State.reset.withFetchWord 8 0x4F).bench = some (.wire .init, tableBytes 8 0x4F) := ⟨rfl, rfl, rfl, rfl⟩

/-- R13: a `SEQ.step` past its micro-program is the one fault; the unused ordinals are refused by name. -/
theorem test_step_stops :
    step { State.reset with seq := ⟨.display, 9, 0⟩ } = .fault .sequencerLost ∧
    step { State.reset with bench := some (.micro, [0b1001]) } = .refused (.undecodable (.unusedOrdinal 0b1001)) :=
  ⟨rfl, rfl⟩

/-- R25: the host reads only while the block is ready. -/
theorem test_hostRead :
    hostRead 2 (withBitmap [] []) = some ⟨1, 0x00, 0, 2, [0x7F, 0xFF]⟩ ∧
    hostRead 2 { withBitmap [] [] with seq := ⟨.display, 1, 0⟩ } = none := by decide

/-- V51: the shared bytes told apart. -/
theorem test_readShared :
    readShared cfgB (initHead.take 7) [.sample false] 0x12 = some .swreset ∧
    readShared cfgB [.pin .dc false, .txn false [0x13], .pin .dc true, .txn true [0x7F, 0xFF], .pin .dc false]
      [.sample false] 0x12 = some .refresh ∧
    readShared cfgB [.pin .dc false] [.pin .dc true, .txn true [0x80, 0x00], .pin .dc false, .txn false [0x13]] 0x10 =
      some .writeOld ∧
    readShared cfgB [.pin .dc false] [.pin .dc true, .txn true [0x01], .delay 4] 0x10 = some .deepSleep := by decide

/-- R83: the notation. -/
theorem test_render :
    (Event.txn true [0xDF, 0x01, 0x00]).render = "T[DF 01 00]" ∧ (Event.pin .pwr false).render = "P-" ∧
    (Event.delay 20).render = "W(20)" := by decide +kernel

/-! ### Witnesses: a state and operands that meet the hypotheses of each statement that has some -/

/-- An awake panel with a bitmap of the right length. -/
def awakeFull (busy fail : List Bool) : State := { start .awake busy fail with bmpLen := 48000 }

/-- A state whose trace ends with a data transaction. -/
def withTrace : State := { start .awake [] [] with dc := true, tr := [.pin .dc true, .txn true [0x00]] }

theorem noFail_replicate (n : Nat) (s : State) (h : s.failIn = List.replicate n false) : NoFail n s :=
  ⟨[], by rw [h, List.append_nil]⟩

/-- `DecodeOfEncode`: the least and the greatest operands. -/
theorem witness_decode_of_encode :
    (Instr.spiTxn [0x00]).WellFormed ∧ (Instr.spiTxn (List.replicate 4096 0x00)).WellFormed ∧
    (Instr.writeData (.lit [])).WellFormed ∧ (Instr.waitBusy 0).WellFormed ∧ (Instr.waitBusy (2 ^ 64 - 1)).WellFormed ∧
    (Instr.delay (2 ^ 64 - 1)).WellFormed ∧ Instr.gateSrcVolt.WellFormed := by
  refine ⟨by decide, ?_, by decide, by decide, by decide, by decide, by decide⟩
  simp only [Instr.WellFormed, Instr.wellFormed, txnLengthOk, List.length_replicate]
  decide

/-- `EncodeOfDecode`. -/
theorem witness_encode_of_decode : decode .micro [0b0011, 0x01, 0xFF] = .ok (.setPwr true, [0xFF]) := rfl

/-- `UnusedOrdinalsRefused`: the first and the last. -/
theorem witness_unused_ordinals : 9 ≤ (0x09 : Byte).toNat ∧ 9 ≤ (0xFF : Byte).toNat := by decide

/-- `StepRunsDecodedOperation`: from the queue, and from the bench a primitive and a wire command. -/
theorem witness_step_decoded :
    { State.reset with pending := [.issue [0b11]] }.seq.op = .idle ∧ State.reset.bench = none ∧
    decode .host [0b11] = .ok (.encode, []) ∧ Instr.encode.WellFormed ∧
    { State.reset with bench := some (.micro, [0b1000]) }.seq.op = .idle ∧
    decode .micro [0b1000] = .ok (.readBusy, []) ∧ Instr.readBusy.WellFormed ∧
    decode (.wire .sleep) [0x10] = .ok (.deepSleep, []) ∧ Instr.deepSleep.WellFormed :=
  ⟨rfl, rfl, rfl, rfl, rfl, rfl, rfl, rfl, rfl⟩

/-- `StepRunsMicroOperation`, `BitmapStable`: the first and the last micro-operation of `DISPLAY_FULL`. -/
theorem witness_step_micro :
    (microProgram hw .display)[0]? = some (.setSt .transferring) ∧ (microProgram hw .display)[8]? = some (.ret .ok) ∧
    ∃ t, step { State.reset with seq := ⟨.display, 0, 0⟩ } = .next t := ⟨rfl, rfl, _, rfl⟩

/-- `StepPerformsHostWrite`: a queue with one write of each kind, and canonical buffers. -/
theorem witness_host_write :
    (∀ w, { State.reset with pending := [.write w] }.pending = .write w :: []) ∧ State.reset.bench = none ∧ Memory.wf State.reset.bmp ∧
    Pixels.wf State.reset.img ∧ (0, 1) ≠ ((1 : Word32).toNat, (0 : Word32).toNat) :=
  ⟨fun _ => rfl, rfl, by decide, by decide, by decide⟩

/-- `SpiTransaction`, `WriteCommand`: the lengths at the ends of the range and beside it, and both answers of the
environment. -/
theorem witness_spi_txn :
    (1 ≤ [(0x00 : Byte)].length ∧ [(0x00 : Byte)].length ≤ 4096) ∧
    (1 ≤ (List.replicate 4096 (0x00 : Byte)).length ∧ (List.replicate 4096 (0x00 : Byte)).length ≤ 4096) ∧
    ¬ (1 ≤ (List.replicate 4097 (0x00 : Byte)).length ∧ (List.replicate 4097 (0x00 : Byte)).length ≤ 4096) ∧
    ¬ (1 ≤ ([] : List Byte).length ∧ ([] : List Byte).length ≤ 4096) ∧
    failNow (start .awake [] [false]) = false ∧ failNow (start .awake [] [true]) = true := by
  simp only [List.length_replicate]
  decide

/-- `ReadBusySamples`. -/
theorem witness_read_busy : (start .awake [true, false] []).busyIn = true :: [false] := rfl

/-- A valid configuration with the least chunk, and a map that no size can lead outside the image. -/
def cfgV : Cfg := { cfgC with resizeMap := fun a => (min a.x (a.imgW - 1), min a.y (a.imgH - 1)) }

/-- `WriteDataCompletes`, `WriteDataFails`, first clause: a valid configuration of chunks of one byte; the first and the
last chunk. -/
theorem witness_valid_cfg :
    cfgV.Valid ∧ NoFail ((([0x00, 0x01] : List Byte).length + cfgV.maxChunk - 1) / cfgV.maxChunk) (start .awake [] (fine 2)) ∧
    0 < (([0x00, 0x01] : List Byte).length + cfgV.maxChunk - 1) / cfgV.maxChunk ∧ FailsAt 0 (start .awake [] [true]) ∧
    1 < (([0x00, 0x01] : List Byte).length + cfgV.maxChunk - 1) / cfgV.maxChunk ∧
    FailsAt 1 (start .awake [] [false, true]) where
  left :=
    { width_pos := by decide
      width_u32 := by decide
      width_mod := by decide
      height_pos := by decide
      height_u32 := by decide
      chunk_pos := by decide
      chunk_le := by decide
      spi_mode := rfl
      spi_word := rfl
      msb_first := rfl
      pins_distinct := by decide
      poll_pos := by decide
      gsv_ne := by decide
      depth_set := rfl
      map_ok :=
        { inside := by
            intro a h1 h2 _ _
            simp only [cfgV]
            omega
          identity := by
            intro a h1 h2 h3 h4
            simp only [cfgV, Prod.mk.injEq]
            omega } }
  right := ⟨noFail_replicate _ _ rfl, by decide, ⟨[], rfl⟩, by decide, ⟨[], rfl⟩⟩

/-- `WriteDataCompletes`: no byte, one byte, one byte more than a chunk. -/
theorem witness_write_data :
    NoFail ((((sourceBytes hw (start .awake [] [])) (.lit [])).length + 4095) / 4096) (start .awake [] []) ∧
    NoFail ((((sourceBytes hw (start .awake [] (fine 1))) (.lit [0x00])).length + 4095) / 4096)
      (start .awake [] (fine 1)) ∧
    NoFail ((((sourceBytes hw (start .awake [] (fine 2))) (.lit (List.replicate 4097 0x00))).length + 4095) / 4096)
      (start .awake [] (fine 2)) := by
  refine ⟨noFail_replicate _ _ rfl, noFail_replicate _ _ rfl, noFail_replicate _ _ ?_⟩
  simp only [sourceBytes, List.length_replicate]
  rfl

/-- `WriteDataFails`: the first and the last chunk. -/
theorem witness_write_data_fails :
    0 < ((sourceBytes hw (start .awake [] [true]) (.lit [0x00])).length + 4095) / 4096 ∧
    FailsAt 0 (start .awake [] [true]) ∧
    1 < ((sourceBytes hw (start .awake [] [false, true]) (.lit (List.replicate 4097 0x00))).length + 4095) / 4096 ∧
    FailsAt 1 (start .awake [] [false, true]) := by
  refine ⟨by decide, ⟨[], rfl⟩, ?_, ⟨[], rfl⟩⟩
  simp only [sourceBytes, List.length_replicate]
  decide

/-- `WaitBusyClears`: clear at once with no time, and clear at the second sample with the least time. -/
theorem witness_wait_clears :
    ClearsAfter 0 (start .awake [false] []) ∧ clearsInTime hw 0 0 ∧ ClearsAfter 1 (start .awake [true, false] []) ∧
    clearsInTime hw 1 1 := ⟨⟨[], rfl⟩, .inl rfl, ⟨[], rfl⟩,
    .inr (by rw [Nat.sub_self, Nat.zero_mul]; decide)⟩

/-- `WaitBusyTimesOut`: no time, and any time. -/
theorem witness_wait_stuck (timeout : Nat) :
    StaysBusy (pollTurns hw timeout + 1) (start .awake (List.replicate (pollTurns hw timeout + 1) true) []) :=
  ⟨[], by rw [List.append_nil]; rfl⟩

/-- `WhichPrimitivesFail`, `BusOperationsFrame`: each primitive answers a next state. -/
theorem witness_primitives_next (s : State) :
    (∃ t, exec (.spiTxn [0x00]) s = .next t) ∧ (∃ t, exec (.writeCmd 0x00) s = .next t) ∧
    (∃ t, exec (.writeData .bmp) s = .next t) ∧ (∃ t, exec (.waitBusy 0) s = .next t) ∧
    (∃ t, exec (.setPwr true) s = .next t) ∧ (∃ t, exec (.setRst true) s = .next t) ∧
    (∃ t, exec (.setDc true) s = .next t) ∧ (∃ t, exec (.delay 0) s = .next t) ∧ (∃ t, exec .readBusy s = .next t) ∧
    (∃ t, exec .deepSleep s = .next t) :=
  ⟨⟨_, rfl⟩, ⟨_, rfl⟩, ⟨_, rfl⟩, ⟨_, rfl⟩, ⟨_, rfl⟩, ⟨_, rfl⟩, ⟨_, rfl⟩, ⟨_, rfl⟩, ⟨_, rfl⟩, ⟨_, rfl⟩⟩

/-- `WireCommandsComplete`: a command without parameters, one with OPEN parameters and one with the bitmap. -/
theorem witness_wire_commands :
    NoFail (1 + (([] : List Byte).length + 4095) / 4096) (start .awake [] (fine 1)) ∧
    NoFail (1 + (hw.pDoc.length + 4095) / 4096) (start .awake [] (fine (1 + (hw.pDoc.length + 4095) / 4096))) ∧
    NoFail (1 + ((latchBytes hw (start .awake [] (fine 13))).length + 4095) / 4096) (start .awake [] (fine 13)) := by
  have h : (latchBytes hw (start .awake [] (fine 13))).length = 48000 := by
    simp only [latchBytes, Memory.readRange, List.length_map, List.length_range]
    rfl
  rw [h, show 1 + (48000 + 4095) / 4096 = 13 by norm_num]
  exact ⟨noFail_replicate _ _ rfl, noFail_replicate _ _ (by simp only [start, fine]), noFail_replicate _ _ rfl⟩

/-- `WireCommandByteFails`: a command byte; the one data chunk of `DEEP_SLEEP`, the first and the last of `WRITE_NEW`. -/
theorem witness_wire_fails :
    failNow (start .awake [] [true]) = true ∧ 0 < (([0x01] : List Byte).length + 4095) / 4096 ∧
    FailsAt (1 + 0) (start .awake [] [false, true]) ∧
    (∀ s, 0 < ((latchBytes hw s).length + 4095) / 4096 ∧ 11 < ((latchBytes hw s).length + 4095) / 4096) ∧
    FailsAt (1 + 11) (start .awake [] (fine 12 ++ [true])) := by
  refine ⟨rfl, by decide, ⟨[], rfl⟩, fun s => ?_, ⟨[], rfl⟩⟩
  have h : (latchBytes hw s).length = 48000 := by
    simp only [latchBytes, Memory.readRange, List.length_map, List.length_range]
    rfl
  rw [h]
  decide

/-- `WireCommandByteFails`, an element of `GSV`: the first one and, where there is one, the last; its command byte, and
each of its chunks. -/
theorem witness_gsv_fails :
    hw.gsv = [] ++ Config.gsvHead :: Config.gsvTail ∧
    (∀ pre g, Config.gsvTail = pre ++ [g] → hw.gsv = (Config.gsvHead :: pre) ++ g :: []) ∧
    ∀ k, FailsAt k (start .awake [] (fine k ++ [true])) :=
  ⟨rfl, fun pre g h => by rw [List.cons_append, ← h]; rfl, fun _ => ⟨[], rfl⟩⟩

/-- `GateSourceVoltageCompletes`. -/
theorem witness_gate_src_volt :
    NoFail (txnCount (hw.gsv.flatMap (fun g => sendEvents hw g.cmd g.params)))
      (start .awake [] (fine (txnCount (hw.gsv.flatMap (fun g => sendEvents hw g.cmd g.params))))) :=
  noFail_replicate _ _ rfl

/-- `InitCompletes`, `InitOutcomes`, `InitFramesInOrder`: from `Uninitialized` with the busy line clear at once, and from `Asleep`. -/
theorem witness_init_completes (p : PanelState) (hp : p ≠ .awake) :
    (start p [false] (fine (txnCount (initEvents hw 0)))).seq.op = .idle ∧
    (start p [false] (fine (txnCount (initEvents hw 0)))).st ≠ .awake ∧
    NoFail (txnCount (initEvents hw 0)) (start p [false] (fine (txnCount (initEvents hw 0)))) ∧
    ClearsAfter 0 (start p [false] (fine (txnCount (initEvents hw 0)))) ∧ clearsInTime hw hw.tInitBusy 0 :=
  ⟨rfl, hp, noFail_replicate _ _ rfl, ⟨[], rfl⟩, .inl rfl⟩

/-- `InitBusFails`: the first transaction, and each other one. -/
theorem witness_init_bus_fails :
    0 < txnCount (initEvents hw 0) ∧ (start .asleep [false] [true]).st ≠ .awake ∧
    ClearsAfter 0 (start .asleep [false] [true]) ∧ FailsAt 0 (start .asleep [false] [true]) ∧
    ∀ k, FailsAt k (start .asleep [false] (fine k ++ [true])) ∧ ClearsAfter 0 (start .asleep [false] (fine k ++ [true])) := by
  refine ⟨?_, by simp [start], ⟨[], rfl⟩, ⟨[], rfl⟩, fun k => ⟨⟨[], rfl⟩, [], rfl⟩⟩
  rw [txnCount_initEvents]
  omega

/-- `InitTimesOut`. -/
theorem witness_init_times_out :
    (start .asleep (List.replicate (pollTurns hw hw.tInitBusy + 1) true) (fine 1)).st ≠ .awake ∧
    NoFail 1 (start .asleep (List.replicate (pollTurns hw hw.tInitBusy + 1) true) (fine 1)) ∧
    StaysBusy (pollTurns hw hw.tInitBusy + 1)
      (start .asleep (List.replicate (pollTurns hw hw.tInitBusy + 1) true) (fine 1)) :=
  ⟨by simp [start], noFail_replicate _ _ rfl, [], by rw [List.append_nil]; rfl⟩

/-- `InvalidStateChecks`, each clause; `GeometryMismatchCheck` and the other length of `DisplayOutcomes`, one byte less
and one more. -/
theorem witness_entry_checks :
    (start .awake [] []).st = .awake ∧ (start .transferring [] []).st ≠ .awake ∧ (start .asleep [] []).st ≠ .awake ∧
    (start .uninitialized [] []).st = .uninitialized ∧ (start .asleep [] []).st = .asleep ∧
    { start .awake [] [] with bmpLen := 47999 }.bmpLen ≠ 48000 ∧
    { start .awake [] [] with bmpLen := 48001 }.bmpLen ≠ 48000 ∧ (start .awake [] []).seq.op = .idle := by decide

/-- `DisplayCompletes`, `DisplayOutcomes`; for `DoubleWritePayloads` byte 0 of a bitmap of `hw.bmpBytes` bytes. -/
theorem witness_display_completes :
    (awakeFull [false] (fine 27)).seq.op = .idle ∧ (awakeFull [false] (fine 27)).st = .awake ∧
    (awakeFull [false] (fine 27)).bmpLen = 48000 ∧ NoFail 27 (awakeFull [false] (fine 27)) ∧
    ClearsAfter 0 (awakeFull [false] (fine 27)) ∧ clearsInTime hw hw.tRefresh 0 ∧ 0 < hw.bmpBytes :=
  ⟨rfl, rfl, rfl, noFail_replicate _ _ rfl, ⟨[], rfl⟩, .inl rfl, by decide⟩

/-- `DisplayTransferFails`: the command bytes (0, 13, 26) and the first and last chunk of each pass (1, 12, 14, 25). -/
theorem witness_display_fails :
    ∀ k ∈ [0, 1, 12, 13, 14, 25, 26], k < 27 ∧ (awakeFull [] (fine k ++ [true])).bmpLen = 48000 ∧
      FailsAt k (awakeFull [] (fine k ++ [true])) := by
  intro k hk
  exact ⟨by simp at hk; omega, rfl, [], rfl⟩

/-- `DisplayRefreshTimesOut`. -/
theorem witness_display_times_out :
    NoFail 27 (awakeFull (List.replicate (pollTurns hw hw.tRefresh + 1) true) (fine 27)) ∧
    StaysBusy (pollTurns hw hw.tRefresh + 1)
      (awakeFull (List.replicate (pollTurns hw hw.tRefresh + 1) true) (fine 27)) :=
  ⟨noFail_replicate _ _ rfl, [], by rw [List.append_nil]; rfl⟩

/-- `SleepCompletes`, and `SleepFails` at both transactions. -/
theorem witness_sleep :
    (start .awake [] (fine 2)).st = .awake ∧ NoFail 2 (start .awake [] (fine 2)) ∧
    FailsAt 0 (start .awake [] [true]) ∧ FailsAt 1 (start .awake [] [false, true]) :=
  ⟨rfl, ⟨[], rfl⟩, ⟨[], rfl⟩, ⟨[], rfl⟩⟩

/-- `TransitionRelation`, `PanelOperationsFrame`, `OperationsEndDelivered`, `OnlyDocumentedCommandBytes`: every level-H
operation answers a next state. -/
theorem witness_host_next :
    (∃ t, exec .init (start .asleep [] []) = .next t) ∧ (∃ t, exec .displayFull (awakeFull [] []) = .next t) ∧
    (∃ t, exec .sleep (start .awake [] []) = .next t) ∧ (∃ t, exec .encode (start .awake [] []) = .next t) ∧
    (start .asleep [] []).st ≠ .transferring ∧ (start .awake [] []).st ≠ .transferring := by
  refine ⟨⟨_, rfl⟩, ⟨_, rfl⟩, ⟨_, rfl⟩, ⟨encodeBody hw (accept .encode (start .awake [] [])), ?_⟩, by decide, by decide⟩
  simp only [exec, execEncode, encodeOp]
  rw [if_pos (by decide), if_pos (by decide)]

/-- `HostOperationsRefusedWhileBusy`. -/
theorem witness_busy : { State.reset with seq := ⟨.display, 1, 0⟩ }.seq.op ≠ .idle := by decide

/-- `EncodeCompletes`, `EncodeRefusesOperands`, `EncodeDependsOnOperandsOnly`: the least and the greatest operands
admitted, those beside them, and two states that differ elsewhere. -/
theorem witness_encode :
    1 ≤ (withImage [] 1 1 8 0 false).imgW.toNat ∧ 1 ≤ (withImage [] 1 1 8 0 false).imgH.toNat ∧
    (withImage [] 1 1 8 0 false).imgDepth = 8 ∧ (withImage [] 0xFFFFFFFF 0xFFFFFFFF 16 255 true).imgDepth = 16 ∧
    1 ≤ (withImage [] 0xFFFFFFFF 0xFFFFFFFF 16 255 true).imgW.toNat ∧ Memory.wf (withImage [] 1 1 8 0 false).bmp ∧
    (withImage [] 0 1 8 0 false).imgW = 0 ∧ (withImage [] 1 0 8 0 false).imgH = 0 ∧
    ((withImage [] 1 1 9 0 false).imgDepth ≠ 8 ∧ (withImage [] 1 1 9 0 false).imgDepth ≠ 16) ∧
    encodeArgs (start .awake [] []) = encodeArgs (start .asleep [true] [true]) := by decide

/-- `EncodeSize`: this hardware. -/
theorem witness_encode_size : hw.width % 8 = 0 := rfl

/-- `LumaRange`, `ScaleEight`, `ClassifyThreshold`: the greatest 8-bit values. -/
theorem witness_codec_ranges : (⟨255, 255, 255⟩ : Rgb).r ≤ 255 ∧ (px 255 255 255).r.toNat < 256 ∧ 255 ≤ 255 := by decide

/-- `StepKeepsInvariant`, `NoStepFaults`: an awake panel meets the invariant, and its step answers a next state. -/
theorem witness_invariant : (awakeFull [] []).Inv ∧ ∃ t, step (awakeFull [] []) = .next t where
  left :=
    { bmp_wf := by decide
      latch_wf := by decide
      img_wf := by decide
      cs_idle := rfl
      sclk_low := rfl
      result := by refine ⟨by decide, by decide, by decide, by decide⟩
      seq := by refine ⟨by decide, by decide, ?_⟩; intro h; exact absurd rfl h
      settled := by refine ⟨by decide, ?_⟩; intro h; exact absurd h (by decide) }
  right := ⟨_, rfl⟩

/-- `StepKeepsTraceInvariant`, `TraceOnlyGrows`: a trace with a data transaction, and an empty bench. -/
theorem witness_trace_invariant :
    withTrace.TraceInv ∧ (∃ t, step withTrace = .next t) ∧ withTrace.bench = none where
  left :=
    { sized := by
        simp only [withTrace, List.mem_cons, List.not_mem_nil, or_false]
        rintro e (rfl | rfl) <;> decide
      held := by
        intro line l
        cases line <;> simp [withTrace, lastPin, State.lineLevel]
      levels := by decide }
  right := ⟨⟨_, rfl⟩, rfl⟩

/-- `MicroStepsMakeTheOperation`. -/
theorem witness_micro_steps :
    (awakeFull [] []).seq.op = .idle ∧ (awakeFull [] []).st = .awake ∧ (awakeFull [] []).bmpLen = 48000 ∧
    (start .asleep [] []).st ≠ .awake := by decide

end Sys2Proof.Tests
end

section
/-!
PROOFS. The configuration of this hardware (00_scope.md R4, R172, U9): the floor map, the four pins, and every value of
the table of R4.
-/

namespace Sys2Proof.Machine

/-! ### The floor map (R172) -/

/-- A coordinate scaled down from a target of size `m` stays inside a source of size `n` (R172). -/
theorem floorScale_lt {i m n : Nat} (hn : 1 ≤ n) (hi : i < m) : i * n / m < n :=
  Nat.div_lt_of_lt_mul (Nat.mul_lt_mul_of_pos_right hi hn)

theorem floorMap_resizeMapOk : ResizeMapOk floorMap where
  inside _ hw hh hx hy := ⟨floorScale_lt hw hx, floorScale_lt hh hy⟩
  identity a hw hh hx hy := by
    have hsx : a.x * a.width / a.width = a.x := Nat.mul_div_cancel _ (Nat.zero_lt_of_lt hx)
    have hsy : a.y * a.height / a.height = a.y := Nat.mul_div_cancel _ (Nat.zero_lt_of_lt hy)
    rw [floorMap, hw, hh, hsx, hsy]

/-! ### The pins (R4, U9) -/

/-- Whatever the raw numbers are, the four pins differ (log entry 6). -/
theorem distinctPins_nodup (p : Nat × Nat × Nat × Nat) :
    [(distinctPins p).1, (distinctPins p).2.1, (distinctPins p).2.2.1, (distinctPins p).2.2.2].Nodup := by
  unfold distinctPins
  split
  case isTrue h => exact h
  case isFalse => decide

/-! ### The configuration (R4) -/

@[simp] theorem hw_width : hw.width = 800 := rfl
@[simp] theorem hw_height : hw.height = 480 := rfl
@[simp] theorem hw_rowBytes : hw.rowBytes = 100 := rfl
@[simp] theorem hw_bmpBytes : hw.bmpBytes = 48000 := rfl
@[simp] theorem hw_maxChunk : hw.maxChunk = 4096 := rfl
@[simp] theorem hw_spiMode : hw.spiMode = 0 := rfl
@[simp] theorem hw_spiWord : hw.spiWord = 8 := rfl
@[simp] theorem hw_spiHz : hw.spiHz = 2000000 := rfl
@[simp] theorem hw_spiMsbFirst : hw.spiMsbFirst = true := rfl
@[simp] theorem hw_imgDepthSet : hw.imgDepthSet = [8, 16] := rfl
@[simp] theorem hw_resizeMap : hw.resizeMap = floorMap := rfl

/-- The configuration of this hardware is valid, whatever its OPEN parameters: the pins are made distinct, the poll
interval is a successor, and `GSV` has a first element (R4, U9; log entry 6). -/
theorem hw_valid : hw.Valid where
  width_pos := by simp
  width_u32 := by simp
  width_mod := by simp
  height_pos := by simp
  height_u32 := by simp
  chunk_pos := by simp
  chunk_le := by simp
  spi_mode := hw_spiMode
  spi_word := hw_spiWord
  msb_first := hw_spiMsbFirst
  pins_distinct := distinctPins_nodup Config.pinsRaw
  poll_pos := Nat.succ_pos Config.pollPred
  gsv_ne := List.cons_ne_nil Config.gsvHead Config.gsvTail
  depth_set := hw_imgDepthSet
  map_ok := floorMap_resizeMapOk

/-- Settles O3, from the validity of `hw` and one equation per value of the table of R4 (R4, R172). -/
theorem hardwareConfigValid : Obligations.HardwareConfigValid :=
  ⟨hw_valid, hw_width, hw_height, hw_rowBytes, hw_bmpBytes, hw_maxChunk, hw_cSwreset, hw_cDoc, hw_cDem, hw_cXwin,
    hw_cYwin, hw_cXcnt, hw_cYcnt, hw_cOld, hw_cNew, hw_cRefresh, hw_cDsleep, hw_pDsleep, hw_spiMode, hw_spiWord,
    hw_spiHz, hw_spiMsbFirst, hw_imgDepthSet, hw_resizeMap, fun _ => rfl⟩

end Sys2Proof.Machine
end

section
/-!
PROOFS. What the transport primitives and the wire commands can do at `exec` (R28, R112): one frame for all of them,
from which the statements about single steps take what they need.
-/

namespace Sys2Proof.Machine

/-! ### Where `SEQ.off` is after a data pass (R13) -/

/-- A `SEND` leaves `SEQ.off` at 0 where it found it there (R13; log entry 23). -/
theorem send_off (c : Cfg) (cmd : Byte) (p : List Byte) {s : State} (h : s.seq.off = 0) :
    (send c cmd p s).seq.off = 0 := by
  simp only [send]
  split
  · split
    · simpa using h
    · rfl
  all_goals simpa using h

theorem sendAll_off (c : Cfg) (gs : List GsvEntry) {s : State} (h : s.seq.off = 0) :
    (sendAll c gs s).seq.off = 0 := by
  induction gs generalizing s with
  | nil => exact h
  | cons g gs ih =>
    have hoff := send_off c g.cmd g.params h
    simp only [sendAll]
    split
    · exact ih hoff
    all_goals exact hoff

/-! ### The frame of a bus operation (R28, R112) -/

/-- The operations that read the busy line (R103, R109). -/
def Instr.Samples (i : Instr) : Prop := i = .readBusy ∨ ∃ d, i = .waitBusy d

/-- What running the primitive or wire command `i` from `s` to `t` can do: the lines it may write, and the events it
appends. -/
structure BusFrame (i : Instr) (s t : State) : Prop where
  keeps : BusKeeps s t
  pwr : (∀ l, i ≠ .setPwr l) → t.pwr = s.pwr
  rst : (∀ l, i ≠ .setRst l) → t.rst = s.rst
  elapsed : (∀ d, i ≠ .waitBusy d) → t.elapsed = s.elapsed
  pins : Instr.Samples i → t.dc = s.dc ∧ t.cs = s.cs ∧ t.sclk = s.sclk ∧ t.mosi = s.mosi ∧ t.failIn = s.failIn
  run : ∃ evs, Run s evs t
  off : s.seq.off = 0 → t.seq.off = 0

/-- The frame of an operation that neither writes the power or the reset line nor samples. -/
theorem BusFrame.of_busOnly {i : Instr} {s t : State} (hi : ¬ Instr.Samples i) (h : BusOnly s t)
    (he : t.elapsed = s.elapsed) (hr : ∃ evs, Run s evs t) (hoff : s.seq.off = 0 → t.seq.off = 0) : BusFrame i s t :=
  ⟨h.keeps, fun _ => h.pwr, fun _ => h.rst, fun _ => he, fun hs => absurd hs hi, hr, hoff⟩

theorem send_frame {i : Instr} (hi : ¬ Instr.Samples i) (cmd : Byte) (p : List Byte) (s : State) :
    BusFrame i s (send hw cmd p s) :=
  have ⟨evs, hr, _⟩ := send_run cmd p s
  .of_busOnly hi (send_busOnly hw cmd p s) (send_elapsed hw cmd p s) ⟨evs, hr⟩ (send_off hw cmd p)

theorem sendAll_frame {i : Instr} (hi : ¬ Instr.Samples i) (gs : List GsvEntry) (s : State) :
    BusFrame i s (sendAll hw gs s) :=
  have ⟨evs, hr, _⟩ := sendAll_run gs s
  .of_busOnly hi (sendAll_busOnly hw gs s) (sendAll_elapsed hw gs s) ⟨evs, hr⟩ (sendAll_off hw gs)

theorem waitBusy_frame (d : Nat) (s : State) : BusFrame (.waitBusy d) s (waitBusy hw d s) where
  keeps := (waitBusy_busOnly hw d s).keeps
  pwr _ := (waitBusy_busOnly hw d s).pwr
  rst _ := (waitBusy_busOnly hw d s).rst
  elapsed h := absurd rfl (h d)
  pins _ := by simp
  run := (waitBusy_run hw d s).imp fun _ h => h.1
  off h := by simpa using h

theorem readBusy_frame (s : State) : BusFrame .readBusy s (readBusy s) where
  keeps := (readBusy_busOnly s).keeps
  pwr _ := rfl
  rst _ := rfl
  elapsed _ := rfl
  pins _ := by simp
  run := ⟨_, readBusy_run s⟩
  off := id

theorem setPwr_frame (l : Bool) (s : State) : BusFrame (.setPwr l) s (setPwr l s) where
  keeps := setPwr_keeps l s
  pwr h := absurd rfl (h l)
  rst _ := rfl
  elapsed _ := rfl
  pins h := by simp [Instr.Samples] at h
  run := ⟨_, setPwr_run l s⟩
  off := id

theorem setRst_frame (l : Bool) (s : State) : BusFrame (.setRst l) s (setRst l s) where
  keeps := setRst_keeps l s
  pwr _ := rfl
  rst h := absurd rfl (h l)
  elapsed _ := rfl
  pins h := by simp [Instr.Samples] at h
  run := ⟨_, setRst_run l s⟩
  off := id

/-- Every transport primitive and every wire command has the frame. -/
theorem exec_busFrame {i : Instr} {s t : State} (hl : i.level ≠ .host) (he : exec i s = .next t) :
    BusFrame i s t := by
  cases i with
  | init | displayFull | sleep | encode => exact absurd rfl hl
  | writeCmd code =>
    cases he
    exact .of_busOnly (by simp [Instr.Samples]) (writeCmd_busOnly code s) (writeCmd_elapsed code s)
      ⟨_, writeCmd_run code s⟩ (by simp)
  | writeData src =>
    cases he
    obtain ⟨evs, hr, -⟩ := writeData_run (sourceBytes hw s src) s
    exact .of_busOnly (by simp [Instr.Samples]) ((writeData_busOnly hw _ s).trans (endData_busOnly _))
      (writeData_elapsed hw _ s) ⟨_, hr.trans (endData_run _)⟩ fun _ => rfl
  | waitBusy d => cases he; exact waitBusy_frame d s
  | setPwr l => cases he; exact setPwr_frame l s
  | setRst l => cases he; exact setRst_frame l s
  | delay d => cases he; exact .of_busOnly (by simp [Instr.Samples]) (delay_busOnly d s) rfl ⟨_, delay_run d s⟩ id
  | setDc l => cases he; exact .of_busOnly (by simp [Instr.Samples]) (setDc_busOnly l s) rfl ⟨_, setDc_run l s⟩ id
  | spiTxn bytes =>
    simp only [exec, execSpiTxn] at he
    split at he
    case isTrue hlen =>
      cases he
      exact .of_busOnly (by simp [Instr.Samples]) (spiTxn_busOnly bytes s) (spiTxn_elapsed bytes s)
        ⟨_, spiTxn_run s hlen⟩ (by simp)
    case isFalse => cases he
  | readBusy => cases he; exact readBusy_frame s
  | gateSrcVolt => cases he; exact sendAll_frame (by simp [Instr.Samples]) hw.gsv s
  | swreset | drvOutCtrl | dataEntry | xWindow | yWindow | xCounter | yCounter | writeOld | writeNew | refresh
  | deepSleep => cases he; exact send_frame (by simp [Instr.Samples]) _ _ s

/-- Settles O25, from the frame every bus operation has (R28, R112). -/
theorem busOperationsFrame : Obligations.BusOperationsFrame := by
  unfold Obligations.BusOperationsFrame
  intro i s t hl he
  have h := exec_busFrame hl he
  exact ⟨h.keeps, h.pwr, h.rst, h.elapsed, h.pins, fun a => by rw [h.keeps.bmp], fun a => by rw [h.keeps.latch]⟩

end Sys2Proof.Machine
end

section
/-!
PROOFS. How each level-H operation can end, said once per operation (R12, R150, R152, R154, R170), and the statements
about outcomes and frames that follow from it (R28).
-/

namespace Sys2Proof.Machine

/-! ### An operation that ended (R200) -/

/-- An operation that ran from `s` and delivered `r` in `t`: events appended, the host's registers and
buffers as before. -/
structure Ended (s : State) (r : OpResult) (t : State) : Prop where
  delivered : Delivered r t
  run : ∃ evs, Run s evs t
  keeps : PanelKeeps s t

/-- The result delivered from a state the operation reached. -/
theorem Ended.deliver {s t : State} {evs : List Event} (r : OpResult) (hr : Run s evs t) (hk : PanelKeeps s t) :
    Ended s r (Sys2Proof.Machine.deliver r t) :=
  ⟨deliver_delivered r t, ⟨_, hr.trans (deliver_run r t)⟩, hk.trans (deliver_keeps r t)⟩

/-- The result of an entry check, delivered on acceptance. -/
theorem ended_check (r : OpResult) (op : SeqOp) (s : State) : Ended s r (deliver r (accept op s)) :=
  .deliver r (accept_run op s) (accept_keeps op s)

/-- An operation put in motion by a prologue `s` to `t`. -/
theorem Ended.after {s t u : State} {evs : List Event} {r : OpResult} (hr : Run s evs t) (hk : PanelKeeps s t)
    (h : Ended t r u) : Ended s r u :=
  ⟨h.delivered, h.run.elim fun _ h => ⟨_, hr.trans h⟩, hk.trans h.keeps⟩

/-- A write of `ST` is seen neither on the bus nor at the host's registers. -/
theorem setSt_run (p : PanelState) (s : State) : Run s [] { s with st := p } := .of_same rfl rfl rfl rfl rfl rfl

theorem setSt_keeps (p : PanelState) (s : State) : PanelKeeps s { s with st := p } := by constructor <;> rfl

/-- The result delivered together with a new `ST`. -/
theorem Ended.deliverSt {s t : State} {evs : List Event} (r : OpResult) (p : PanelState) (hr : Run s evs t)
    (hk : PanelKeeps s t) : Ended s r (Sys2Proof.Machine.deliver r { t with st := p }) :=
  .deliver r (hr.trans (setSt_run p t)) (hk.trans (setSt_keeps p t))

/-! ### Aborts by phase (R196) -/

theorem abort_init (cause : Ret) {s : State} (h : s.seq.op = .init) :
    ∃ c, abort cause s = deliver (.err (.initFailed c)) { s with st := .uninitialized } := by
  cases cause with
  | timeout => exact ⟨.timeout, by simp [abort, h]⟩
  | ok | busError | level => exact ⟨.busError, by simp [abort, h]⟩

theorem abort_sleep (cause : Ret) {s : State} (h : s.seq.op = .sleep) :
    abort cause s = deliver (.err .sleepFailed) s := by
  simp [abort, h]

/-- The errors a transfer or a refresh of this hardware's bitmap can end with (R195, R196). -/
def DisplayError (r : OpResult) : Prop :=
  (∃ off, r = .err (.transferFailed off) ∧ off % 4096 = 0 ∧ off < 48000) ∨ r = .err .refreshTimeout

theorem abort_display {u : UOp} {cause : Ret} {s : State} (hu : u ∈ displayBus) (hc : u.MayEnd cause)
    (h : s.seq.op = .display) :
    ∃ r, DisplayError r ∧ abort cause s = deliver r { s with st := .awake } := by
  have hbus : (∃ off, cause = .busError off ∧ off % 4096 = 0 ∧ off < 48000) ∨ cause = .timeout := by
    have hpass : ∀ n, n < chunkCount hw.maxChunk 48000 → n * hw.maxChunk % 4096 = 0 ∧ n * hw.maxChunk < 48000 :=
      fun n hn => ⟨Nat.mul_mod_left n 4096, chunk_start_lt hn⟩
    simp only [displayBus, List.mem_cons, List.not_mem_nil, or_false] at hu
    rcases hu with rfl | rfl | rfl | rfl | rfl | rfl
    · exact .inl ⟨0, hc, by decide⟩
    · obtain ⟨n, hn, rfl⟩ := hc; exact .inl ⟨_, rfl, hpass n hn⟩
    · exact .inl ⟨0, hc, by decide⟩
    · obtain ⟨n, hn, rfl⟩ := hc; exact .inl ⟨_, rfl, hpass n hn⟩
    · exact .inl ⟨0, hc, by decide⟩
    · exact .inr hc
  rcases hbus with ⟨off, rfl, hoff⟩ | rfl
  · exact ⟨_, .inl ⟨off, rfl, hoff⟩, by simp [abort, h]⟩
  · exact ⟨_, .inr rfl, by simp [abort, h]⟩

/-! ### `INIT` (R150) -/

theorem exec_init_awake {s : State} (h : s.seq.op = .idle) (hst : s.st = .awake) :
    exec .init s = .next (deliver (.err .invalidState) (accept .init s)) := by
  simp [exec, execInit, hostOp, h, initBody, hst]

/-- The program of `INIT` ends `Awake` with `Ok`, or `Uninitialized` with `InitFailed`. -/
theorem initProg_ends {s : State} (hop : s.seq.op = .init) :
    ∃ r, Ended s r (runProg hw (initProg hw) s) ∧ (runProg hw (initProg hw) s).latch = s.latch ∧
      (r = .ok ∧ (runProg hw (initProg hw) s).st = .awake ∨
        (∃ c, r = .err (.initFailed c)) ∧ (runProg hw (initProg hw) s).st = .uninitialized) := by
  rw [initProg_eq]
  obtain ⟨p, hp, e⟩ := runProg_pulse
    (.writeCmd hw.cSwreset :: .waitBusy hw.tInitBusy :: (setupUOps hw ++ [.setSt .awake, .ret .ok])) (s := s)
    (by simp [hop])
  rw [e]
  have hbus : ∀ u ∈ .writeCmd hw.cSwreset :: .waitBusy hw.tInitBusy :: setupUOps hw, u.usesBus = true := by
    simp only [List.mem_cons]
    rintro u (rfl | rfl | hu)
    · rfl
    · rfl
    · exact setupUOps_usesBus hw u hu
  obtain ⟨t, evs, ha, -, ⟨e, -⟩ | ⟨u, -, cause, -, e⟩⟩ := runProg_bus [.setSt .awake, .ret .ok] p hbus
    (.inl (hp.op.trans hop))
  all_goals
    simp only [List.cons_append] at e
    rw [e]
    have hrun := hp.run.trans ha.run
    have hkeeps := hp.keeps.trans ha.keeps
    have hlatch := ha.latch.trans hp.latch
    have htop : t.seq.op = .init := ha.op.trans (hp.op.trans hop)
  · rw [runProg_end (by simp [htop])]
    exact ⟨_, .deliver .ok (hrun.trans ((setSt_run .awake t).trans (advance_run _)))
      (hkeeps.trans ((setSt_keeps .awake t).trans (advance_along _).keeps)), hlatch, .inl ⟨rfl, rfl⟩⟩
  · obtain ⟨c, e⟩ := abort_init cause htop
    rw [e]
    exact ⟨_, .deliverSt _ _ hrun hkeeps, hlatch, .inr ⟨⟨c, rfl⟩, rfl⟩⟩

/-- How `INIT` can end (R12, R150, R193). -/
theorem exec_init_cases {s t : State} (he : exec .init s = .next t) :
    ∃ r, Ended s r t ∧ t.latch = s.latch ∧
      (s.st = .awake ∧ r = .err .invalidState ∧ t.st = .awake ∨
        s.st ≠ .awake ∧ (r = .ok ∧ t.st = .awake ∨ (∃ c, r = .err (.initFailed c)) ∧ t.st = .uninitialized)) := by
  have hidle := exec_host_idle rfl he
  by_cases hst : s.st = .awake
  · rw [exec_init_awake hidle hst] at he
    cases he
    exact ⟨_, ended_check _ _ s, rfl, .inl ⟨hst, rfl, hst⟩⟩
  · rw [exec_init hidle hst] at he
    cases he
    obtain ⟨r, hend, hlatch, hr⟩ := initProg_ends (s := accept .init s) rfl
    exact ⟨r, .after (accept_run _ s) (accept_keeps _ s) hend, hlatch, .inr ⟨hst, hr⟩⟩

/-! ### `DISPLAY_FULL` (R152) -/

theorem exec_display_notAwake {s : State} (h : s.seq.op = .idle) (hst : s.st ≠ .awake) :
    exec .displayFull s = .next (deliver (.err .invalidState) (accept .display s)) := by
  simp [exec, execDisplayFull, hostOp, h, displayBody, hst]

theorem exec_display_mismatch {s : State} (h : s.seq.op = .idle) (hst : s.st = .awake) (hlen : s.bmpLen ≠ 48000) :
    exec .displayFull s = .next (deliver (.err .geometryMismatch) (accept .display s)) := by
  have hl : s.bmpLen.toNat ≠ 48000 := fun hl => hlen (BitVec.eq_of_toNat_eq hl)
  simp [exec, execDisplayFull, hostOp, h, displayBody, hst, hl]

/-- `DISPLAY_FULL` behind its entry checks ends `Awake`, with `Ok` or an error of the transfer or the refresh; it writes
neither the power nor the reset line, and `LATCH` is the bitmap captured. -/
theorem exec_display_ends {s : State} (h : s.seq.op = .idle) (hst : s.st = .awake) (hlen : s.bmpLen = 48000) :
    ∃ r t, exec .displayFull s = .next t ∧ Ended s r t ∧ (r = .ok ∨ DisplayError r) ∧ t.st = .awake ∧ t.pwr = s.pwr ∧
      t.rst = s.rst ∧ t.latch = Memory.restrict s.bmp hw.bmpBytes := by
  rw [exec_display h hst hlen]
  obtain ⟨t, evs, ha, -, ⟨e, -⟩ | ⟨u, hu, cause, hc, e⟩⟩ := runProg_bus [.setSt .awake, .ret .ok] (displayStart s)
    (pre := displayBus) (by decide) (.inr (.inl rfl))
  all_goals
    rw [e]
    have hrun := (displayStart_run s).trans ha.run
    have hkeeps := (displayStart_keeps s).trans ha.keeps
  · rw [runProg_end (by simp [ha.op, displayStart])]
    exact ⟨_, _, rfl, .deliver .ok (hrun.trans ((setSt_run .awake t).trans (advance_run _)))
      (hkeeps.trans ((setSt_keeps .awake t).trans (advance_along _).keeps)), .inl rfl, rfl, ha.pwr, ha.rst, ha.latch⟩
  · obtain ⟨r, hr, e⟩ := abort_display hu hc (s := t) ha.op
    rw [e]
    exact ⟨r, _, rfl, .deliverSt _ _ hrun hkeeps, .inr hr, rfl, ha.pwr, ha.rst, ha.latch⟩

/-- How `DISPLAY_FULL` can end (R12, R152, R193, R194). -/
theorem exec_display_cases {s t : State} (he : exec .displayFull s = .next t) :
    ∃ r, Ended s r t ∧ t.pwr = s.pwr ∧ t.rst = s.rst ∧
      (s.st ≠ .awake ∧ r = .err .invalidState ∧ t.st = s.st ∧ t.latch = s.latch ∨
        s.st = .awake ∧ s.bmpLen ≠ 48000 ∧ r = .err .geometryMismatch ∧ t.st = .awake ∧ t.latch = s.latch ∨
        s.st = .awake ∧ s.bmpLen = 48000 ∧ (r = .ok ∨ DisplayError r) ∧ t.st = .awake ∧
          t.latch = Memory.restrict s.bmp hw.bmpBytes) := by
  have hidle := exec_host_idle rfl he
  by_cases hst : s.st = .awake
  · by_cases hlen : s.bmpLen = 48000
    · obtain ⟨r, t', he', hend, hr, hst', hp, hrst, hl⟩ := exec_display_ends hidle hst hlen
      rw [he'] at he
      cases he
      exact ⟨r, hend, hp, hrst, .inr (.inr ⟨hst, hlen, hr, hst', hl⟩)⟩
    · rw [exec_display_mismatch hidle hst hlen] at he
      cases he
      exact ⟨_, ended_check _ _ s, rfl, rfl, .inr (.inl ⟨hst, hlen, rfl, hst, rfl⟩)⟩
  · rw [exec_display_notAwake hidle hst] at he
    cases he
    exact ⟨_, ended_check _ _ s, rfl, rfl, .inl ⟨hst, rfl, rfl, rfl⟩⟩

/-- Settles O38: behind the entry checks by the stretch of bus micro-operations, before them by the checks (R152,
R194). -/
theorem displayOutcomes : Obligations.DisplayOutcomes := by
  unfold Obligations.DisplayOutcomes
  intro s hidle hst
  by_cases hlen : s.bmpLen = 48000
  · obtain ⟨r, t, he, hend, hr, hst', hp, hrst, -⟩ := exec_display_ends hidle hst hlen
    exact ⟨t, r, he, hend.delivered, hst', fun _ => hr, fun hne => absurd hlen hne, hp, hrst, hend.keeps⟩
  · have hend := ended_check (.err .geometryMismatch) .display s
    exact ⟨_, _, exec_display_mismatch hidle hst hlen, hend.delivered, hst, fun h => absurd h hlen,
      fun _ => ⟨rfl, deliver_accept_quiet _ _ s⟩, rfl, rfl, hend.keeps⟩

/-! ### `SLEEP` (R154) -/

theorem exec_sleep_asleep {s : State} (h : s.seq.op = .idle) (hst : s.st = .asleep) :
    exec .sleep s = .next (deliver .ok (accept .sleep s)) := by
  simp [exec, execSleep, hostOp, h, sleepBody, hst]

theorem exec_sleep_invalid {s : State} (h : s.seq.op = .idle) (ha : s.st ≠ .awake) (hs : s.st ≠ .asleep) :
    exec .sleep s = .next (deliver (.err .invalidState) (accept .sleep s)) := by
  simp [exec, execSleep, hostOp, h, sleepBody, ha, hs]

/-- The program of `SLEEP` ends `Asleep` with `Ok`, or with `SleepFailed` where `ST` was (D5). -/
theorem sleepProg_ends {s : State} (hop : s.seq.op = .sleep) :
    ∃ r, Ended s r (runProg hw (sleepProg hw) s) ∧ (runProg hw (sleepProg hw) s).latch = s.latch ∧
      (runProg hw (sleepProg hw) s).rst = s.rst ∧ (runProg hw (sleepProg hw) s).elapsed = s.elapsed ∧
      (r = .ok ∧ (runProg hw (sleepProg hw) s).st = .asleep ∨
        r = .err .sleepFailed ∧ (runProg hw (sleepProg hw) s).st = s.st) := by
  rw [sleepProg_eq]
  obtain ⟨t, evs, ha, hel, ⟨e, -⟩ | ⟨u, -, cause, -, e⟩⟩ := runProg_bus sleepTail s (pre := sleepBus) (by decide)
    (.inr (.inr hop))
  all_goals
    rw [e]
    have htop : t.seq.op = .sleep := ha.op.trans hop
    have hel' : t.elapsed = s.elapsed := hel (by simp [sleepBus])
  · obtain ⟨t', e, hrun, hk, hst, hl, -, hrst, he⟩ := runProg_sleepTail (s := t) (by simp [htop])
    rw [e]
    exact ⟨_, .deliver .ok (ha.run.trans hrun) (ha.keeps.trans hk), hl.trans ha.latch, hrst.trans ha.rst,
      he.trans hel', .inl ⟨rfl, hst⟩⟩
  · rw [abort_sleep cause htop]
    exact ⟨_, .deliver _ ha.run ha.keeps, ha.latch, ha.rst, hel', .inr ⟨rfl, ha.st⟩⟩

/-- How `SLEEP` can end (R12, R154, R193). -/
theorem exec_sleep_cases {s t : State} (he : exec .sleep s = .next t) :
    ∃ r, Ended s r t ∧ t.latch = s.latch ∧ t.rst = s.rst ∧ t.elapsed = s.elapsed ∧
      (s.st = .asleep ∧ r = .ok ∧ t.st = .asleep ∨
        s.st ≠ .awake ∧ s.st ≠ .asleep ∧ r = .err .invalidState ∧ t.st = s.st ∨
        s.st = .awake ∧ (r = .ok ∧ t.st = .asleep ∨ r = .err .sleepFailed ∧ t.st = .awake)) := by
  have hidle := exec_host_idle rfl he
  by_cases hs : s.st = .asleep
  · rw [exec_sleep_asleep hidle hs] at he
    cases he
    exact ⟨_, ended_check _ _ s, rfl, rfl, rfl, .inl ⟨hs, rfl, hs⟩⟩
  by_cases ha : s.st = .awake
  · rw [exec_sleep hidle ha] at he
    cases he
    obtain ⟨r, hend, hlatch, hrst, hel, hr⟩ := sleepProg_ends (s := accept .sleep s) rfl
    rw [accept_st, ha] at hr
    exact ⟨r, .after (accept_run _ s) (accept_keeps _ s) hend, hlatch, hrst, hel, .inr (.inr ⟨ha, hr⟩)⟩
  · rw [exec_sleep_invalid hidle ha hs] at he
    cases he
    exact ⟨_, ended_check _ _ s, rfl, rfl, rfl, .inr (.inl ⟨ha, hs, rfl, rfl⟩)⟩

/-! ### What the panel operations leave, and the transitions of `ST` (R12, R28) -/

/-- Settles O42, from how each panel operation can end (R28). -/
theorem panelOperationsFrame : Obligations.PanelOperationsFrame := by
  unfold Obligations.PanelOperationsFrame
  refine fun s t => ⟨fun he => ?_, fun he => ?_, fun he => ?_⟩
  · obtain ⟨r, hend, hlatch, -⟩ := exec_init_cases he
    exact ⟨hend.keeps, hlatch, fun a => by rw [hend.keeps.bmp]⟩
  · obtain ⟨r, hend, hpwr, hrst, -⟩ := exec_display_cases he
    exact ⟨hend.keeps, hpwr, hrst, fun a => by rw [hend.keeps.bmp]⟩
  · obtain ⟨r, hend, hlatch, hrst, hel, -⟩ := exec_sleep_cases he
    exact ⟨hend.keeps, hlatch, hrst, hel, fun a => by rw [hend.keeps.bmp]⟩

/-- Settles O41, one operation at a time (R12; D5, D6, D8). -/
theorem transitionRelation : Obligations.TransitionRelation := by
  unfold Obligations.TransitionRelation
  intro s t i hidle hnt hl he
  cases i with
  | init =>
    obtain ⟨r, hend, -, hr⟩ := exec_init_cases he
    exact ⟨r, hend.delivered, by simpa using hr.symm⟩
  | displayFull =>
    obtain ⟨r, hend, -, -, ⟨hst, hr, hst', -⟩ | ⟨hst, -, hr, hst', -⟩ | ⟨hst, -, hr, hst', -⟩⟩ := exec_display_cases he
    · exact ⟨r, hend.delivered, by simp [hst, hr, hst']⟩
    · exact ⟨r, hend.delivered, by simp [hst, hr, hst']⟩
    · refine ⟨r, hend.delivered, ?_⟩
      rcases hr with hr | ⟨off, hr, -⟩ | hr <;> simp [hst, hr, hst']
  | sleep =>
    obtain ⟨r, hend, -, -, -, ⟨hst, hr, hst'⟩ | ⟨ha, hs, hr, hst'⟩ | ⟨hst, hr⟩⟩ := exec_sleep_cases he
    · exact ⟨r, hend.delivered, by simp [hst, hr, hst']⟩
    · have hu : s.st = .uninitialized := by cases h : s.st <;> simp_all
      exact ⟨r, hend.delivered, by simp [hr, hst', hu]⟩
    · exact ⟨r, hend.delivered, by simp [hst, hr]⟩
  | encode =>
    obtain ⟨-, -, rfl⟩ := exec_encode_next he
    exact ⟨.ok, encodeBody_delivered hw _, by simp [encodeBody]⟩
  | _ => simp [Instr.level] at hl

/-! ### `ENCODE` depends on its operands alone (R176) -/

/-- What `ENCODE` leaves in the bitmap: the encoding of its operands. -/
theorem exec_encode_bitmap {s t : State} (hwf : Memory.wf s.bmp) (he : exec .encode s = .next t) :
    Memory.readRange t.bmp 0 48000 = encodedBytes hw (encodeArgs s) := by
  obtain ⟨-, -, rfl⟩ := exec_encode_next he
  rw [encodeBody_bmp, encodeArgs_accept]
  exact Memory.readRange_writeRange hwf _ (encodedBytes_length_hw _)

/-- Settles O48: the bitmap is the encoding of the operands, whatever else the state holds (R28, R176). -/
theorem encodeDependsOnOperandsOnly : Obligations.EncodeDependsOnOperandsOnly := by
  unfold Obligations.EncodeDependsOnOperandsOnly
  intro s s' t t' hargs hwf hwf' he he'
  rw [exec_encode_bitmap hwf he, exec_encode_bitmap hwf' he', hargs]

end Sys2Proof.Machine
end

section
/-!
PROOFS. The invariant of the block (R11, R13, R15 to R17): it holds at reset and every step keeps it.
-/

namespace Sys2Proof.Machine

/-! ### Reset (R27, R230) -/

/-- Settles O1: each value is that of the definition (R27, R230). -/
theorem resetValues : Obligations.ResetValues := ⟨rfl, rfl, rfl, rfl, rfl, rfl, rfl⟩

theorem reset_inv : State.reset.Inv where
  bmp_wf := by decide
  latch_wf := by decide
  img_wf := by decide
  cs_idle := rfl
  sclk_low := rfl
  result := ⟨by decide, fun _ => rfl, rfl, by decide⟩
  seq := ⟨fun _ => rfl, rfl, fun h => absurd rfl h⟩
  settled := ⟨fun _ => by decide, nofun⟩

/-! ### Results (R16, R17, R79) -/

/-- The value of `TransferFailed` does not depend on the offset (R16). -/
@[simp] theorem status_transferFailed (off : Nat) : OpResult.status (.err (.transferFailed off)) = 0x21 :=
  show (2#4 ++ 1#4 : Byte) = 0x21 from rfl

/-- `STATUS` is a value of the table, whatever the result (R16). -/
theorem status_legal (r : OpResult) : r.status ∈ legalStatus := by
  rcases r with _ | (_ | _ | (_ | _) | off | _ | _)
  case err.transferFailed =>
    rw [status_transferFailed]
    decide
  all_goals decide

theorem append_eq_shift_or (p k : BitVec 4) : p ++ k = p.setWidth 8 <<< 4 ||| k.setWidth 8 := by
  revert p k
  decide

/-- Settles O4: `STATUS` is assembled by concatenation, and its values are those of the table (R16, R79). -/
theorem statusTable : Obligations.StatusTable :=
  ⟨fun r => ⟨append_eq_shift_or r.phase r.kind, status_legal r⟩, rfl, rfl, rfl, rfl, rfl, status_transferFailed,
    rfl, rfl⟩

/-- A result with an offset `OFFSET` may hold: the start of a chunk of the bitmap, or 0 (R17, R108). -/
def OpResult.Placed (r : OpResult) : Prop := ∀ off, r = .err (.transferFailed off) → off % 4096 = 0 ∧ off < 48000

theorem DisplayError.placed {r : OpResult} (h : DisplayError r) : r.Placed := by
  rintro off rfl
  simpa [DisplayError] using h

/-- A result that is placed is a legal one once delivered (R16, R17). -/
theorem deliver_resultLegal {r : OpResult} (hr : r.Placed) {t : State} (ht : Delivered r t) : t.ResultLegal := by
  have hcase : (∃ off, r = .err (.transferFailed off)) ∨ r.offset = 0 := by
    rcases r with _ | (_ | _ | _ | off | _ | _) <;> simp [OpResult.offset]
  refine ⟨ht.status ▸ status_legal r, fun hne => ?_, ?_⟩
  · rcases hcase with ⟨off, rfl⟩ | h0
    · exact absurd (ht.status.trans (status_transferFailed off)) hne
    · exact ht.offset.trans h0
  · rcases hcase with ⟨off, rfl⟩ | h0
    · obtain ⟨hmod, hlt⟩ := hr off rfl
      have htoNat : t.offset.toNat = off := by
        rw [ht.offset, OpResult.offset, BitVec.toNat_ofNat, Nat.mod_eq_of_lt (by omega)]
      rw [htoNat]
      exact ⟨hmod, hlt⟩
    · rw [ht.offset, h0]
      exact ⟨rfl, by decide⟩

/-! ### The part of the invariant the bus and the buffers have (R15, R73) -/

/-- Canonical buffers, and the bus at rest. -/
structure State.AtRest (s : State) : Prop where
  bmp_wf : Memory.wf s.bmp
  latch_wf : Memory.wf s.latch
  img_wf : Pixels.wf s.img
  cs_idle : s.cs = true
  sclk_low : s.sclk = false

theorem State.Inv.atRest {s : State} (h : s.Inv) : s.AtRest := ⟨h.bmp_wf, h.latch_wf, h.img_wf, h.cs_idle, h.sclk_low⟩

theorem State.AtRest.of_run {s t : State} {evs : List Event} (h : s.AtRest) (hr : Run s evs t) (hk : PanelKeeps s t)
    (hl : Memory.wf t.latch) : t.AtRest :=
  ⟨hk.bmp ▸ h.bmp_wf, hl, hk.img ▸ h.img_wf, hr.cs h.cs_idle, hr.sclk h.sclk_low⟩

/-- The rest of the invariant: a legal result, `SEQ` placed and `ST` settled. -/
theorem State.AtRest.inv {s : State} (h : s.AtRest) (hr : s.ResultLegal) (hq : s.SeqPlaced)
    (hst : s.StSettled) : s.Inv :=
  ⟨h.bmp_wf, h.latch_wf, h.img_wf, h.cs_idle, h.sclk_low, hr, hq, hst⟩

/-- A delivery leaves the block idle: the invariant needs the bus at rest, a placed result and `ST` settled (R200). -/
theorem State.AtRest.delivered {r : OpResult} {t : State} (h : t.AtRest) (hd : Delivered r t) (hr : r.Placed)
    (hst : t.st ≠ .transferring) : t.Inv :=
  h.inv (deliver_resultLegal hr hd) (by simp [State.SeqPlaced, hd.seq]) (by simp [State.StSettled, hd.seq, hst])

/-- An operation that ended, with a placed result and `ST` settled, left a block that meets the invariant. -/
theorem Ended.inv {s t : State} {r : OpResult} (h : Ended s r t) (hs : s.AtRest) (hl : Memory.wf t.latch)
    (hr : r.Placed) (hst : t.st ≠ .transferring) : t.Inv :=
  have ⟨_, hrun⟩ := h.run
  (hs.of_run hrun h.keeps hl).delivered h.delivered hr hst

/-- A bus operation keeps the invariant (R28). -/
theorem BusFrame.inv {i : Instr} {s t : State} (h : BusFrame i s t) (hs : s.Inv) : t.Inv := by
  obtain ⟨evs, hrun⟩ := h.run
  have hk := h.keeps
  have hrest := hs.atRest.of_run hrun hk.panelKeeps (hk.latch ▸ hs.latch_wf)
  obtain ⟨hzero, hoff, hlt⟩ := hs.seq
  refine hrest.inv ?_ ⟨?_, h.off hoff, ?_⟩ ?_
  · simpa [State.ResultLegal, hk.status, hk.offset] using hs.result
  · simpa [hk.op, hk.step] using hzero
  · simpa [hk.op, hk.step] using hlt
  · simpa [State.StSettled, hk.op, hk.step, hk.st] using hs.settled

/-! ### Operations that run whole (R148) -/

theorem encodeBody_inv {s : State} (hs : s.AtRest) (hst : s.st ≠ .transferring) : (encodeBody hw s).Inv := by
  have hbmp : Memory.wf (encodeBody hw s).bmp := by
    rw [encodeBody_bmp]
    exact Memory.writeRange_wf 0 _ hs.bmp_wf
  have hrest : (encodeBody hw s).AtRest := ⟨hbmp, hs.latch_wf, hs.img_wf, hs.cs_idle, hs.sclk_low⟩
  exact hrest.delivered (encodeBody_delivered hw s) (by simp [OpResult.Placed]) hst

/-- Every operation on an idle block keeps the invariant. -/
theorem exec_inv {i : Instr} {s t : State} (hs : s.Inv) (he : exec i s = .next t) : t.Inv := by
  by_cases hl : i.level = .host
  · have hidle := exec_host_idle hl he
    have hnt : s.st ≠ .transferring := hs.settled.1 (by simp [hidle])
    cases i with
    | init =>
      obtain ⟨r, hend, hlatch, hr⟩ := exec_init_cases he
      have hlw : Memory.wf t.latch := hlatch ▸ hs.latch_wf
      rcases hr with ⟨-, rfl, hst⟩ | ⟨-, ⟨rfl, hst⟩ | ⟨⟨c, rfl⟩, hst⟩⟩ <;>
        exact hend.inv hs.atRest hlw (by simp [OpResult.Placed]) (by simp [hst])
    | displayFull =>
      obtain ⟨r, hend, -, -, hr⟩ := exec_display_cases he
      rcases hr with ⟨-, rfl, hst, hlatch⟩ | ⟨-, -, rfl, hst, hlatch⟩ | ⟨-, -, hr, hst, hlatch⟩
      · exact hend.inv hs.atRest (hlatch ▸ hs.latch_wf) (by simp [OpResult.Placed]) (hst ▸ hnt)
      · exact hend.inv hs.atRest (hlatch ▸ hs.latch_wf) (by simp [OpResult.Placed]) (by simp [hst])
      · refine hend.inv hs.atRest (hlatch ▸ Memory.restrict_wf _ hs.bmp_wf) ?_ (by simp [hst])
        rcases hr with rfl | hr
        · simp [OpResult.Placed]
        · exact hr.placed
    | sleep =>
      obtain ⟨r, hend, hlatch, -, -, hr⟩ := exec_sleep_cases he
      have hlw : Memory.wf t.latch := hlatch ▸ hs.latch_wf
      rcases hr with ⟨-, rfl, hst⟩ | ⟨-, -, rfl, hst⟩ | ⟨-, ⟨rfl, hst⟩ | ⟨rfl, hst⟩⟩ <;>
        exact hend.inv hs.atRest hlw (by simp [OpResult.Placed]) (by simp [hst, hnt])
    | encode =>
      obtain ⟨-, -, rfl⟩ := exec_encode_next he
      exact encodeBody_inv
        (hs.atRest.of_run (accept_run .encode s) (accept_keeps _ s) hs.latch_wf) hnt
    | _ => simp [Instr.level] at hl
  · exact (exec_busFrame hl he).inv hs

/-! ### One micro-operation (R13, R148) -/

/-- Inside an operation, between two states of one step: events appended, and nothing the host sees changed but `ST`. -/
structure Within (s t : State) : Prop where
  run : ∃ evs, Run s evs t
  keeps : PanelKeeps s t
  latch : t.latch = s.latch
  op : t.seq.op = s.seq.op
  step : t.seq.step = s.seq.step
  status : t.status = s.status
  offset : t.offset = s.offset

theorem Along.within {s t : State} {evs : List Event} (h : Along s evs t) (hs : t.seq.step = s.seq.step) :
    Within s t :=
  ⟨⟨evs, h.run⟩, h.keeps, h.latch, h.op, hs, h.status, h.offset⟩

theorem setPwr_within (l : Bool) (s : State) : Within s (setPwr l s) :=
  ⟨⟨_, setPwr_run l s⟩, (setPwr_keeps l s).panelKeeps, rfl, rfl, rfl, rfl, rfl⟩

theorem setRst_within (l : Bool) (s : State) : Within s (setRst l s) :=
  ⟨⟨_, setRst_run l s⟩, (setRst_keeps l s).panelKeeps, rfl, rfl, rfl, rfl, rfl⟩

theorem setSt_within (p : PanelState) (s : State) : Within s { s with st := p } :=
  ⟨⟨_, setSt_run p s⟩, setSt_keeps p s, rfl, rfl, rfl, rfl, rfl⟩

/-- The micro-operations that neither write `ST` nor end the operation themselves (R84). -/
def UOp.isPrimitive : UOp → Bool
  | .setSt _ | .ret _ => false
  | .writeCmd _ | .writeData _ | .waitBusy _ | .setPwr _ | .setRst _ | .delay _ => true

theorem UOp.isPrimitive_of_usesBus {u : UOp} (h : u.usesBus = true) : u.isPrimitive = true := by
  cases u <;> simp_all [UOp.usesBus, UOp.isPrimitive]

/-- What one micro-operation can do: a primitive that advances, a `SETST`, a `RET`, or a failure (R148). -/
theorem uopStep_cases (u : UOp) (s : State) :
    (∃ t, u.isPrimitive = true ∧ Within s t ∧ t.st = s.st ∧ uopStep hw u s = advance t) ∨
    (∃ p, u = .setSt p ∧ uopStep hw u s = advance { s with st := p }) ∨
    (∃ r, u = .ret r ∧ uopStep hw u s = deliver r s) ∨
    (∃ t cause, u.MayEnd cause ∧ Within s t ∧ t.st = s.st ∧ uopStep hw u s = abort cause t) := by
  cases hu : u.usesBus
  · cases u with
    | setPwr l => exact .inl ⟨_, rfl, setPwr_within l s, rfl, rfl⟩
    | setRst l => exact .inl ⟨_, rfl, setRst_within l s, rfl, rfl⟩
    | setSt p => exact .inr (.inl ⟨p, rfl, rfl⟩)
    | ret r => exact .inr (.inr (.inl ⟨r, rfl, rfl⟩))
    | _ => cases hu
  · obtain ⟨t, evs, ha, hstep, -, h | ⟨cause, hc, h⟩⟩ := uopStep_bus hu s
    · exact .inl ⟨t, UOp.isPrimitive_of_usesBus hu, ha.within hstep, ha.st, h⟩
    · exact .inr (.inr (.inr ⟨t, cause, hc, ha.within hstep, ha.st, h⟩))

/-- An abort touches nothing the host holds (R202, D22). -/
theorem abort_keeps (cause : Ret) (s : State) : PanelKeeps s (abort cause s) := by
  unfold abort
  split <;> constructor <;> rfl

theorem uopStep_keeps (u : UOp) (s : State) : PanelKeeps s (uopStep hw u s) := by
  rcases uopStep_cases u s with ⟨t, -, ht, -, h⟩ | ⟨p, -, h⟩ | ⟨r, -, h⟩ | ⟨t, cause, -, ht, -, h⟩ <;> rw [h]
  · exact ht.keeps.trans (advance_along t).keeps
  · exact (setSt_keeps p s).trans (advance_along _).keeps
  · exact deliver_keeps r s
  · exact ht.keeps.trans (abort_keeps cause t)

/-! ### The bookkeeping of the micro-programs (R149, R151, R153) -/

theorem displayProg_eq : microProgram hw .display =
    .setSt .transferring :: (displayBus ++ [.setSt .awake, .ret .ok]) := rfl

/-- `SETST` and `RET` in a micro-program: `RET Ok` only, and `SETST Transferring` only in `DISPLAY_FULL`. -/
theorem microProgram_bookkeeping {op : SeqOp} {u : UOp} (h : u ∈ microProgram hw op) : u.isPrimitive = true ∨
    u = .setSt .awake ∨ u = .setSt .asleep ∨ u = .ret .ok ∨ (u = .setSt .transferring ∧ op = .display) := by
  cases op with
  | idle | encode => simp [microProgram] at h
  | init =>
    simp only [microProgram, initProg_eq, pulseUOps, List.mem_append, List.mem_cons, List.not_mem_nil, or_false] at h
    rcases h with (h | rfl | rfl | rfl | rfl) | rfl | rfl | h | rfl | rfl
    · split at h
      · simp only [List.mem_cons, List.not_mem_nil, or_false] at h
        rcases h with rfl | rfl <;> exact .inl rfl
      · simp at h
    iterate 6 exact .inl rfl
    · exact .inl (UOp.isPrimitive_of_usesBus (setupUOps_usesBus hw u h))
    · simp
    · simp
  | display =>
    simp only [displayProg_eq, List.mem_append, List.mem_cons, List.not_mem_nil, or_false] at h
    rcases h with rfl | h | rfl | rfl
    · simp
    · exact .inl (UOp.isPrimitive_of_usesBus ((by decide : ∀ u ∈ displayBus, u.usesBus = true) u h))
    · simp
    · simp
  | sleep =>
    simp only [microProgram, sleepProg_eq, sleepTail, List.mem_append, List.mem_cons, List.not_mem_nil, or_false] at h
    rcases h with h | h | rfl | rfl
    · exact .inl (UOp.isPrimitive_of_usesBus ((by decide : ∀ u ∈ sleepBus, u.usesBus = true) u h))
    · split at h
      · simp only [List.mem_cons, List.not_mem_nil, or_false] at h
        exact .inl (h ▸ rfl)
      · simp at h
    · simp
    · simp

theorem setSt_mem {op : SeqOp} {p : PanelState} (h : .setSt p ∈ microProgram hw op) (hop : op ≠ .display) :
    p ≠ .transferring := by
  rintro rfl
  simpa [UOp.isPrimitive, hop] using microProgram_bookkeeping h

theorem ret_mem {op : SeqOp} {r : OpResult} (h : .ret r ∈ microProgram hw op) : r = .ok := by
  simpa [UOp.isPrimitive] using microProgram_bookkeeping h

/-- The `RET` of `DISPLAY_FULL` stands at index 8 (R151). -/
theorem displayProg_ret {n : Nat} {r : OpResult} (h : (microProgram hw .display)[n]? = some (.ret r)) : n = 8 := by
  have hn : n < 9 := (List.getElem?_eq_some_iff.mp h).1
  rw [displayProg_eq, displayBus] at h
  interval_cases n <;> simp_all

/-- A failure of a micro-operation of `DISPLAY_FULL` is one of a bus micro-operation. -/
theorem mayEnd_displayBus {u : UOp} {cause : Ret} (hu : u ∈ microProgram hw .display) (hc : u.MayEnd cause) :
    u ∈ displayBus := by
  simp only [displayProg_eq, List.mem_append, List.mem_cons, List.not_mem_nil, or_false] at hu
  rcases hu with rfl | hu | rfl | rfl
  · exact hc.elim
  · exact hu
  · exact hc.elim
  · exact hc.elim

/-- How a failure inside a micro-program ends the operation: a placed result, and `ST` settled where it was settled
outside `DISPLAY_FULL` (R196). -/
theorem abort_ends {u : UOp} {cause : Ret} {t : State} (h : t.seq.op.Programmed) (hu : u ∈ microProgram hw t.seq.op)
    (hc : u.MayEnd cause) (hst : t.seq.op ≠ .display → t.st ≠ .transferring) :
    ∃ r p, r.Placed ∧ p ≠ .transferring ∧ abort cause t = deliver r { t with st := p } := by
  rcases h with hop | hop | hop
  · obtain ⟨c, e⟩ := abort_init cause hop
    exact ⟨_, _, by simp [OpResult.Placed], by simp, e⟩
  · rw [hop] at hu
    obtain ⟨r, hr, e⟩ := abort_display (mayEnd_displayBus hu hc) hc hop
    exact ⟨r, _, hr.placed, by simp, e⟩
  · exact ⟨_, t.st, by simp [OpResult.Placed], hst (by simp [hop]), abort_sleep cause hop⟩

/-! ### The step (R11, R13, R15 to R17) -/

/-- A micro-operation that advances keeps the invariant: it is not the last one, and `ST` is where `SETST` put it. -/
theorem advance_inv {s t : State} (hs : s.Inv) (h : Within s t) (hidle : s.seq.op ≠ .idle)
    (hnext : s.seq.step + 1 < (microProgram hw s.seq.op).length) (hst : s.seq.op ≠ .display → t.st ≠ .transferring)
    (hawake : s.seq.op = .display → s.seq.step = 7 → t.st = .awake) : (advance t).Inv := by
  obtain ⟨evs, hrun⟩ := h.run
  have hrest : (advance t).AtRest :=
    hs.atRest.of_run (hrun.trans (advance_run t)) (h.keeps.trans (advance_along t).keeps)
      (h.latch ▸ hs.latch_wf : Memory.wf t.latch)
  refine hrest.inv ?_ ?_ ?_
  · simpa [State.ResultLegal, h.status, h.offset] using hs.result
  · simpa [State.SeqPlaced, h.op, h.step, hidle] using fun _ => hnext
  · simpa [State.StSettled, h.op, h.step] using ⟨hst, hawake⟩

/-- A delivery inside an operation keeps the invariant. -/
theorem deliver_inv {s t : State} (hs : s.Inv) (h : Within s t) {r : OpResult} (hr : r.Placed) {p : PanelState}
    (hp : p ≠ .transferring) : (deliver r { t with st := p }).Inv :=
  have ⟨_, hrun⟩ := h.run
  (Ended.deliverSt r p hrun h.keeps).inv hs.atRest (h.latch ▸ hs.latch_wf : Memory.wf t.latch) hr hp

/-- The micro-operation at `SEQ` keeps the invariant. -/
theorem uopStep_inv {u : UOp} {s : State} (hs : s.Inv) (hop : s.seq.op.Programmed)
    (hu : (microProgram hw s.seq.op)[s.seq.step]? = some u) : (uopStep hw u s).Inv := by
  have hmem : u ∈ microProgram hw s.seq.op := List.mem_of_getElem? hu
  obtain ⟨hst, hawake⟩ := hs.settled
  have h7 : s.seq.op = .display → s.seq.step = 7 → u = .setSt .awake := by
    intro hd h7
    rw [hd, h7] at hu
    exact (Option.some.inj hu).symm
  rcases uopStep_cases u s with ⟨t, hprim, ht, htst, e⟩ | ⟨p, rfl, e⟩ | ⟨r, rfl, e⟩ |
    ⟨t, cause, hc, ht, htst, e⟩ <;> rw [e]
  · refine advance_inv hs ht hop.ne_idle (microProgram_next_lt hop hu ?_) (htst ▸ hst) fun hd hstep => ?_
    · rintro rfl
      simp [UOp.isPrimitive] at hprim
    · simp [h7 hd hstep, UOp.isPrimitive] at hprim
  · exact advance_inv hs (setSt_within p s) hop.ne_idle (microProgram_next_lt hop hu (by simp)) (setSt_mem hmem)
      fun hd hstep => UOp.setSt.inj (h7 hd hstep)
  · have hsettled : s.st ≠ .transferring := by
      by_cases hd : s.seq.op = .display
      · rw [hawake hd (displayProg_ret (hd ▸ hu))]
        simp
      · exact hst hd
    exact deliver_inv hs ⟨⟨_, .refl s⟩, .refl s, rfl, rfl, rfl, rfl, rfl⟩ (by simp [OpResult.Placed, ret_mem hmem])
      hsettled
  · obtain ⟨r, p, hr, hp, e⟩ := abort_ends (ht.op ▸ hop) (ht.op ▸ hmem) hc (by rw [ht.op, htst]; exact hst)
    rw [e]
    exact deliver_inv hs ht hr hp

/-- Taking a request or the bench's operation keeps the invariant, which does not speak of them. -/
theorem take_inv {s : State} (rest : List Request) (h : s.Inv) : (take rest s).Inv :=
  ⟨h.bmp_wf, h.latch_wf, h.img_wf, h.cs_idle, h.sclk_low, h.result, h.seq, h.settled⟩

theorem takeBench_inv {s : State} (h : s.Inv) : (takeBench s).Inv :=
  ⟨h.bmp_wf, h.latch_wf, h.img_wf, h.cs_idle, h.sclk_low, h.result, h.seq, h.settled⟩

/-- A host write keeps the invariant: the sparse buffers stay canonical (log entries 9 to 11). -/
theorem hostWrite_inv {s : State} (w : HostWrite) (h : s.Inv) : (hostWrite w s).Inv := by
  cases w with
  | bmp a v =>
    exact ⟨Memory.write_wf a.toNat v h.bmp_wf, h.latch_wf, h.img_wf, h.cs_idle, h.sclk_low, h.result, h.seq, h.settled⟩
  | img sx sy p =>
    exact ⟨h.bmp_wf, h.latch_wf, Pixels.write_wf sx.toNat sy.toNat p h.img_wf, h.cs_idle, h.sclk_low, h.result, h.seq,
      h.settled⟩
  | bmpLen | thresh | invert | imgW | imgH | imgDepth =>
    exact ⟨h.bmp_wf, h.latch_wf, h.img_wf, h.cs_idle, h.sclk_low, h.result, h.seq, h.settled⟩

/-- Settles O52, by what one step can do (R11, R13, R15, R16, R17). -/
theorem stepKeepsInvariant : Obligations.StepKeepsInvariant := by
  unfold Obligations.StepKeepsInvariant
  intro s t hs h
  rcases step_cases h with ⟨-, -, -, rfl⟩ | ⟨w, rest, -, -, -, rfl⟩ | ⟨code, rest, i, tail, -, -, -, -, he⟩ |
    ⟨b, i, -, -, he⟩ | ⟨hop, -, rfl⟩ | ⟨u, hop, hu, rfl⟩
  · exact take_inv [] hs
  · exact hostWrite_inv w (take_inv rest hs)
  · exact exec_inv (take_inv rest hs) he
  · exact exec_inv (takeBench_inv hs) he
  · exact encodeBody_inv hs.atRest (hs.settled.1 (by simp [hop]))
  · exact uopStep_inv hs hop hu

end Sys2Proof.Machine
end

section
/-!
PROOFS. The trace (R24, R83, R112): a step is a run, which keeps the invariant of the trace; and without a bench the
trace and the pins move only in the panel operations.
-/

namespace Sys2Proof.Machine

/-! ### A step is a run (R24, R83) -/

theorem takeBench_run (s : State) : Run s [] (takeBench s) := .of_same rfl rfl rfl rfl rfl rfl

theorem hostWrite_run (w : HostWrite) (s : State) : Run s [] (hostWrite w s) := by
  cases w <;> exact .of_same rfl rfl rfl rfl rfl rfl

theorem encodeBody_run (c : Cfg) (s : State) : Run s [] (encodeBody c s) := .of_same rfl rfl rfl rfl rfl rfl

/-- Every operation appends its events and keeps the lines and the trace in agreement. -/
theorem exec_run {i : Instr} {s t : State} (he : exec i s = .next t) : ∃ evs, Run s evs t := by
  by_cases hl : i.level = .host
  · cases i with
    | init => exact have ⟨_, hend, _⟩ := exec_init_cases he; hend.run
    | displayFull => exact have ⟨_, hend, _⟩ := exec_display_cases he; hend.run
    | sleep => exact have ⟨_, hend, _⟩ := exec_sleep_cases he; hend.run
    | encode =>
      obtain ⟨-, -, rfl⟩ := exec_encode_next he
      exact ⟨_, (accept_run .encode s).trans (encodeBody_run hw _)⟩
    | _ => simp [Instr.level] at hl
  · exact (exec_busFrame hl he).run

/-- A step appends its events and keeps the lines and the trace in agreement. -/
theorem step_run {s t : State} (h : step s = .next t) : ∃ evs, Run s evs t := by
  rcases step_cases h with ⟨-, -, -, rfl⟩ | ⟨w, rest, -, -, -, rfl⟩ | ⟨code, rest, i, tail, -, -, -, -, he⟩ |
    ⟨b, i, -, -, he⟩ | ⟨-, -, rfl⟩ | ⟨u, -, -, rfl⟩
  · exact ⟨_, take_run [] s⟩
  · exact ⟨_, (take_run rest s).trans (hostWrite_run w _)⟩
  · exact (exec_run he).imp fun _ hr => (take_run rest s).trans hr
  · exact (exec_run he).imp fun _ hr => (takeBench_run s).trans hr
  · exact ⟨_, encodeBody_run hw s⟩
  · exact uopStep_run u s

/-- Settles O53: a step is a run, and a run keeps the invariant of the trace (R15, R24, R83). -/
theorem stepKeepsTraceInvariant : Obligations.StepKeepsTraceInvariant := by
  unfold Obligations.StepKeepsTraceInvariant
  intro s t hs h
  obtain ⟨evs, hr⟩ := step_run h
  exact hr.traceInv hs

/-! ### Who moves the pins (R112) -/

/-- What decodes as a host code is a level-H operation (R70). -/
theorem decodeHost_level {code tail : List Byte} {i : Instr} (h : decode .host code = .ok (i, tail)) :
    i = .init ∨ i = .displayFull ∨ i = .sleep ∨ i = .encode := by
  cases code with
  | nil => cases h
  | cons b rest =>
    simp only [decode, decodeHost] at h
    split at h
    · cases h; simp
    · split at h
      · cases h; simp
      · split at h
        · cases h; simp
        · split at h
          · cases h; simp
          · cases h

theorem take_pinsKeep (rest : List Request) (s : State) : PinsKeep s (take rest s) := by constructor <;> rfl

theorem hostWrite_pinsKeep (w : HostWrite) (s : State) : PinsKeep s (hostWrite w s) := by
  cases w <;> constructor <;> rfl

@[simp] theorem hostWrite_bench (w : HostWrite) (s : State) : (hostWrite w s).bench = s.bench := by cases w <;> rfl

/-- `ENCODE` moves neither the pins nor the trace (R112, R170). -/
theorem encodeBody_pinsKeep (c : Cfg) (s : State) : PinsKeep s (encodeBody c s) := by constructor <;> rfl

theorem PinsKeep.trans {s t u : State} (h : PinsKeep s t) (k : PinsKeep t u) : PinsKeep s u :=
  ⟨k.pwr.trans h.pwr, k.rst.trans h.rst, k.dc.trans h.dc, k.cs.trans h.cs, k.sclk.trans h.sclk, k.mosi.trans h.mosi,
    k.tr.trans h.tr⟩

/-- A level-H operation leaves the bench; `ENCODE` also the pins and the trace (R112). -/
theorem exec_host_bench {i : Instr} {s t : State} (hi : i = .init ∨ i = .displayFull ∨ i = .sleep ∨ i = .encode)
    (he : exec i s = .next t) :
    t.bench = s.bench ∧ (PinsKeep s t ∨ i = .init ∨ i = .displayFull ∨ i = .sleep) := by
  rcases hi with rfl | rfl | rfl | rfl
  · obtain ⟨r, hend, -⟩ := exec_init_cases he
    exact ⟨hend.keeps.bench, by simp⟩
  · obtain ⟨r, hend, -⟩ := exec_display_cases he
    exact ⟨hend.keeps.bench, by simp⟩
  · obtain ⟨r, hend, -⟩ := exec_sleep_cases he
    exact ⟨hend.keeps.bench, by simp⟩
  · obtain ⟨-, -, rfl⟩ := exec_encode_next he
    exact ⟨rfl, .inl (encodeBody_pinsKeep hw _)⟩

/-- Settles O54, by what one step can do (R24, R50, R112). -/
theorem traceOnlyGrows : Obligations.TraceOnlyGrows := by
  unfold Obligations.TraceOnlyGrows
  refine fun s t h => ⟨(step_run h).imp fun _ hr => hr.tr, fun hb => ?_⟩
  rcases step_cases h with ⟨-, -, -, rfl⟩ | ⟨w, rest, -, -, -, rfl⟩ | ⟨code, rest, i, tail, hidle, -, hp, hd, he⟩ |
    ⟨b, i, -, hsome, -⟩ | ⟨-, -, rfl⟩ | ⟨u, hop, -, rfl⟩
  · exact ⟨hb, .inl (take_pinsKeep [] s)⟩
  · exact ⟨by simpa using hb, .inl ((take_pinsKeep rest s).trans (hostWrite_pinsKeep w _))⟩
  · obtain ⟨hbench, hpins⟩ := exec_host_bench (decodeHost_level hd) he
    refine ⟨hbench.trans hb, ?_⟩
    rcases hpins with hpins | hi
    · exact .inl ((take_pinsKeep rest s).trans hpins)
    · exact .inr (.inr (.inr (.inr ⟨code, rest, i, tail, hidle, hp, hd, hi⟩)))
  · simp [hb] at hsome
  · exact ⟨hb, .inl (encodeBody_pinsKeep hw s)⟩
  · refine ⟨(uopStep_keeps u s).bench.trans hb, ?_⟩
    rcases hop with hop | hop | hop <;> simp [hop]

/-! ### Both invariants at reset (R27) -/

/-- Nothing is in the trace at reset. -/
theorem reset_traceInv : State.reset.TraceInv where
  sized := nofun
  held := nofun
  levels := rfl

/-- Settles O2, an invariant each (R11, R13, R15, R16, R17, R27). -/
theorem resetMeetsInvariants : Obligations.ResetMeetsInvariants := ⟨reset_inv, reset_traceInv⟩

end Sys2Proof.Machine
end

section
/-!
PROOFS. Which branch of `step` runs: the decoded operation, a host write, the micro-operation at `SEQ` (R25, R148); and
why a step inside `DISPLAY_FULL` does not see `BMP` (R54, R239).
-/

namespace Sys2Proof.Machine

/-! ### The branches of the step (R25, R148) -/

/-- A code that decodes to a well-formed operation runs `exec` of it. -/
theorem runCode_decoded {level : Level} {code tail : List Byte} {i : Instr} (hwf : i.WellFormed)
    (h : decode level code = .ok (i, tail)) (s : State) : runCode level code s = exec i s := by
  simp [runCode, fetched, h, show i.wellFormed = true from hwf]

theorem step_issue {s : State} {code : List Byte} {rest : List Request} (h : s.seq.op = .idle) (hb : s.bench = none)
    (hp : s.pending = .issue code :: rest) : step s = runCode .host code (take rest s) := by
  simp [step, h, hb, hp]

theorem step_write {s : State} {w : HostWrite} {rest : List Request} (h : s.seq.op = .idle) (hb : s.bench = none)
    (hp : s.pending = .write w :: rest) : step s = .next (hostWrite w (take rest s)) := by
  simp [step, h, hb, hp]

theorem step_bench {s : State} {b : Level × List Byte} (h : s.seq.op = .idle) (hb : s.bench = some b) :
    step s = runCode b.1 b.2 (takeBench s) := by
  simp [step, h, hb]

theorem step_uop {s : State} {u : UOp} (h : s.seq.op ≠ .idle) (he : s.seq.op ≠ .encode)
    (hu : (microProgram hw s.seq.op)[s.seq.step]? = some u) : step s = .next (uopStep hw u s) := by
  simp [step, h, resume, he, hu]

/-- Settles O9, from the two branches of an idle block's step that run a code (R25, R148). -/
theorem stepRunsDecodedOperation : Obligations.StepRunsDecodedOperation := by
  unfold Obligations.StepRunsDecodedOperation
  refine fun s i tail hidle hwf => ⟨fun code rest hb hp hd => ?_, fun level code hb hd => ?_⟩
  · exact (step_issue hidle hb hp).trans (runCode_decoded hwf hd _)
  · exact (step_bench hidle hb).trans (runCode_decoded hwf hd _)

/-- Settles O10: the step is the micro-operation, and none touches the host's queue or the bench (R13, R148, R155). -/
theorem stepRunsMicroOperation : Obligations.StepRunsMicroOperation := by
  unfold Obligations.StepRunsMicroOperation
  intro s u hidle henc hu
  have hk := uopStep_keeps u s
  exact ⟨_, step_uop hidle henc hu, rfl, hk.pending, hk.bench⟩

/-- Settles O11: the step is `hostWrite` of the request taken, and the buffers read back what was written (R14, R18,
R19, R25). -/
theorem stepPerformsHostWrite : Obligations.StepPerformsHostWrite := by
  unfold Obligations.StepPerformsHostWrite
  intro s w rest hidle hb hp
  have hstep := step_write hidle hb hp
  refine ⟨?_, ?_, ?_, ?_, ?_, ?_, ?_, ?_⟩
  iterate 6
    rintro v rfl
    exact hstep
  · rintro a v rfl hwf
    exact ⟨_, hstep, Memory.read_write_same hwf a.toNat v, fun x hx => Memory.read_write_other _ v hx⟩
  · rintro sx sy p rfl hwf
    exact ⟨_, hstep, Pixels.read_write_same hwf sx.toNat sy.toNat p,
      fun x y hx hne => Pixels.read_write_other _ p sx.isLt hx hne⟩

/-! ### Operations that do not see `BMP` (R54, R239; D24) -/

/-- The state with other bytes in `BMP`. -/
def withBmp (m : Memory) (s : State) : State := { s with bmp := m }

@[simp] theorem withBmp_seq (m : Memory) (s : State) : (withBmp m s).seq = s.seq := rfl
@[simp] theorem withBmp_ret (m : Memory) (s : State) : (withBmp m s).ret = s.ret := rfl
@[simp] theorem withBmp_elapsed (m : Memory) (s : State) : (withBmp m s).elapsed = s.elapsed := rfl
@[simp] theorem failNow_withBmp (m : Memory) (s : State) : failNow (withBmp m s) = failNow s := rfl

theorem setOff_withBmp (n : Nat) (m : Memory) (s : State) : setOff n (withBmp m s) = withBmp m (setOff n s) := rfl

theorem readBusy_withBmp (m : Memory) (s : State) : readBusy (withBmp m s) = withBmp m (readBusy s) := rfl

theorem delay_withBmp (d : Nat) (m : Memory) (s : State) : delay d (withBmp m s) = withBmp m (delay d s) := rfl

theorem setElapsed_withBmp (d : Nat) (m : Memory) (s : State) :
    setElapsed d (withBmp m s) = withBmp m (setElapsed d s) := rfl

theorem spiTxn_withBmp (bytes : List Byte) (m : Memory) (s : State) :
    spiTxn bytes (withBmp m s) = withBmp m (spiTxn bytes s) := by
  cases h : failNow s
  · rw [spiTxn_completes bytes h, spiTxn_completes bytes (s := withBmp m s) h]
    rfl
  · simp only [spiTxn, failNow_setCs, failNow_withBmp, h, if_true]
    rfl

theorem sendChunks_withBmp (chs : List (List Byte)) (m : Memory) (s : State) :
    sendChunks chs (withBmp m s) = withBmp m (sendChunks chs s) := by
  induction chs generalizing s with
  | nil => rfl
  | cons ch chs ih =>
    simp only [sendChunks, spiTxn_withBmp, withBmp_ret, withBmp_seq, setOff_withBmp]
    split
    · rfl
    all_goals exact ih _

theorem writeData_withBmp (c : Cfg) (b : List Byte) (m : Memory) (s : State) :
    writeData c b (withBmp m s) = withBmp m (writeData c b s) :=
  sendChunks_withBmp _ m (setOff 0 (setDc true s))

theorem waitLoop_withBmp (c : Cfg) (timeout fuel : Nat) (m : Memory) (s : State) :
    waitLoop c timeout fuel (withBmp m s) = withBmp m (waitLoop c timeout fuel s) := by
  induction fuel generalizing s with
  | zero => rfl
  | succ fuel ih =>
    simp only [waitLoop, readBusy_withBmp, withBmp_ret, withBmp_elapsed, delay_withBmp, setElapsed_withBmp]
    by_cases hclear : (readBusy s).ret = .level false
    · simp only [hclear, if_true]
      rfl
    · by_cases hout : timeout ≤ (readBusy s).elapsed
      · simp only [hclear, hout, if_true, if_false]
        rfl
      · simp only [hclear, hout, if_false]
        exact ih _

theorem abort_withBmp (cause : Ret) (m : Memory) (s : State) :
    abort cause (withBmp m s) = withBmp m (abort cause s) := by
  unfold abort
  simp only [withBmp_seq]
  split <;> rfl

theorem settle_withBmp (m : Memory) (s : State) : settle (withBmp m s) = withBmp m (settle s) := by
  unfold settle
  simp only [withBmp_ret]
  split
  · rfl
  · rfl
  · exact abort_withBmp _ m s
  · exact abort_withBmp _ m s

/-- A micro-operation from a state with other bytes in `BMP` is the same micro-operation. -/
theorem uopStep_withBmp (c : Cfg) (u : UOp) (m : Memory) (s : State) :
    uopStep c u (withBmp m s) = withBmp m (uopStep c u s) := by
  cases u with
  | writeCmd code =>
    have h : writeCmd code (withBmp m s) = withBmp m (writeCmd code s) := spiTxn_withBmp [code] m (setDc false s)
    simp only [uopStep, h, settle_withBmp]
  | writeData src =>
    have hsrc : sourceBytes c (withBmp m s) src = sourceBytes c s src := sourceBytes_congr rfl c src
    simp only [uopStep, hsrc, writeData_withBmp, settle_withBmp]
  | waitBusy timeout =>
    have h : waitBusy c timeout (withBmp m s) = withBmp m (waitBusy c timeout s) :=
      waitLoop_withBmp c timeout (timeout + 1) m (setElapsed 0 s)
    simp only [uopStep, h, settle_withBmp]
  | setPwr l => exact settle_withBmp m (setPwr l s)
  | setRst l => exact settle_withBmp m (setRst l s)
  | delay d => exact settle_withBmp m (delay d s)
  | setSt p => rfl
  | ret r => rfl

/-- Settles O58: inside `DISPLAY_FULL` a step is a micro-operation, whose data comes from `LATCH` (R21, R54, R239). -/
theorem bitmapStable : Obligations.BitmapStable := by
  unfold Obligations.BitmapStable
  intro s t m hop h
  have hidle : s.seq.op ≠ .idle := by simp [hop]
  have henc : s.seq.op ≠ .encode := by simp [hop]
  rcases step_cases h with ⟨hi, -⟩ | ⟨_, _, hi, -⟩ | ⟨_, _, _, _, hi, -⟩ | ⟨_, _, hi, -⟩ | ⟨he, -⟩ | ⟨u, -, hu, rfl⟩
  iterate 4 exact absurd hi hidle
  · exact absurd he henc
  · exact (step_uop (s := withBmp m s) hidle henc hu).trans (congrArg _ (uopStep_withBmp hw u m s))

end Sys2Proof.Machine
end

section
/-!
PROOFS. What `ENCODE` leaves in the state: the bit of each pixel, the rest of `BMP`, and everything outside `BMP` and the
result registers (R28, R41, R170 to R175).
-/

namespace Sys2Proof.Machine

/-- Bit `7 - x % 8` of byte `x / 8` of a row is target pixel `x` (R41, R175). -/
theorem encodedByte_bit (c : Cfg) (a : EncodeArgs) (x y : Nat) :
    (encodedByte c a y (x / 8)).getLsbD (7 - x % 8) = pixelWhite c a x y := by
  rw [encodedByte, pack_bit _ _ (Nat.mod_lt x (by decide)), Nat.div_add_mod]

/-- On this hardware a pixel is classified by the luma of the floor map's source pixel (R171 to R174; D25, D27). -/
theorem pixelWhite_hw (a : EncodeArgs) (x y : Nat) :
    pixelWhite hw a x y =
      classify (luma (scale8 a.depth (a.img.read (x * a.imgW / 800) (y * a.imgH / 480)))) a.thresh a.invert := rfl

/-- Byte `xb` of row `y` of the bitmap that `ENCODE` leaves (R41, R170). -/
theorem encodeBody_read_row {s : State} (hwf : Memory.wf s.bmp) {y xb : Nat} (hy : y < 480) (hx : xb < 100) :
    Memory.read (encodeBody hw s).bmp (y * 100 + xb) = encodedByte hw (encodeArgs s) y xb := by
  have hget : (encodedBytes hw (encodeArgs s))[y * 100 + xb]? = some (encodedByte hw (encodeArgs s) y xb) :=
    encodedBytes_get hw _ hy hx
  obtain ⟨hlen, hval⟩ := List.getElem?_eq_some_iff.mp hget
  have hread := Memory.read_writeRange_inside hwf 0 _ _ hlen
  rw [Nat.zero_add, hval] at hread
  rw [encodeBody_bmp, hread]

/-- The pixels of the bitmap that `ENCODE` leaves (R41, R175). -/
theorem encodeBody_bit {s : State} (hwf : Memory.wf s.bmp) {x y : Nat} (hx : x < 800) (hy : y < 480) :
    (Memory.read (encodeBody hw s).bmp (y * 100 + x / 8)).getLsbD (7 - x % 8) =
      pixelWhite hw (encodeArgs s) x y := by
  rw [encodeBody_read_row hwf hy (by omega), encodedByte_bit]

/-- `BMP` above the bitmap is left alone. -/
theorem encodeBody_read_above (s : State) {a : Nat} (h : 48000 ≤ a) :
    Memory.read (encodeBody hw s).bmp a = Memory.read s.bmp a := by
  rw [encodeBody_bmp]
  exact Memory.read_writeRange_above _ _ _ (by rwa [encodedBytes_length_hw, Nat.zero_add])

theorem encodeBody_accept_quiet (c : Cfg) (op : SeqOp) (s : State) : QuietKeeps s (encodeBody c (accept op s)) := by
  constructor <;> rfl

/-- The `require` line of `ENCODE` on the operand registers (R170). -/
theorem encodeReady_of_registers {s : State} (hwidth : 1 ≤ s.imgW.toNat) (hheight : 1 ≤ s.imgH.toNat)
    (hd : s.imgDepth = 8 ∨ s.imgDepth = 16) : encodeReady hw (encodeArgs s) = true :=
  (encodeReady_hw _).mpr ⟨hwidth, hheight, hd.imp (congrArg BitVec.toNat) (congrArg BitVec.toNat)⟩

/-- Settles O44: admitted operands run the body of `ENCODE`, whose bitmap is read byte by byte and bit by bit (R41, R170
to R175; D25 to D27). -/
theorem encodeCompletes : Obligations.EncodeCompletes := by
  unfold Obligations.EncodeCompletes
  intro s hidle hwidth hheight hd hwf
  refine ⟨_, exec_encode hidle (encodeReady_of_registers hwidth hheight hd), encodeBody_delivered hw _,
    encodeBody_accept_quiet hw _ s, rfl, fun x y hx hy => ?_, fun a ha => encodeBody_read_above _ ha⟩
  rw [encodeBody_bit (s := accept .encode s) hwf hx hy, encodeArgs_accept, pixelWhite_hw]
  rfl

end Sys2Proof.Machine
end

section
/-!
PROOFS. The three encodings (30_encoding.md): what decodes at a level is what is encoded there, level by level (R70,
R71, R74, R80).
-/

namespace Sys2Proof

/-! ### Level H: host codes (R70) -/

/-- A byte is the host code of the level-H operation whose encoding it is, and of no other (R70). -/
theorem decode_host_ok_iff {b : Byte} {bs rest : List Byte} {i : Instr} :
    decode .host (b :: bs) = .ok (i, rest) ↔ i.level = .host ∧ encode i = [b] ∧ rest = bs := by
  constructor
  · intro h
    simp only [decode, decodeHost] at h
    split_ifs at h with h0 h1 h2 h3
    all_goals
      cases h
      simp [Instr.level, encode, *]
  · rintro ⟨hl, he, rfl⟩
    cases i with
    | init | displayFull | sleep | encode => cases he; rfl
    | _ => cases hl

/-! ### Level W: command bytes in their context (R74, R75) -/

/-- In each context a byte names the wire command emitted there whose encoding it is, and no other (R74, R75). -/
theorem wireCommand_eq_some_iff {ctx : WireCtx} {b : Byte} {i : Instr} :
    wireCommand ctx b = some i ↔ i.level = .wire ctx ∧ encode i = [b] := by
  constructor
  · intro h
    cases ctx with
    | init | initGsv | display | sleep =>
      simp only [wireCommand] at h
      split_ifs at h
      all_goals
        cases h
        simp [Instr.level, encode, *]
  · rintro ⟨hl, he⟩
    cases i with
    | gateSrcVolt => cases hl; cases he; simp [wireCommand]
    | swreset | drvOutCtrl | dataEntry | xWindow | yWindow | xCounter | yCounter | writeOld | writeNew | refresh
    | deepSleep => cases hl; cases he; rfl
    | _ => cases hl

theorem decode_wire_ok_iff {ctx : WireCtx} {b : Byte} {bs rest : List Byte} {i : Instr} :
    decode (.wire ctx) (b :: bs) = .ok (i, rest) ↔ i.level = .wire ctx ∧ encode i = [b] ∧ rest = bs := by
  rw [← and_assoc, ← wireCommand_eq_some_iff, decode, decodeWire]
  cases wireCommand ctx b <;> simp [eq_comm]

/-! ### Level P: ordinals and operands (R71; log entry 12) -/

theorem decodeSource_put {src : Src} (h : src.wellFormed = true) (rest : List Byte) :
    decodeSource (putSource src ++ rest) = .ok (.writeData src, rest) := by
  cases src with
  | lit bytes =>
    have hlen : bytes.length - 0 < 256 ^ 4 := by simpa [Src.wellFormed] using h
    have hlist := takeList_put (Nat.zero_le _) hlen rest
    simp only [Nat.sub_zero] at hlist
    simp [putSource, decodeSource, hlist]
  | bmpInv | bmp => rfl

theorem put_decodeSource {bs rest : List Byte} {i : Instr} (h : decodeSource bs = .ok (i, rest)) :
    ∃ src, i = .writeData src ∧ putSource src ++ rest = bs := by
  cases bs with
  | nil => cases h
  | cons b bs =>
    simp only [decodeSource] at h
    split_ifs at h with h0 h1 h2
    · subst h0
      split at h
      · rename_i bytes rest' hlist
        cases h
        exact ⟨.lit bytes, rfl, by simpa [putSource] using put_takeList hlist⟩
      · cases h
    · cases h
      exact ⟨.bmpInv, rfl, by simp [putSource, h1]⟩
    · cases h
      exact ⟨.bmp, rfl, by simp [putSource, h2]⟩

/-- The list of a `SPI_TXN` fits its two length bytes, which hold one less than its length (R101; log entry 12). -/
theorem decodeMicro_spiTxn {bytes : List Byte} (h : (Instr.spiTxn bytes).WellFormed) (rest : List Byte) :
    decodeMicro (encode (.spiTxn bytes) ++ rest) = .ok (.spiTxn bytes, rest) := by
  obtain ⟨hpos, hmax⟩ : 1 ≤ bytes.length ∧ bytes.length ≤ Config.maxChunk := by
    simpa [Instr.WellFormed, Instr.wellFormed, txnLengthOk] using h
  rw [Config.maxChunk] at hmax
  have hlist := takeList_put (k := 2) hpos (by omega) rest
  simp [encode, decodeMicro, hlist]

/-- What decodes as a micro-operation is the encoding of what it decodes to, ordinal by ordinal (R71). -/
theorem encode_of_decodeMicro {bytes rest : List Byte} {i : Instr} (h : decodeMicro bytes = .ok (i, rest)) :
    i.level = .micro ∧ encode i ++ rest = bytes := by
  cases bytes with
  | nil => cases h
  | cons u bs =>
    simp only [decodeMicro] at h
    split_ifs at h with h0 h1 h2 h3 h4 h5 h6 h7 h8
    · subst h0
      split at h
      · cases h
        exact ⟨rfl, rfl⟩
      · cases h
    · obtain ⟨src, rfl, rfl⟩ := put_decodeSource h
      exact ⟨rfl, h1 ▸ rfl⟩
    · obtain ⟨d, rfl, rfl⟩ := put_decodeDuration h
      exact ⟨rfl, h2 ▸ rfl⟩
    · obtain ⟨l, rfl, rfl⟩ := put_decodeLevelOperand h
      exact ⟨rfl, h3 ▸ rfl⟩
    · obtain ⟨l, rfl, rfl⟩ := put_decodeLevelOperand h
      exact ⟨rfl, h4 ▸ rfl⟩
    · obtain ⟨d, rfl, rfl⟩ := put_decodeDuration h
      exact ⟨rfl, h5 ▸ rfl⟩
    · obtain ⟨l, rfl, rfl⟩ := put_decodeLevelOperand h
      exact ⟨rfl, h6 ▸ rfl⟩
    · split at h
      · rename_i list rest' hlist
        cases h
        exact ⟨rfl, by simp only [encode, List.cons_append, List.append_assoc, put_takeList hlist, h7]⟩
      · cases h
    · cases h
      exact ⟨rfl, h8 ▸ rfl⟩

/-! ### The round trips -/

/-- Settles O6, one operation at a time: a code and its operand fields are taken back as they were put (R70, R71,
R74). -/
theorem decodeOfEncode : Obligations.DecodeOfEncode := by
  unfold Obligations.DecodeOfEncode
  intro i rest h
  cases i with
  | init | displayFull | sleep | encode => exact decode_host_ok_iff.mpr ⟨rfl, rfl, rfl⟩
  | writeCmd | readBusy => rfl
  | writeData src => exact decodeSource_put h rest
  | waitBusy t => exact decodeDuration_put .waitBusy (of_decide_eq_true h) rest
  | delay d => exact decodeDuration_put .delay (of_decide_eq_true h) rest
  | setPwr l => exact decodeLevelOperand_put .setPwr l rest
  | setRst l => exact decodeLevelOperand_put .setRst l rest
  | setDc l => exact decodeLevelOperand_put .setDc l rest
  | spiTxn bytes => exact decodeMicro_spiTxn h rest
  | swreset | drvOutCtrl | gateSrcVolt | dataEntry | xWindow | yWindow | xCounter | yCounter | writeOld | writeNew
  | refresh | deepSleep => exact decode_wire_ok_iff.mpr ⟨rfl, rfl, rfl⟩

/-- Settles O7, one level at a time (R70, R71, R74, R75). -/
theorem encodeOfDecode : Obligations.EncodeOfDecode := by
  unfold Obligations.EncodeOfDecode
  intro level bytes i rest h
  cases level with
  | micro => exact encode_of_decodeMicro h
  | host =>
    cases bytes with
    | nil => cases h
    | cons b bs =>
      obtain ⟨hl, he, rfl⟩ := decode_host_ok_iff.mp h
      exact ⟨hl, by simp [he]⟩
  | wire ctx =>
    cases bytes with
    | nil => cases h
    | cons b bs =>
      obtain ⟨hl, he, rfl⟩ := decode_wire_ok_iff.mp h
      exact ⟨hl, by simp [he]⟩

/-- Settles O8: such a byte is none of the nine ordinals (R80). -/
theorem unusedOrdinalsRefused : Obligations.UnusedOrdinalsRefused := by
  unfold Obligations.UnusedOrdinalsRefused
  intro u rest hu
  have hne : ∀ ordinal : Byte, ordinal.toNat < 9 → u ≠ ordinal := by
    rintro ordinal h rfl
    omega
  simp [decode, decodeMicro, hne]

/-- Settles O5: each word is the encoding of its operation (R70, R71, R74). -/
theorem wordsDecode : Obligations.WordsDecode :=
  have h (i : Instr) (hi : i.WellFormed) : decode i.level (encode i ++ []) = .ok (i, []) := decodeOfEncode i [] hi
  ⟨h .init rfl, h .displayFull rfl, h .sleep rfl, h .encode rfl, h (.writeCmd 0x13) rfl, h (.writeData .bmp) rfl,
    h .readBusy rfl, h .swreset rfl, h .refresh rfl, h .writeOld rfl, h .deepSleep rfl, h .yCounter rfl⟩

end Sys2Proof
end

section
/-!
PROOFS. The data of a transfer: the payloads of the two sources of the bitmap (R78), and `WRITE_DATA` in whole chunks
(R77, R108, R110).
-/

namespace Sys2Proof.Machine

/-! ### Payloads (R76, R78) -/

/-- Byte `i` of a range of a buffer. -/
theorem Memory.readRange_get (m : Memory) {i n : Nat} (h : i < n) :
    (Memory.readRange m 0 n)[i]? = some (Memory.read m i) := by
  simp [Memory.readRange, h]

/-- The bitwise NOT of a byte is its exclusive or with `0xFF` (R78). -/
theorem not_eq_xor_ff (v : Byte) : ~~~v = v ^^^ 0xFF := (BitVec.xor_allOnes (x := v)).symm

/-- Byte `i` of the complement of a range of a buffer (R78). -/
theorem Memory.not_readRange_get (m : Memory) {i n : Nat} (h : i < n) :
    ((Memory.readRange m 0 n).map (fun v => ~~~v))[i]? = some (Memory.read m i ^^^ 0xFF) := by
  rw [List.getElem?_map, Memory.readRange_get m h, Option.map_some, not_eq_xor_ff]

/-- Settles O20: the payload of `Bmp` is a range of `LATCH`, that of `BmpInv` its complement (R78). -/
theorem doubleWritePayloads : Obligations.DoubleWritePayloads :=
  ⟨fun c s => ⟨sourceBytes_length c s .bmp, sourceBytes_length c s .bmpInv, rfl, fun _ hi =>
    ⟨Memory.readRange_get s.latch hi, Memory.not_readRange_get s.latch hi⟩⟩, hw_bmpBytes⟩

/-! ### `WRITE_DATA` with nothing failing (R77, R108, R110) -/

/-- What `WRITE_DATA` of `b` in chunks of `c.maxChunk` does when nothing fails. -/
theorem writeData_completes {c : Cfg} (b : List Byte) {s : State}
    (h : NoFail (chunkCount c.maxChunk b.length) s) :
    (writeData c b s).ret = .ok ∧ (writeData c b s).dc = true ∧ BusOnly s (writeData c b s) ∧
      (writeData c b s).tr = s.tr ++ .pin .dc true :: (chunks c.maxChunk b).map (Event.txn true) := by
  obtain ⟨rest, h⟩ := h
  obtain ⟨hret, htr, -⟩ := writeData_noFail c b h
  exact ⟨hret, writeData_dc c b s, writeData_busOnly c b s, htr⟩

/-- The chunks of a buffer by their places (R77). -/
theorem chunks_get_of_lt {m k : Nat} {b : List Byte} (h : k < (chunks m b).length) :
    (chunks m b)[k]? = some ((b.drop (k * m)).take m) :=
  chunks_get (by rwa [chunks_length] at h)

/-- Settles O18: the chunks cover the buffer, and `WRITE_DATA` sends each (R77, R108, R110; D15). -/
theorem writeDataCompletes : Obligations.WriteDataCompletes := by
  unfold Obligations.WriteDataCompletes
  constructor
  · intro c b s hc h
    obtain ⟨hret, hdc, hbus, htr⟩ := writeData_completes b h
    exact ⟨_, _, rfl, hret, hdc, hbus.keeps, htr, chunks_length _ b, chunks_flatten hc.chunk_pos b,
      fun _ => chunks_sized hc.chunk_pos, fun _ => chunks_get_of_lt⟩
  · intro src s h
    obtain ⟨hret, hdc, hbus, htr⟩ := writeData_completes (c := hw) (sourceBytes hw s src) h
    have hend := hbus.trans (endData_busOnly _)
    exact ⟨_, _, rfl, hret, hdc, hend.keeps, hend.pwr, hend.rst, writeData_elapsed hw _ s, htr, chunks_length _ _,
      chunks_flatten hw_valid.chunk_pos _, fun _ => chunks_sized hw_valid.chunk_pos, fun _ => chunks_get_of_lt⟩

end Sys2Proof.Machine
end

section
/-!
PROOFS. The frames a receiver reads (R72, R81) from a completed `INIT` and a completed `DISPLAY_FULL`, whose traces are
written out first (R149, R151).
-/

namespace Sys2Proof.Machine

/-! ### Reading frames (R72, R81) -/

/-- Events that are no transaction neither begin a frame nor add to one (R81). -/
theorem framesFrom_quiet {xs : List Event} (h : txnCount xs = 0) (cur : Option Frame) (es : List Event) :
    framesFrom cur (xs ++ es) = framesFrom cur es := by
  induction xs with
  | nil => rfl
  | cons e xs ih =>
    rw [txnCount, List.countP_eq_zero] at h
    have hxs : framesFrom cur (xs ++ es) = framesFrom cur es :=
      ih (List.countP_eq_zero.mpr fun x hx => h x (List.mem_cons_of_mem e hx))
    cases e with
    | txn | txnFail => exact absurd rfl (h _ List.mem_cons_self)
    | pin | sample | delay => simpa [framesFrom] using hxs

/-- The data transactions behind a command byte are the payload of its frame (R72). -/
theorem framesFrom_data (f : Frame) (chs : List (List Byte)) (es : List Event) :
    framesFrom (some f) (chs.map (Event.txn true) ++ es) =
      framesFrom (some ⟨f.cmd, f.payload ++ chs.flatten⟩) es := by
  induction chs generalizing f with
  | nil => simp
  | cons ch chs ih => simp [framesFrom, ih]

/-- A `SEND` closes the frame that is open and opens its own, which holds its parameters whole (R72, R130). -/
theorem framesFrom_sendEvents {c : Cfg} (hm : 1 ≤ c.maxChunk) (cur : Option Frame) (cmd : Byte) (p : List Byte)
    (es : List Event) :
    framesFrom cur (sendEvents c cmd p ++ es) = cur.toList ++ framesFrom (some ⟨cmd, p⟩) es := by
  have hdata := framesFrom_data ⟨cmd, []⟩ (chunks c.maxChunk p) es
  rw [chunks_flatten hm, List.nil_append] at hdata
  by_cases hp : p = []
  · simp [sendEvents, framesFrom, hp]
  · simp [sendEvents, framesFrom, hp, hdata]

/-- Frames sent one after the other, and then nothing but samples, delays and line writes, are read as sent (R72). -/
theorem framesFrom_framesEvents {c : Cfg} (hm : 1 ≤ c.maxChunk) (fs : List Frame) {tail : List Event}
    (htail : txnCount tail = 0) (cur : Option Frame) :
    framesFrom cur (framesEvents c fs ++ tail) = cur.toList ++ fs := by
  induction fs generalizing cur with
  | nil => simpa [framesEvents, framesFrom] using framesFrom_quiet htail cur []
  | cons f fs ih =>
    rw [framesEvents] at ih ⊢
    rw [List.flatMap_cons, List.append_assoc, framesFrom_sendEvents hm, ih]
    simp

/-- The frames of a completed `INIT`: soft reset, then the setup commands (R149). -/
theorem framesOf_initEvents (n : Nat) : framesOf (initEvents hw n) = ⟨hw.cSwreset, []⟩ :: setupFrames hw := by
  have hm := hw_valid.chunk_pos
  have hsetup := framesFrom_framesEvents hm (setupFrames hw) (tail := []) rfl (some ⟨hw.cSwreset, []⟩)
  rw [List.append_nil] at hsetup
  rw [framesOf, initEvents, List.append_assoc, List.append_assoc, framesFrom_quiet (txnCount_pulseEvents hw),
    framesFrom_sendEvents hm, framesFrom_quiet (txnCount_clearEvents hw n), hsetup]
  rfl

/-- The frames of a completed `DISPLAY_FULL` (R151). -/
theorem framesOf_displayEvents (b : List Byte) (n : Nat) :
    framesOf (displayEvents hw b ++ clearEvents hw n) = displayFrames hw b :=
  framesFrom_framesEvents hw_valid.chunk_pos (displayFrames hw b) (txnCount_clearEvents hw n) none

/-! ### Scripts carried along, and the end of an operation -/

/-- A script of `draw_fail()` is read from `failIn` alone (R26). -/
theorem NoFail.of_eq {n : Nat} {s t : State} (h : NoFail n s) (ht : t.failIn = s.failIn) : NoFail n t := by
  simpa [NoFail, ht] using h

/-- A script of `draw_busy()` is read from `busyIn` alone (R26). -/
theorem ClearsAfter.of_eq {n : Nat} {s t : State} (h : ClearsAfter n s) (ht : t.busyIn = s.busyIn) :
    ClearsAfter n t := by
  simpa [ClearsAfter, ht] using h

/-- The end of a micro-program touches nothing the host holds. -/
theorem end_keeps (p : PanelState) (s : State) : PanelKeeps s (deliver .ok (advance { s with st := p })) := by
  constructor <;> rfl

/-! ### A completed `INIT` (R149, R150) -/

/-- The bus part of `INIT`, nothing failing and `BUSY` clear in time: soft reset, busy wait, setup commands (R149). -/
theorem runProg_initBus {s : State} {n : Nat} (rest : List UOp) (hop : s.seq.op ≠ .idle)
    (hfail : NoFail (1 + txnCount (framesEvents hw (setupFrames hw))) s) (hbusy : ClearsAfter n s)
    (htime : clearsInTime hw hw.tInitBusy n) :
    ∃ t, Along s (sendEvents hw hw.cSwreset [] ++ clearEvents hw n ++ framesEvents hw (setupFrames hw)) t ∧
      runProg hw (.writeCmd hw.cSwreset :: .waitBusy hw.tInitBusy :: (setupUOps hw ++ rest)) s =
        runProg hw rest t := by
  have hnow := hfail.first (by omega)
  have hreset := (writeCmd_sent (code := hw.cSwreset) hnow).1.advance
  obtain ⟨w, hwait, hwf, ew⟩ := runProg_waitClears (setupUOps hw ++ rest) (by simpa using hop)
    (hbusy.of_eq hreset.busyIn) htime
  obtain ⟨t, hsetup, et⟩ := runProg_sends (fs := setupFrames hw) rest (by simpa [hwait.op] using hop)
    (hfail.drop (hwf.trans hreset.failIn))
  refine ⟨t, (hreset.along.trans hwait).trans hsetup.along, ?_⟩
  rw [runProg_writeCmd _ hop hnow, ew, setupUOps, et]

/-- `INIT` outside `Awake`, nothing failing and `BUSY` clear in time, is the whole sequence. -/
theorem exec_init_completes {s : State} {n : Nat} (h : s.seq.op = .idle) (hst : s.st ≠ .awake)
    (hfail : NoFail (txnCount (initEvents hw n)) s) (hbusy : ClearsAfter n s) (htime : clearsInTime hw hw.tInitBusy n) :
    ∃ t, exec .init s = .next t ∧ Delivered .ok t ∧ t.st = .awake ∧ t.tr = s.tr ++ initEvents hw n ∧
      t.rst = true ∧ t.pwr = (if hw.hasPwr then true else s.pwr) ∧ PanelKeeps s t ∧ t.latch = s.latch := by
  rw [txnCount_initEvents] at hfail
  obtain ⟨p, hp, ep⟩ := runProg_pulse
    (.writeCmd hw.cSwreset :: .waitBusy hw.tInitBusy :: (setupUOps hw ++ [.setSt .awake, .ret .ok]))
    (s := accept .init s) (by simp)
  have hop : p.seq.op = .init := hp.op
  obtain ⟨t, ha, et⟩ := runProg_initBus [.setSt .awake, .ret .ok] (by simp [hop]) (hfail.of_eq hp.failIn)
    (hbusy.of_eq hp.busyIn) htime
  refine ⟨deliver .ok (advance { t with st := .awake }), ?_, deliver_delivered _ _, rfl, ?_, ha.rst.trans hp.rst,
    ha.pwr.trans hp.pwr, ?_, ha.latch.trans hp.latch⟩
  · rw [exec_init h hst, initProg_eq, ep, et, runProg_end (by simp [ha.op, hop])]
  · have htr := (hp.run.trans ha.run).tr
    simpa [initEvents] using htr
  · exact ((accept_keeps .init s).trans hp.keeps).trans (ha.keeps.trans (end_keeps .awake t))

/-- Settles O60: the frames of the completed trace (R72, R74, R149). -/
theorem initFramesInOrder : Obligations.InitFramesInOrder := by
  unfold Obligations.InitFramesInOrder
  intro s n h hst hfail hbusy htime
  obtain ⟨t, he, -, -, htr, -⟩ := exec_init_completes h hst hfail hbusy htime
  exact ⟨t, _, he, htr, framesOf_initEvents n⟩

/-! ### A completed `DISPLAY_FULL` (R151, R152) -/

/-- The last write of `DC` in `DISPLAY_FULL` is that of the refresh command (R151). -/
theorem lastPin_dc_displayEvents (m : Memory) :
    lastPin .dc (displayEvents hw (Memory.readRange m 0 48000)) = some false := by
  rw [displayEvents_eq, lastPin_append]
  rfl

/-- The bus part of `DISPLAY_FULL`, nothing failing and `BUSY` clear in time (R151). -/
theorem runProg_displayBus {s : State} {n : Nat} (rest : List UOp) (hfail : NoFail 27 s) (hbusy : ClearsAfter n s)
    (htime : clearsInTime hw hw.tRefresh n) :
    ∃ t, Along (displayStart s) (displayEvents hw (Memory.readRange s.bmp 0 48000) ++ clearEvents hw n) t ∧
      runProg hw (displayBus ++ rest) (displayStart s) = runProg hw rest t := by
  have hfail0 : NoFail (13 + 14) (displayStart s) := hfail
  obtain ⟨o, hold, eo⟩ := runProg_pass (cmd := hw.cOld) (src := .bmpInv) (s := displayStart s)
    (.writeCmd hw.cNew :: .writeData .bmp :: .writeCmd hw.cRefresh :: .waitBusy hw.tRefresh :: rest)
    (by simp [displayStart]) (hfail0.mono (by omega)) rfl
  have hopo : o.seq.op ≠ .idle := by simp [hold.along.op, displayStart]
  have hfail1 : NoFail (13 + 1) o := hfail0.drop hold.failIn
  obtain ⟨w, hnew, ew⟩ := runProg_pass (cmd := hw.cNew) (src := .bmp) (s := o)
    (.writeCmd hw.cRefresh :: .waitBusy hw.tRefresh :: rest) hopo (hfail1.mono (by omega)) rfl
  have hopw : w.seq.op ≠ .idle := by simpa [hnew.along.op] using hopo
  have hnow : failNow w = false := (hfail1.drop hnew.failIn).first le_rfl
  have hsent := (hold.trans hnew).trans (writeCmd_sent (code := hw.cRefresh) hnow).1.advance
  obtain ⟨t, hwait, -, et⟩ := runProg_waitClears (timeout := hw.tRefresh) rest (by simpa using hopw)
    (hbusy.of_eq hsent.busyIn) htime
  refine ⟨t, ?_, ?_⟩
  · have hall := hsent.along.trans hwait
    have hbmp : sourceBytes hw (displayStart s) .bmp = Memory.readRange s.bmp 0 48000 := latchBytes_displayStart s
    have hinv : sourceBytes hw (displayStart s) .bmpInv = (Memory.readRange s.bmp 0 48000).map (fun v => ~~~v) :=
      congrArg (List.map (fun v => ~~~v)) hbmp
    rw [sourceBytes_congr hold.along.latch, hbmp, hinv] at hall
    rwa [displayEvents_eq]
  · exact eo.trans (ew.trans ((runProg_writeCmd _ hopw hnow).trans et))

/-- Settles O35: the trace of the completed operation, its frames, and their payloads byte by byte (R78, R151, R152; D6,
D8, D13, D14, D24). -/
theorem displayCompletes : Obligations.DisplayCompletes := by
  unfold Obligations.DisplayCompletes
  intro s n h hst hlen hfail hbusy htime
  obtain ⟨t, ha, e⟩ := runProg_displayBus [.setSt .awake, .ret .ok] hfail hbusy htime
  have hop : t.seq.op ≠ .idle := by simp [ha.op, displayStart]
  have hdc : t.dc = false := by
    rw [ha.run.dc, lastPin_append, lastPin_clearEvents, lastPin_dc_displayEvents]
    rfl
  refine ⟨deliver .ok (advance { t with st := .awake }), _, _, Memory.readRange s.bmp 0 48000, ?_,
    deliver_delivered _ _, rfl, ha.run.tr, rfl, framesOf_displayEvents _ n, ?_, ?_, fun i hi =>
      ⟨Memory.readRange_get s.bmp hi, Memory.not_readRange_get s.bmp hi⟩, ha.pwr, ha.rst, hdc, ?_, fun i hi => ?_⟩
  · rw [exec_display h hst hlen, e, runProg_end hop]
  · simp
  · simp
  · exact ((displayStart_keeps s).trans ha.keeps).trans (end_keeps .awake t)
  · have hread := congrArg (Memory.read · i) ha.latch
    exact hread.trans ((Memory.read_restrict s.bmp hw.bmpBytes i).trans (if_pos hi))

end Sys2Proof.Machine
end

section
/-!
PROOFS. Which command bytes are sent (R74, R80): every transaction that a wire command or a panel operation sends with
`DC = 0` is one byte of the table.
-/

namespace Sys2Proof.Machine

/-! ### Events of one kind appended -/

/-- The command bytes of R74, those of `GSV` among them. -/
def commandBytes : List Byte :=
  [0x12, 0x01, 0x11, 0x44, 0x45, 0x4E, 0x4F, 0x10, 0x13] ++ hw.gsv.map GsvEntry.cmd

/-- A transaction with `DC = 0`, completed or failed, is a byte of the table; any other event may be anything (R80). -/
def Event.Documented : Event → Prop
  | .txn false bytes | .txnFail false bytes => ∃ cmd, bytes = [cmd] ∧ cmd ∈ commandBytes
  | .txn true _ | .txnFail true _ | .pin _ _ | .sample _ | .delay _ => True

/-- From `s` to `t` only such events were appended to the trace. -/
def AppendsDocumented (s t : State) : Prop := ∃ evs, t.tr = s.tr ++ evs ∧ ∀ e ∈ evs, e.Documented

theorem AppendsDocumented.of_tr {s t : State} (h : t.tr = s.tr) : AppendsDocumented s t := ⟨[], by simp [h], nofun⟩

theorem AppendsDocumented.one {s t : State} {e : Event} (h : t.tr = s.tr ++ [e]) (he : e.Documented) :
    AppendsDocumented s t :=
  ⟨[e], h, by simpa using he⟩

theorem AppendsDocumented.trans {s t u : State} (h : AppendsDocumented s t) (k : AppendsDocumented t u) :
    AppendsDocumented s u := by
  obtain ⟨xs, hx, hdx⟩ := h
  obtain ⟨ys, hy, hdy⟩ := k
  exact ⟨xs ++ ys, by rw [hy, hx, List.append_assoc], List.forall_mem_append.mpr ⟨hdx, hdy⟩⟩

/-! ### The primitives (R101 to R109) -/

theorem spiTxn_data_documented (bytes : List Byte) {s : State} (hdc : s.dc = true) :
    AppendsDocumented s (spiTxn bytes s) := by
  refine .one (spiTxn_tr bytes s) ?_
  unfold txnEvent
  split <;> simp [hdc, Event.Documented]

theorem writeCmd_documented {code : Byte} (h : code ∈ commandBytes) (s : State) :
    AppendsDocumented s (writeCmd code s) := by
  refine ⟨_, writeCmd_tr code s, ?_⟩
  split <;> simp [Event.Documented, h]

theorem sendChunks_documented (chs : List (List Byte)) {s : State} (hdc : s.dc = true) :
    AppendsDocumented s (sendChunks chs s) := by
  induction chs generalizing s with
  | nil => exact .of_tr rfl
  | cons ch chs ih =>
    have htxn := spiTxn_data_documented ch hdc
    have hrest (off : Nat) : AppendsDocumented (spiTxn ch s) (sendChunks chs (setOff off (spiTxn ch s))) :=
      ih (by simpa using hdc)
    simp only [sendChunks]
    split
    · exact htxn
    all_goals exact htxn.trans (hrest _)

theorem writeData_documented (c : Cfg) (b : List Byte) (s : State) : AppendsDocumented s (writeData c b s) :=
  .trans (t := setOff 0 (setDc true s)) (.one rfl trivial) (sendChunks_documented _ rfl)

theorem waitLoop_documented (c : Cfg) (timeout fuel : Nat) (s : State) :
    AppendsDocumented s (waitLoop c timeout fuel s) := by
  induction fuel generalizing s with
  | zero => exact .of_tr rfl
  | succ fuel ih =>
    have hread : AppendsDocumented s (readBusy s) := .one (readBusy_tr s) trivial
    simp only [waitLoop]
    split
    · exact hread
    · split
      · exact hread
      · exact hread.trans (.trans (.one (delay_tr c.pollInterval _) trivial) (ih _))

theorem send_documented (c : Cfg) {cmd : Byte} (h : cmd ∈ commandBytes) (p : List Byte) (s : State) :
    AppendsDocumented s (send c cmd p s) := by
  have hcmd := writeCmd_documented h s
  simp only [send]
  split
  · split
    · exact hcmd
    · exact hcmd.trans (writeData_documented c p _)
  all_goals exact hcmd

theorem sendAll_documented (c : Cfg) {gs : List GsvEntry} (h : ∀ g ∈ gs, g.cmd ∈ commandBytes) (s : State) :
    AppendsDocumented s (sendAll c gs s) := by
  induction gs generalizing s with
  | nil => exact .of_tr rfl
  | cons g gs ih =>
    have hsend := send_documented c (h g List.mem_cons_self) g.params s
    simp only [sendAll]
    split
    · exact hsend.trans (ih (fun g' hg => h g' (List.mem_cons_of_mem g hg)) _)
    all_goals exact hsend

/-! ### The micro-programs (R148 to R153) -/

/-- A micro-operation that sends a command byte of the table, or none. -/
def UOp.Documented : UOp → Prop
  | .writeCmd code => code ∈ commandBytes
  | .writeData _ | .waitBusy _ | .setPwr _ | .setRst _ | .delay _ | .setSt _ | .ret _ => True

theorem abort_tr (cause : Ret) (s : State) : (abort cause s).tr = s.tr := by simpa using (abort_run cause s).tr

theorem settle_tr (s : State) : (settle s).tr = s.tr := by
  unfold settle
  split
  · rfl
  · rfl
  · exact abort_tr _ s
  · exact abort_tr _ s

theorem uopStep_documented (c : Cfg) {u : UOp} (h : u.Documented) (s : State) :
    AppendsDocumented s (uopStep c u s) := by
  have hsettle {t : State} (ht : AppendsDocumented s t) : AppendsDocumented s (settle t) :=
    ht.trans (.of_tr (settle_tr t))
  cases u with
  | writeCmd code => exact hsettle (writeCmd_documented h s)
  | writeData src => exact hsettle (writeData_documented c _ s)
  | waitBusy timeout => exact hsettle (waitLoop_documented c timeout (timeout + 1) (setElapsed 0 s))
  | setPwr l => exact hsettle (.one (setPwr_tr l s) trivial)
  | setRst l => exact hsettle (.one (setRst_tr l s) trivial)
  | delay d => exact hsettle (.one (delay_tr d s) trivial)
  | setSt p => exact .of_tr rfl
  | ret r => exact .of_tr rfl

theorem runProg_documented (c : Cfg) {us : List UOp} (h : ∀ u ∈ us, u.Documented) (s : State) :
    AppendsDocumented s (runProg c us s) := by
  induction us generalizing s with
  | nil => exact .of_tr rfl
  | cons u us ih =>
    have hstep := uopStep_documented c (h u List.mem_cons_self) s
    simp only [runProg]
    split
    · exact hstep
    · exact hstep.trans (ih (fun v hv => h v (List.mem_cons_of_mem u hv)) _)

theorem gsv_documented {g : GsvEntry} (h : g ∈ hw.gsv) : g.cmd ∈ commandBytes :=
  List.mem_append_right _ (List.mem_map_of_mem h)

theorem setupFrames_documented {f : Frame} (h : f ∈ setupFrames hw) : f.cmd ∈ commandBytes := by
  simp only [setupFrames, List.cons_append, List.mem_cons, List.mem_append, List.mem_map, List.not_mem_nil,
    or_false] at h
  rcases h with rfl | ⟨g, hg, rfl⟩ | rfl | rfl | rfl | rfl | rfl
  case inr.inl => exact gsv_documented hg
  all_goals simp [commandBytes]

theorem sendUOps_documented {cmd : Byte} (h : cmd ∈ commandBytes) (p : List Byte) :
    ∀ u ∈ sendUOps cmd p, u.Documented := by
  unfold sendUOps
  split <;> simp [UOp.Documented, h]

theorem initProg_documented : ∀ u ∈ initProg hw, u.Documented := by
  have hsetup : ∀ u ∈ setupUOps hw, u.Documented := by
    intro u hu
    obtain ⟨f, hf, hu⟩ := List.mem_flatMap.mp hu
    exact sendUOps_documented (setupFrames_documented hf) f.payload u hu
  have hpulse : ∀ u ∈ pulseUOps hw, u.Documented := by
    unfold pulseUOps
    split <;> simp [UOp.Documented]
  rw [initProg_eq]
  simp only [List.forall_mem_append, List.forall_mem_cons]
  exact ⟨hpulse, by simp [UOp.Documented, commandBytes], trivial, hsetup, trivial, trivial, nofun⟩

theorem displayProg_documented : ∀ u ∈ displayProg hw, u.Documented := by
  simp [displayProg, UOp.Documented, commandBytes]

theorem sleepProg_documented : ∀ u ∈ sleepProg hw, u.Documented := by
  unfold sleepProg
  split <;> simp [UOp.Documented, commandBytes]

/-! ### The operations (R80) -/

/-- A level-H operation that went on ran its body on the accepted block. -/
theorem hostOp_next {op : SeqOp} {body : State → State} {s t : State} (h : hostOp op body s = .next t) :
    t = body (accept op s) := by
  unfold hostOp at h
  split at h <;> cases h
  rfl

theorem initBody_documented (s : State) : AppendsDocumented s (initBody hw s) := by
  unfold initBody
  split
  · exact .of_tr rfl
  · exact runProg_documented hw initProg_documented s

theorem displayBody_documented (s : State) : AppendsDocumented s (displayBody hw s) := by
  unfold displayBody
  split
  · exact .of_tr rfl
  · split
    · exact .of_tr rfl
    · exact runProg_documented hw displayProg_documented (capture hw s)

theorem sleepBody_documented (s : State) : AppendsDocumented s (sleepBody hw s) := by
  unfold sleepBody
  split
  · exact .of_tr rfl
  · split
    · exact .of_tr rfl
    · exact runProg_documented hw sleepProg_documented s

/-- No operation but the primitives of level P, which may send any byte, sends an undocumented command byte. -/
theorem exec_documented {i : Instr} {s t : State} (hl : i.level ≠ .micro) (he : exec i s = .next t) :
    AppendsDocumented s t := by
  cases i with
  | init => exact hostOp_next he ▸ initBody_documented (accept .init s)
  | displayFull => exact hostOp_next he ▸ displayBody_documented (accept .display s)
  | sleep => exact hostOp_next he ▸ sleepBody_documented (accept .sleep s)
  | encode =>
    obtain ⟨-, -, rfl⟩ := exec_encode_next he
    exact .of_tr rfl
  | gateSrcVolt => cases he; exact sendAll_documented hw (fun _ => gsv_documented) s
  | swreset | drvOutCtrl | dataEntry | xWindow | yWindow | xCounter | yCounter | writeOld | writeNew | refresh
  | deepSleep => cases he; exact send_documented hw (by simp [commandBytes]) _ s
  | _ => exact absurd rfl hl

/-- Settles O59, from what every operation above the primitives appends to the trace (R74, R80). -/
theorem onlyDocumentedCommandBytes : Obligations.OnlyDocumentedCommandBytes := by
  unfold Obligations.OnlyDocumentedCommandBytes
  intro s t i hl he
  obtain ⟨evs, htr, hdoc⟩ := exec_documented hl he
  refine ⟨evs, htr, fun bytes hsent => ?_⟩
  rcases hsent with hsent | hsent
  · exact hdoc _ hsent
  · exact hdoc _ hsent

end Sys2Proof.Machine
end

section
/-!
PROOFS. The transport primitives one at a time (R100 to R109, R111): the bits of a byte on the wire, the bus transaction
in both its outcomes, the writes of the lines, the sample and the busy wait.
-/

namespace Sys2Proof.Machine

/-! ### Bytes on the wire (R100) -/

/-- Settles O12: per bit one rising edge, with the bit set up before it, and the clock low after (R100, D17). -/
theorem byteShiftedMsbFirst : Obligations.ByteShiftedMsbFirst := fun _ => ⟨rfl, fun _ => rfl⟩

/-- After the last byte `MOSI` is at its bit 0 and the clock is low, whatever was shifted before (R100). -/
theorem shiftPins_concat (bytes : List Byte) (v : Byte) (p : Bool × Bool) :
    shiftPins (bytes ++ [v]) p = (v.getLsbD 0, false) :=
  List.foldl_append

/-- The pins after a transaction that completes (R100, R101). -/
theorem spiTxn_pins {bytes : List Byte} {v : Byte} {s : State} (h : failNow s = false)
    (hv : bytes.getLast? = some v) : (spiTxn bytes s).mosi = v.getLsbD 0 ∧ (spiTxn bytes s).sclk = false := by
  obtain ⟨bytes, rfl⟩ := List.getLast?_eq_some_iff.mp hv
  simp [spiTxn_completes _ h, shiftPins_concat]

/-! ### The bus transaction (R101) and the command byte (R107) -/

theorem txnLengthOk_iff (m : Nat) (bytes : List Byte) :
    txnLengthOk m bytes = true ↔ 1 ≤ bytes.length ∧ bytes.length ≤ m := by
  simp only [txnLengthOk, Bool.and_eq_true, decide_eq_true_eq]

/-- `SPI_TXN` runs for 1 to 4096 bytes and is refused for any other number (R101; D14, log entry 7). -/
theorem exec_spiTxn (bytes : List Byte) (s : State) : exec (.spiTxn bytes) s =
    if 1 ≤ bytes.length ∧ bytes.length ≤ 4096 then .next (spiTxn bytes s) else .refused .txnLength := by
  simp only [exec, execSpiTxn, txnLengthOk_iff, hw_maxChunk]

/-- Settles O13: the length check, and behind it the two answers of `draw_fail()` (R100, R101; D14, D16 to D18). -/
theorem spiTransaction : Obligations.SpiTransaction := by
  unfold Obligations.SpiTransaction
  intro bytes s
  refine ⟨fun hlen => ?_, fun hlen => by rw [exec_spiTxn, if_neg hlen]⟩
  have hbus := spiTxn_busOnly bytes s
  refine ⟨spiTxn bytes s, by rw [exec_spiTxn, if_pos hlen], hbus.keeps, spiTxn_dc bytes s, hbus.pwr, hbus.rst,
    spiTxn_elapsed bytes s, spiTxn_seq bytes s, spiTxn_cs bytes s, fun hok => ?_, fun hfail => ?_⟩
  · have hv := List.getLast?_eq_some_getLast (List.ne_nil_of_length_pos hlen.1)
    obtain ⟨hmosi, hsclk⟩ := spiTxn_pins hok hv
    exact ⟨by simp [spiTxn_tr, txnEvent, hok], by simp [spiTxn_ret, hok], hsclk, by simp [hv, hmosi]⟩
  · exact ⟨by simp [spiTxn_tr, txnEvent, hfail], by simp [spiTxn_ret, hfail]⟩

/-- Settles O17: `DC` low, then the transaction of one byte (R107; D16, D17). -/
theorem writeCommand : Obligations.WriteCommand := by
  unfold Obligations.WriteCommand
  intro code s
  have hbus := writeCmd_busOnly code s
  refine ⟨rfl, writeCmd code s, rfl, hbus.keeps, hbus.pwr, hbus.rst, writeCmd_dc code s, spiTxn_cs [code] _,
    writeCmd_elapsed code s, writeCmd_seq code s, writeCmd_busyIn code s, fun hok => ?_, fun hfail => ?_⟩
  · obtain ⟨hmosi, hsclk⟩ := spiTxn_pins (bytes := [code]) (v := code) (s := setDc false s) hok rfl
    exact ⟨by simp [writeCmd_tr, hok], by simp [writeCmd_ret, hok], hsclk, hmosi⟩
  · exact ⟨by simp [writeCmd_tr, hfail], by simp [writeCmd_ret, hfail]⟩

/-! ### Lines, delays, samples (R102 to R106) -/

/-- Settles O14: the next state is written out in the meaning (R102, D18). -/
theorem setDcWrites : Obligations.SetDcWrites := fun _ _ => ⟨rfl, rfl⟩

/-- Settles O15: the next states are written out in the meanings (R104, R105, R106, D18). -/
theorem lineControlAndDelay : Obligations.LineControlAndDelay := fun _ _ _ => ⟨rfl, rfl, rfl⟩

/-- Settles O16: the answer of `draw_busy()` is returned and recorded, and the frame of a sample holds (R103, R26). -/
theorem readBusySamples : Obligations.ReadBusySamples := by
  unfold Obligations.ReadBusySamples
  intro s
  obtain ⟨hdc, hcs, hsclk, hmosi, hfailIn⟩ := (readBusy_frame s).pins (.inl rfl)
  exact ⟨rfl, readBusy s, rfl, readBusy_tr s, readBusy_ret s, fun b rest hb => ⟨busyNow_cons hb, by simp [hb]⟩,
    (readBusy_frame s).keeps, rfl, rfl, hdc, hcs, hsclk, hmosi, readBusy_seq s, readBusy_elapsed s, hfailIn⟩

/-! ### A chunk that fails (R108) -/

/-- What `WRITE_DATA` of `b` in chunks of `c.maxChunk` does when chunk `n` fails. -/
theorem writeData_fails {c : Cfg} {b : List Byte} {s : State} {n : Nat} (hn : n < chunkCount c.maxChunk b.length)
    (h : FailsAt n s) :
    (writeData c b s).ret = .busError (n * c.maxChunk) ∧ (writeData c b s).tr = s.tr ++ .pin .dc true ::
      (List.range n).map (fun k => Event.txn true ((b.drop (k * c.maxChunk)).take c.maxChunk)) ++
      [.txnFail true ((b.drop (n * c.maxChunk)).take c.maxChunk)] := by
  obtain ⟨rest, h⟩ := h
  obtain ⟨hret, htr, -⟩ := writeData_failsAt c b hn h
  rw [chunks_take (Nat.le_of_lt hn), List.map_map] at htr
  exact ⟨hret, htr⟩

/-- Settles O19: the chunks before the failing one are sent, and none after it (R108, D15). -/
theorem writeDataFails : Obligations.WriteDataFails := by
  unfold Obligations.WriteDataFails
  constructor
  · intro c b s n _ hn h
    obtain ⟨hret, htr⟩ := writeData_fails hn h
    exact ⟨_, rfl, hret, writeData_dc c b s, (writeData_busOnly c b s).keeps, htr⟩
  · intro src s n hn h
    obtain ⟨hret, htr⟩ := writeData_fails (c := hw) hn h
    have hend := (writeData_busOnly hw (sourceBytes hw s src) s).trans (endData_busOnly _)
    exact ⟨_, rfl, hret, writeData_dc hw _ s, hend.keeps, hend.pwr, hend.rst, htr⟩

/-! ### The busy wait (R109) -/

/-- Settles O21, from the poll loop under a script of ones and a zero (R109, D13). -/
theorem waitBusyClears : Obligations.WaitBusyClears := by
  unfold Obligations.WaitBusyClears
  intro timeout s n ⟨_, hbusy⟩ htime
  obtain ⟨hret, htr, helapsed, -⟩ := waitBusy_clears hw hw_poll_pos hbusy htime
  have hbus := waitBusy_busOnly hw timeout s
  exact ⟨_, rfl, hret, helapsed, hbus.keeps, hbus.pwr, hbus.rst, waitBusy_dc hw timeout s, waitBusy_cs hw timeout s,
    waitBusy_failIn hw timeout s, htr⟩

/-- Settles O22, from the poll loop under a script of ones (R109, D13). -/
theorem waitBusyTimesOut : Obligations.WaitBusyTimesOut := by
  unfold Obligations.WaitBusyTimesOut
  intro timeout s hbusy
  obtain ⟨hret, htr, helapsed⟩ := waitBusy_stuck hbusy
  exact ⟨_, rfl, hret, helapsed, (waitBusy_busOnly hw timeout s).keeps, waitBusy_failIn hw timeout s, htr⟩

/-- Settles O23, from the poll loop under any answers (R109, R241; D13). -/
theorem waitBusyBounded : Obligations.WaitBusyBounded := by
  unfold Obligations.WaitBusyBounded
  intro timeout s
  obtain ⟨n, hn, -, hend⟩ := waitBusy_bounded hw hw_poll_pos timeout s
  exact ⟨_, n, rfl, hn, hend⟩

/-! ### Which primitives fail (R111) -/

/-- A transaction answers `Ok` or `BusError` (R101). -/
theorem spiTxn_ret_cases (bytes : List Byte) (s : State) :
    (spiTxn bytes s).ret = .ok ∨ ∃ off, (spiTxn bytes s).ret = .busError off := by
  rw [spiTxn_ret]
  split
  · exact .inr ⟨0, rfl⟩
  · exact .inl rfl

/-- Settles O24, by the answer of each primitive (R111, D18). -/
theorem whichPrimitivesFail : Obligations.WhichPrimitivesFail := by
  unfold Obligations.WhichPrimitivesFail
  refine fun s t => ⟨fun bytes he => ?_, fun code he => ?_, fun src he => ?_, fun timeout he => ?_,
    fun l he => by cases he; rfl, fun l he => by cases he; rfl, fun l he => by cases he; rfl,
    fun d he => by cases he; rfl, fun he => ?_⟩
  · rw [exec_spiTxn] at he
    split at he
    · cases he
      exact spiTxn_ret_cases bytes s
    · cases he
  · cases he
    exact spiTxn_ret_cases [code] (setDc false s)
  · cases he
    exact (writeData_ret hw (sourceBytes hw s src) s).imp_right fun ⟨_, _, h⟩ => ⟨_, h⟩
  · cases he
    exact waitBusy_ret hw timeout s
  · cases he
    exact ⟨busyNow s, readBusy_ret s⟩

end Sys2Proof.Machine
end

section
/-!
PROOFS. The panel operations on a busy line that never clears (R109, R192, R196): the micro-program is cut off at its
busy wait, and the operation ends with the timeout of its phase.
-/

namespace Sys2Proof.Machine

/-- A script of `draw_busy()` that stays at 1 is read from `busyIn` alone (R26). -/
theorem StaysBusy.of_eq {n : Nat} {s t : State} (h : StaysBusy n s) (ht : t.busyIn = s.busyIn) : StaysBusy n t := by
  simpa [StaysBusy, ht] using h

/-- A timeout inside `INIT` (R196). -/
theorem abort_init_timeout {s : State} (h : s.seq.op = .init) :
    abort .timeout s = deliver (.err (.initFailed .timeout)) { s with st := .uninitialized } := by
  simp [abort, h]

/-- A timeout inside `DISPLAY_FULL` (R196). -/
theorem abort_display_timeout {s : State} (h : s.seq.op = .display) :
    abort .timeout s = deliver (.err .refreshTimeout) { s with st := .awake } := by
  simp [abort, h]

/-! ### `INIT` (R150) -/

/-- Settles O30: the pulse and the soft reset are sent, and the busy wait behind them aborts (R109, R150, R192, R196;
D7, D13, D22). -/
theorem initTimesOut : Obligations.InitTimesOut := by
  unfold Obligations.InitTimesOut
  intro s h hst hfail hbusy
  obtain ⟨p, hp, ep⟩ := runProg_pulse
    (.writeCmd hw.cSwreset :: .waitBusy hw.tInitBusy :: (setupUOps hw ++ [.setSt .awake, .ret .ok]))
    (s := accept .init s) (by simp)
  have hop : p.seq.op = .init := hp.op
  have hnow := (hfail.of_eq hp.failIn).first le_rfl
  have hreset := (writeCmd_sent (code := hw.cSwreset) hnow).1.advance
  obtain ⟨t, hwait, et⟩ := runProg_waitStuck (setupUOps hw ++ [.setSt .awake, .ret .ok])
    (.inl (hreset.along.op.trans hop)) (hbusy.of_eq (hreset.busyIn.trans hp.busyIn))
  have ha := hreset.along.trans hwait
  refine ⟨deliver (.err (.initFailed .timeout)) { t with st := .uninitialized }, ?_, deliver_delivered _ _, rfl,
    ha.rst.trans hp.rst, ha.pwr.trans hp.pwr, ?_⟩
  · rw [exec_init h hst, initProg_eq, ep, runProg_writeCmd _ (by simp [hop]) hnow, et,
      abort_init_timeout (ha.op.trans hop)]
  · have htr := (hp.run.trans ha.run).tr
    simpa [sendEvents_eq] using htr

/-! ### `DISPLAY_FULL` (R152) -/

/-- The two data passes and the refresh command of `DISPLAY_FULL`, nothing failing, whatever its busy wait then meets
(R151). -/
theorem runProg_displayFrames {s : State} (rest : List UOp) (hfail : NoFail 27 s) :
    ∃ t, Sent (displayStart s) (displayEvents hw (Memory.readRange s.bmp 0 48000)) 27 t ∧
      runProg hw (displayBus ++ rest) (displayStart s) = runProg hw (.waitBusy hw.tRefresh :: rest) t := by
  have hstart : NoFail (13 + 14) (displayStart s) := hfail
  obtain ⟨o, hold, eo⟩ := runProg_pass (cmd := hw.cOld) (src := .bmpInv) (s := displayStart s)
    (.writeCmd hw.cNew :: .writeData .bmp :: .writeCmd hw.cRefresh :: .waitBusy hw.tRefresh :: rest)
    (by simp [displayStart]) (hstart.mono (by omega)) rfl
  have hopo : o.seq.op ≠ .idle := by simp [hold.along.op, displayStart]
  have hmiddle : NoFail (13 + 1) o := hstart.drop hold.failIn
  obtain ⟨w, hnew, ew⟩ := runProg_pass (cmd := hw.cNew) (src := .bmp) (s := o)
    (.writeCmd hw.cRefresh :: .waitBusy hw.tRefresh :: rest) hopo (hmiddle.mono (by omega)) rfl
  have hopw : w.seq.op ≠ .idle := by simpa [hnew.along.op] using hopo
  have hnow : failNow w = false := (hmiddle.drop hnew.failIn).first le_rfl
  have hall := (hold.trans hnew).trans (writeCmd_sent (code := hw.cRefresh) hnow).1.advance
  have hbmp : sourceBytes hw (displayStart s) .bmp = Memory.readRange s.bmp 0 48000 := latchBytes_displayStart s
  have hinv : sourceBytes hw (displayStart s) .bmpInv = (Memory.readRange s.bmp 0 48000).map (fun v => ~~~v) :=
    congrArg (List.map (fun v => ~~~v)) hbmp
  rw [sourceBytes_congr hold.along.latch, hbmp, hinv, ← displayEvents_eq] at hall
  exact ⟨_, hall, eo.trans (ew.trans (runProg_writeCmd _ hopw hnow))⟩

/-- Settles O37: the three frames are sent, and the busy wait behind them aborts (R109, R152, R192, R196; D6, D13,
D14). -/
theorem displayRefreshTimesOut : Obligations.DisplayRefreshTimesOut := by
  unfold Obligations.DisplayRefreshTimesOut
  intro s h hst hlen hfail hbusy
  obtain ⟨w, hsent, ew⟩ := runProg_displayFrames [.setSt .awake, .ret .ok] hfail
  have hop : w.seq.op = .display := hsent.along.op
  obtain ⟨t, hwait, et⟩ := runProg_waitStuck [.setSt .awake, .ret .ok] (.inr (.inl hop))
    (hbusy.of_eq hsent.busyIn)
  refine ⟨deliver (.err .refreshTimeout) { t with st := .awake }, ?_, deliver_delivered _ _, rfl, ?_⟩
  · rw [exec_display h hst hlen, ew, et, abort_display_timeout (hwait.op.trans hop)]
  · have htr := (hsent.along.run.trans hwait.run).tr
    rw [← List.append_assoc] at htr
    exact htr

end Sys2Proof.Machine
end

section
/-!
PROOFS. The wire commands at `exec` (R130 to R142): which frame each of them sends, sent whole and cut off at a failing
transaction.
-/

namespace Sys2Proof.Machine

/-! ### Which frame each wire command sends -/

/-- Each wire command but `GATE_SRC_VOLT`, with its byte and its parameters (R74, R131, R132, R134 to R142). -/
def wireTable (s : State) : List (Instr × Byte × List Byte) :=
  [(.swreset, 0x12, []), (.drvOutCtrl, 0x01, hw.pDoc), (.dataEntry, 0x11, hw.pDem), (.xWindow, 0x44, hw.pXwin),
    (.yWindow, 0x45, hw.pYwin), (.xCounter, 0x4E, hw.pXcnt), (.yCounter, 0x4F, hw.pYcnt),
    (.writeOld, 0x10, (latchBytes hw s).map (fun v => ~~~v)), (.writeNew, 0x13, latchBytes hw s),
    (.refresh, 0x12, []), (.deepSleep, 0x10, [0x01])]

/-- A wire command is the `SEND` of its row of the table (R130). -/
theorem exec_wireTable {s : State} {i : Instr} {cmd : Byte} {p : List Byte} (h : (i, cmd, p) ∈ wireTable s) :
    exec i s = .next (send hw cmd p s) := by
  have hall : ∀ row ∈ wireTable s, exec row.1 s = .next (send hw row.2.1 row.2.2 s) := by
    simp only [wireTable, List.forall_mem_cons]
    exact ⟨rfl, rfl, rfl, rfl, rfl, rfl, rfl, rfl, rfl, rfl, rfl, nofun⟩
  exact hall _ h

theorem exec_gateSrcVolt (s : State) : exec .gateSrcVolt s = .next (sendAll hw hw.gsv s) := rfl

/-! ### Nothing failing (R130, R133) -/

/-- `DC` after a `SEND` whose command byte was sent: 1 behind a data part, else 0 (R130; D21). -/
theorem send_dc {cmd : Byte} (p : List Byte) {s : State} (h : failNow s = false) :
    (send hw cmd p s).dc = true ↔ p ≠ [] := by
  have hret := (writeCmd_sent (code := cmd) h).2
  by_cases hp : p = []
  · simp [send, hret, hp]
  · have e : send hw cmd p s = endData (writeData hw p (writeCmd cmd s)) := by simp [send, hret, hp]
    rw [e]
    exact iff_of_true (writeData_dc hw p (writeCmd cmd s)) hp

/-- Settles O26: each is a `SEND`, which sends its frame whole (R130 to R132, R134 to R142; D14, D15, D21). -/
theorem wireCommandsComplete : Obligations.WireCommandsComplete := by
  unfold Obligations.WireCommandsComplete
  intro s i cmd p hrow hfail
  have hcount : NoFail (txnCount (sendEvents hw cmd p)) s := by rwa [txnCount_sendEvents]
  obtain ⟨hsent, hret⟩ := send_sent hcount
  have hbus := send_busOnly hw cmd p s
  exact ⟨_, exec_wireTable hrow, hret, hsent.along.run.tr, send_dc p (hfail.first (Nat.le_add_right _ _)), hbus.keeps,
    hbus.pwr, hbus.rst⟩

/-- Settles O27: the loop sends the frame of each element (R130, R133; D14, D15, D21). -/
theorem gateSourceVoltageCompletes : Obligations.GateSourceVoltageCompletes := by
  unfold Obligations.GateSourceVoltageCompletes
  intro s hfail
  obtain ⟨hsent, hret⟩ := sendAll_sent hfail
  have hbus := sendAll_busOnly hw hw.gsv s
  exact ⟨_, exec_gateSrcVolt s, hret, hsent.along.run.tr, hbus.keeps, hbus.pwr, hbus.rst⟩

/-! ### A failing transaction (R130, R133, R139, R140) -/

/-- `GATE_SRC_VOLT` whose first command byte fails (R133; log entry 28). -/
theorem exec_gateSrcVolt_commandFails {s : State} (h : failNow s = true) :
    exec .gateSrcVolt s = .next (writeCmd Config.gsvHead.cmd s) := by
  have hsend : send hw Config.gsvHead.cmd Config.gsvHead.params s = writeCmd Config.gsvHead.cmd s := send_fails h
  have hret : (send hw Config.gsvHead.cmd Config.gsvHead.params s).ret = .busError 0 := by
    simp [hsend, writeCmd_ret, h]
  rw [exec_gateSrcVolt, show hw.gsv = Config.gsvHead :: Config.gsvTail from rfl, sendAll_stops hret, hsend]

/-- A wire command whose first command byte fails sends nothing else (R130, R133). -/
theorem exec_wire_commandFails {s : State} {i : Instr} {cmd : Byte} (h : failNow s = true)
    (hrow : (i, cmd) = (.gateSrcVolt, Config.gsvHead.cmd) ∨
      (i, cmd) ∈ (wireTable s).map (fun row => (row.1, row.2.1))) :
    exec i s = .next (writeCmd cmd s) := by
  rcases hrow with hgate | hwire
  · cases hgate
    exact exec_gateSrcVolt_commandFails h
  · obtain ⟨row, hmem, hrow⟩ := List.mem_map.mp hwire
    cases hrow
    rw [exec_wireTable hmem, send_fails h]

/-- `GATE_SRC_VOLT` that stops at an element, the ones before it sent whole (R133). -/
theorem exec_gateSrcVolt_stops {s : State} {pre post : List GsvEntry} {g : GsvEntry} {off : Nat}
    (hgsv : hw.gsv = pre ++ g :: post) (hpre : (sendAll hw pre s).ret = .ok)
    (hg : (send hw g.cmd g.params (sendAll hw pre s)).ret = .busError off) :
    exec .gateSrcVolt s = .next (send hw g.cmd g.params (sendAll hw pre s)) := by
  rw [exec_gateSrcVolt, hgsv, sendAll_append hpre, sendAll_stops hg]

/-- Settles O28: the `SEND` is cut off at its command byte or in its data, and the loop at the element that fails (R130,
R133, R139, R140; D14, D15, D21). -/
theorem wireCommandByteFails : Obligations.WireCommandByteFails := by
  unfold Obligations.WireCommandByteFails
  refine ⟨fun s i cmd hrow hnow => ?_, fun s i cmd p n hrow hn hfail => ?_, fun s pre g post hgsv => ?_⟩
  · have hcases : (i, cmd) = (.gateSrcVolt, Config.gsvHead.cmd) ∨
        (i, cmd) ∈ (wireTable s).map (fun row => (row.1, row.2.1)) := by
      simp only [wireTable, List.map_cons, List.map_nil, List.mem_cons] at hrow ⊢
      tauto
    exact ⟨_, exec_wire_commandFails hnow hcases, by simp [writeCmd_ret, hnow], writeCmd_dc cmd s,
      (writeCmd_busOnly cmd s).keeps, by simp [writeCmd_tr, hnow]⟩
  · have hmem : (i, cmd, p) ∈ wireTable s := by
      simp only [wireTable, List.mem_cons] at hrow ⊢
      tauto
    obtain ⟨hret, hdc, htr⟩ := send_dataFails (cmd := cmd) hn hfail
    have hbus := send_busOnly hw cmd p s
    exact ⟨_, exec_wireTable hmem, hret, hdc, hbus.keeps, hbus.pwr, hbus.rst, htr⟩
  · have hbus := (sendAll_busOnly hw pre s).trans (send_busOnly hw g.cmd g.params (sendAll hw pre s))
    refine ⟨fun hfail => ?_, fun n hn hfail => ?_⟩
    · obtain ⟨hsent, hok⟩ := sendAll_sent hfail.noFail
      obtain ⟨hret, hdc, htr⟩ := send_commandFails (cmd := g.cmd) (p := g.params) (hfail.drop hsent.failIn)
      rw [hsent.along.run.tr] at htr
      exact ⟨_, exec_gateSrcVolt_stops hgsv hok hret, hret, hdc, hbus.keeps, hbus.pwr, hbus.rst, htr⟩
    · obtain ⟨hsent, hok⟩ := sendAll_sent (hfail.noFail.mono (Nat.le_add_right _ _))
      obtain ⟨hret, hdc, htr⟩ := send_dataFails (cmd := g.cmd) hn (hfail.drop hsent.failIn)
      rw [hsent.along.run.tr] at htr
      exact ⟨_, exec_gateSrcVolt_stops hgsv hok hret, hret, hdc, hbus.keeps, hbus.pwr, hbus.rst, htr⟩

end Sys2Proof.Machine
end

section
/-!
PROOFS. The panel operations with nothing failing, whatever the environment answers, and one micro-operation at a time
(R148 to R150, R153 to R155).
-/

namespace Sys2Proof.Machine

/-! ### Acceptance (R155, R238) -/

/-- Settles O43: every level-H meaning asks first whether the sequencer is idle (R155, R238; D31, log entry 3). -/
theorem hostOperationsRefusedWhileBusy : Obligations.HostOperationsRefusedWhileBusy := by
  unfold Obligations.HostOperationsRefusedWhileBusy
  intro s i hl hop
  cases i with
  | init => exact if_neg hop
  | displayFull => exact if_neg hop
  | sleep => exact if_neg hop
  | encode => exact if_neg hop
  | _ => cases hl

/-! ### The two grains of a micro-program (R148) -/

/-- A micro-program run one step at a time from its start is the program run whole (R148). -/
theorem run_microProgram {s : State} (h : s.seq.op.Programmed) (hstep : s.seq.step = 0) :
    ∃ k, Host.Core.run Sys2Proof.core k s = .next (runProg hw (microProgram hw s.seq.op) s) := by
  obtain ⟨us, e, -⟩ := microProgram_ends h
  obtain ⟨k, hk⟩ := run_runProg [] us .ok s h e hstep
  exact ⟨k, by rw [hk, e]⟩

/-- `DISPLAY_FULL` behind its entry checks runs its program on the captured bitmap (R152). -/
theorem exec_display_program {s : State} (h : s.seq.op = .idle) (hst : s.st = .awake) (hlen : s.bmpLen = 48000) :
    exec .displayFull s = .next (runProg hw (displayProg hw) (capture hw (accept .display s))) := by
  have hop : (capture hw (accept .display s)).seq.op ≠ .idle := nofun
  rw [exec_display h hst hlen, displayProg, runProg_setSt hop]
  rfl

/-- Settles O57: behind acceptance, checks and capture an operation is its micro-program (R148; D24, log entries 1, 27,
30). -/
theorem microStepsMakeTheOperation : Obligations.MicroStepsMakeTheOperation := by
  unfold Obligations.MicroStepsMakeTheOperation
  refine fun s h => ⟨fun hst => ?_, fun hst hlen => ?_, fun hst => ?_⟩
  · rw [exec_init h hst]
    exact run_microProgram (s := accept .init s) (.inl rfl) rfl
  · rw [exec_display_program h hst hlen]
    exact run_microProgram (s := capture hw (accept .display s)) (.inr (.inl rfl)) rfl
  · rw [exec_sleep h hst]
    exact run_microProgram (s := accept .sleep s) (.inr (.inr rfl)) rfl

/-! ### The power and reset lines of `INIT` (R150, R202) -/

/-- The micro-operations that write neither the power nor the reset line (R104, R105). -/
def UOp.leavesLines : UOp → Bool
  | .setPwr _ | .setRst _ => false
  | .writeCmd _ | .writeData _ | .waitBusy _ | .delay _ | .setSt _ | .ret _ => true

theorem UOp.leavesLines_of_usesBus {u : UOp} (h : u.usesBus = true) : u.leavesLines = true := by
  cases u <;> simp_all [UOp.usesBus, UOp.leavesLines]

/-- An abort makes no clean-up of the lines (R202, D22). -/
theorem abort_lines (cause : Ret) (s : State) : (abort cause s).pwr = s.pwr ∧ (abort cause s).rst = s.rst := by
  unfold abort
  split <;> exact ⟨rfl, rfl⟩

theorem uopStep_lines {u : UOp} (hu : u.leavesLines = true) (s : State) :
    (uopStep hw u s).pwr = s.pwr ∧ (uopStep hw u s).rst = s.rst := by
  cases hbus : u.usesBus
  · cases u with
    | setSt p => exact ⟨rfl, rfl⟩
    | ret r => exact ⟨rfl, rfl⟩
    | setPwr l | setRst l => cases hu
    | writeCmd | writeData | waitBusy | delay => cases hbus
  · obtain ⟨t, evs, ha, -, -, e | ⟨cause, -, e⟩⟩ := uopStep_bus hbus s
    · rw [e]
      exact ⟨ha.pwr, ha.rst⟩
    · obtain ⟨hpwr, hrst⟩ := abort_lines cause t
      rw [e]
      exact ⟨hpwr.trans ha.pwr, hrst.trans ha.rst⟩

theorem runProg_lines {us : List UOp} (hus : ∀ u ∈ us, u.leavesLines = true) (s : State) :
    (runProg hw us s).pwr = s.pwr ∧ (runProg hw us s).rst = s.rst := by
  induction us generalizing s with
  | nil => exact ⟨rfl, rfl⟩
  | cons u us ih =>
    obtain ⟨hu, hus⟩ := List.forall_mem_cons.mp hus
    have hstep := uopStep_lines hu s
    simp only [runProg]
    split
    · exact hstep
    · obtain ⟨hpwr, hrst⟩ := ih hus (uopStep hw u s)
      exact ⟨hpwr.trans hstep.1, hrst.trans hstep.2⟩

/-- However `INIT_PROG` ends, it leaves the lines as its pulse left them (R149, R202). -/
theorem initProg_lines {s : State} (hop : s.seq.op ≠ .idle) :
    (runProg hw (initProg hw) s).pwr = (if hw.hasPwr then true else s.pwr) ∧
      (runProg hw (initProg hw) s).rst = true := by
  have hrest : ∀ u ∈ .writeCmd hw.cSwreset :: .waitBusy hw.tInitBusy :: (setupUOps hw ++ [.setSt .awake, .ret .ok]),
      u.leavesLines = true := by
    simp only [List.forall_mem_cons, List.forall_mem_append]
    exact ⟨rfl, rfl, fun u hu => UOp.leavesLines_of_usesBus (setupUOps_usesBus hw u hu), rfl, rfl, nofun⟩
  obtain ⟨p, hp, e⟩ := runProg_pulse
    (.writeCmd hw.cSwreset :: .waitBusy hw.tInitBusy :: (setupUOps hw ++ [.setSt .awake, .ret .ok])) hop
  obtain ⟨hpwr, hrst⟩ := runProg_lines hrest p
  rw [initProg_eq, e]
  exact ⟨hpwr.trans hp.pwr, hrst.trans hp.rst⟩

/-! ### `INIT` (R149, R150) -/

/-- Settles O29: the pulse, the soft reset, the busy wait and the setup commands, then the end of the program (R149,
R150; D7, D10, D11, D13, D14). -/
theorem initCompletes : Obligations.InitCompletes := by
  unfold Obligations.InitCompletes
  exact fun _ _ => exec_init_completes

/-- Settles O32: how the program can end, and the lines its pulse set (R150, R202; D7, D22). -/
theorem initOutcomes : Obligations.InitOutcomes := by
  unfold Obligations.InitOutcomes
  intro s h hst
  have he := exec_init h hst
  obtain ⟨hpwr, hrst⟩ := initProg_lines (s := accept .init s) nofun
  obtain ⟨r, hend, hlatch, ⟨hawake, -⟩ | ⟨-, hr⟩⟩ := exec_init_cases he
  · exact absurd hawake hst
  · have hoffset : r.offset = 0 := by rcases hr with ⟨rfl, -⟩ | ⟨⟨c, rfl⟩, -⟩ <;> rfl
    exact ⟨_, r, he, hend.delivered, hr.imp_right fun ⟨⟨c, hc⟩, hst'⟩ => ⟨c, hc, hst'⟩,
      hend.delivered.offset.trans hoffset, hrst, fun hp => hpwr.trans (if_pos hp), hend.keeps, hlatch⟩

/-! ### `SLEEP` (R153, R154) -/

/-- `SLEEP_PROG` is the deep-sleep frame, the settle delay, and the end that cannot fail (R153). -/
theorem sleepProg_eq_send :
    sleepProg hw = sendUOps hw.cDsleep hw.pDsleep ++ .delay hw.tSleepSettle :: sleepTail := by
  simp [sleepProg, sleepTail, sendUOps]

/-- Settles O39: deep sleep, settle delay, power low where the line exists, `Asleep` (R153, R154; D10). -/
theorem sleepCompletes : Obligations.SleepCompletes := by
  unfold Obligations.SleepCompletes
  intro s h hst hfail
  have hfail' : NoFail (txnCount (sendEvents hw hw.cDsleep hw.pDsleep)) (accept .sleep s) := hfail
  obtain ⟨t, hsent, et⟩ := runProg_send (.delay hw.tSleepSettle :: sleepTail) (by simp) hfail'
  have hop : t.seq.op ≠ .idle := by simp [hsent.along.op]
  have hdelay := (Along.of_bus (delay_run hw.tSleepSettle t) (delay_busOnly _ t)).advance
  obtain ⟨u, eu, hrun, hkeeps, hst', hlatch, hpwr, hrst, helapsed⟩ :=
    runProg_sleepTail (s := advance (delay hw.tSleepSettle t)) hop
  have ha := hsent.along.trans hdelay
  refine ⟨deliver .ok u, ?_, deliver_delivered _ _, hst', ?_, ?_, hrst.trans ha.rst, ?_, hlatch.trans ha.latch,
    helapsed.trans hsent.elapsed⟩
  · rw [exec_sleep h hst, sleepProg_eq_send, et, runProg_delay _ hop, eu]
  · exact (ha.run.trans hrun).tr
  · rw [ha.pwr] at hpwr
    exact hpwr
  · exact ((accept_keeps .sleep s).trans ha.keeps).trans (hkeeps.trans (deliver_keeps .ok u))

end Sys2Proof.Machine
end

section
/-!
PROOFS. The panel operations when bus transaction `k` fails (R195, R196): the micro-program is cut off there, what was
sent before is how the whole begins, and the operation ends with the bus error of its phase.
-/

namespace Sys2Proof.Machine

/-! ### A run cut off at a failing transaction (R24, R195) -/

/-- From `s` to `t`, what `whole` begins with was sent up to its transaction `k`, which failed. -/
def CutAt (s : State) (whole : List Event) (k : Nat) (t : State) : Prop :=
  ∃ evs bytes, Along s (evs ++ [.txnFail t.dc bytes]) t ∧ (evs ++ [.txn t.dc bytes]) <+: whole ∧ txnCount evs = k

/-- What would have been sent later does not matter. -/
theorem CutAt.extend {s t : State} {xs : List Event} {k : Nat} (h : CutAt s xs k t) (ys : List Event) :
    CutAt s (xs ++ ys) k t := by
  obtain ⟨evs, bytes, ha, hpre, hk⟩ := h
  exact ⟨evs, bytes, ha, hpre.trans (List.prefix_append xs ys), hk⟩

/-- What was sent whole before is sent first. -/
theorem Along.cutAt {s t u : State} {xs ys : List Event} {n k : Nat} (h : Along s xs t) (hn : txnCount xs = n)
    (hcut : CutAt t ys k u) : CutAt s (xs ++ ys) (n + k) u := by
  obtain ⟨evs, bytes, ha, hpre, hk⟩ := hcut
  refine ⟨xs ++ evs, bytes, ?_, ?_, ?_⟩
  · rw [List.append_assoc]
    exact h.trans ha
  · rw [List.append_assoc]
    exact (List.prefix_append_right_inj xs).mpr hpre
  · rw [txnCount_append, hn, hk]

/-- A script of `draw_fail()` is read from `failIn` alone (R26). -/
theorem FailsAt.of_eq {n : Nat} {s t : State} (h : FailsAt n s) (ht : t.failIn = s.failIn) : FailsAt n t := by
  simpa [FailsAt, ht] using h

/-! ### The two primitives that send (R107, R108) -/

theorem writeCmd_fails_along {code : Byte} {s : State} (h : failNow s = true) :
    Along s [.pin .dc false, .txnFail false [code]] (writeCmd code s) := by
  have hrun := writeCmd_run code s
  rw [txnEvent, if_pos (by exact h)] at hrun
  exact .of_bus hrun (writeCmd_busOnly code s)

theorem writeCmd_cutAt {code : Byte} {s : State} (h : failNow s = true) :
    CutAt s [.pin .dc false, .txn false [code]] 0 (writeCmd code s) := by
  refine ⟨[.pin .dc false], [code], ?_, ?_, rfl⟩ <;> rw [writeCmd_dc]
  · exact writeCmd_fails_along h
  · exact List.prefix_rfl

theorem writeData_fails_along {b : List Byte} {s : State} {k : Nat} (hk : k < chunkCount hw.maxChunk b.length)
    (h : FailsAt k s) :
    Along s (.pin .dc true :: ((chunks hw.maxChunk b).take k).map (Event.txn true) ++
      [.txnFail true (chunk hw.maxChunk k b)]) (writeData hw b s) := by
  obtain ⟨rest, h⟩ := h
  obtain ⟨-, htr, -⟩ := writeData_failsAt hw b hk h
  obtain ⟨evs, hrun, -⟩ := writeData_run b s
  have he := hrun.tr
  rw [htr, List.append_assoc] at he
  rw [List.append_cancel_left he]
  exact .of_bus hrun (writeData_busOnly hw b s)

theorem writeData_cutAt {b : List Byte} {s : State} {k : Nat} (hk : k < chunkCount hw.maxChunk b.length)
    (h : FailsAt k s) : CutAt s (dataEvents hw b) k (writeData hw b s) := by
  have htake : (chunks hw.maxChunk b).take (k + 1) = (chunks hw.maxChunk b).take k ++ [chunk hw.maxChunk k b] := by
    rw [List.take_add_one, chunks_get hk, Option.toList_some]
  have hchunks : (chunks hw.maxChunk b).take k ++ [chunk hw.maxChunk k b] <+: chunks hw.maxChunk b :=
    htake ▸ List.take_prefix (k + 1) _
  have hcount := txnCount_txns true ((chunks hw.maxChunk b).take k)
  rw [List.length_take, chunks_length, Nat.min_eq_left (Nat.le_of_lt hk)] at hcount
  refine ⟨.pin .dc true :: ((chunks hw.maxChunk b).take k).map (Event.txn true), chunk hw.maxChunk k b, ?_, ?_,
    hcount⟩ <;> rw [writeData_dc]
  · exact writeData_fails_along hk h
  · simpa [dataEvents] using hchunks.map (Event.txn true)

/-! ### Micro-programs cut off (R148, R196) -/

/-- A micro-operation that fails ends the program. -/
theorem runProg_aborts {u : UOp} {s t : State} {cause : Ret} (rest : List UOp) (hop : t.seq.op.Programmed)
    (h : uopStep hw u s = abort cause t) : runProg hw (u :: rest) s = abort cause t := by
  rw [runProg_stop (by rw [h, abort_seq cause hop]), h]

theorem runProg_writeCmd_fails {code : Byte} {s : State} (rest : List UOp) (hop : s.seq.op.Programmed)
    (h : failNow s = true) :
    runProg hw (.writeCmd code :: rest) s = abort (.busError 0) (writeCmd code s) :=
  runProg_aborts rest (by simpa using hop) (settle_busError (by simp [writeCmd_ret, h]))

theorem runProg_writeData_fails {src : Src} {s : State} {k : Nat} (rest : List UOp) (hop : s.seq.op.Programmed)
    (hk : k < chunkCount hw.maxChunk (sourceBytes hw s src).length) (h : FailsAt k s) :
    runProg hw (.writeData src :: rest) s =
      abort (.busError (k * hw.maxChunk)) (writeData hw (sourceBytes hw s src) s) :=
  runProg_aborts rest (by rwa [(writeData_busOnly hw _ s).keeps.op]) (settle_busError (writeData_fails hk h).1)

/-- A command byte and its data, transaction `k` of them failing: the offset reached is that of the data (R108, R130). -/
theorem runProg_frame_fails {cmd : Byte} {src : Src} {s : State} {k : Nat} (rest : List UOp)
    (hop : s.seq.op.Programmed) (hk : k < 1 + chunkCount hw.maxChunk (sourceBytes hw s src).length)
    (h : FailsAt k s) :
    ∃ t, CutAt s ([.pin .dc false, .txn false [cmd]] ++ dataEvents hw (sourceBytes hw s src)) k t ∧
      runProg hw (.writeCmd cmd :: .writeData src :: rest) s = abort (.busError ((k - 1) * hw.maxChunk)) t := by
  cases k with
  | zero =>
    refine ⟨_, (writeCmd_cutAt h.now).extend _, ?_⟩
    rw [Nat.zero_sub, Nat.zero_mul]
    exact runProg_writeCmd_fails _ hop h.now
  | succ k =>
    rw [Nat.add_comm k 1] at h hk ⊢
    have hnow := h.noFail.first (Nat.le_add_right 1 k)
    have hcmd := (writeCmd_sent (code := cmd) hnow).1.advance
    have hsrc := sourceBytes_congr hcmd.along.latch hw src
    have hk' : k < chunkCount hw.maxChunk (sourceBytes hw (advance (writeCmd cmd s)) src).length := by
      rw [hsrc]
      omega
    have hdata := h.drop hcmd.failIn
    have hcut := writeData_cutAt hk' hdata
    rw [hsrc] at hcut
    refine ⟨_, hcmd.along.cutAt rfl hcut, ?_⟩
    rw [runProg_writeCmd _ hop.ne_idle hnow, runProg_writeData_fails rest (by rwa [hcmd.along.op]) hk' hdata, hsrc,
      Nat.add_sub_cancel_left]

/-- The micro-operations of a wire command with literal parameters, transaction `k` of them failing (R130). -/
theorem runProg_send_fails {cmd : Byte} {p : List Byte} {s : State} {k : Nat} (rest : List UOp)
    (hop : s.seq.op.Programmed) (hk : k < txnCount (sendEvents hw cmd p)) (h : FailsAt k s) :
    ∃ t off, CutAt s (sendEvents hw cmd p) k t ∧ runProg hw (sendUOps cmd p ++ rest) s = abort (.busError off) t := by
  rw [txnCount_sendEvents] at hk
  by_cases hp : p = []
  · obtain rfl : k = 0 := by
      rw [hp, List.length_nil, chunkCount_zero] at hk
      omega
    refine ⟨writeCmd cmd s, 0, ?_, ?_⟩
    · simpa [sendEvents_eq, hp] using writeCmd_cutAt (code := cmd) h.now
    · simpa [sendUOps, hp] using runProg_writeCmd_fails (code := cmd) rest hop h.now
  · obtain ⟨t, hcut, e⟩ := runProg_frame_fails (cmd := cmd) (src := .lit p) rest hop hk h
    refine ⟨t, (k - 1) * hw.maxChunk, ?_, ?_⟩
    · rwa [sendEvents_eq, if_neg hp]
    · rw [sendUOps, if_neg hp]
      exact e

/-- The micro-operations of a list of such commands, transaction `k` of all of them failing. -/
theorem runProg_sends_fails {fs : List Frame} {s : State} {k : Nat} (rest : List UOp) (hop : s.seq.op.Programmed)
    (hk : k < txnCount (framesEvents hw fs)) (h : FailsAt k s) :
    ∃ t off, CutAt s (framesEvents hw fs) k t ∧
      runProg hw (fs.flatMap (fun f => sendUOps f.cmd f.payload) ++ rest) s = abort (.busError off) t := by
  induction fs generalizing s k with
  | nil => simp [framesEvents, txnCount] at hk
  | cons f fs ih =>
    simp only [framesEvents, List.flatMap_cons, txnCount_append, List.append_assoc] at hk ih ⊢
    by_cases hfirst : k < txnCount (sendEvents hw f.cmd f.payload)
    · obtain ⟨t, off, hcut, e⟩ :=
        runProg_send_fails (fs.flatMap (fun f => sendUOps f.cmd f.payload) ++ rest) hop hfirst h
      exact ⟨t, off, hcut.extend _, e⟩
    · obtain ⟨j, rfl⟩ := Nat.exists_eq_add_of_le (Nat.not_lt.mp hfirst)
      obtain ⟨t, hsent, et⟩ := runProg_send (fs.flatMap (fun f => sendUOps f.cmd f.payload) ++ rest) hop.ne_idle
        (h.noFail.mono (Nat.le_add_right _ j))
      obtain ⟨u, off, hcut, eu⟩ := ih (s := t) (by rwa [hsent.along.op]) (by omega) (h.drop hsent.failIn)
      exact ⟨u, off, hsent.along.cutAt rfl hcut, et.trans eu⟩

/-! ### `INIT` (R150, R195, R196) -/

/-- A bus error inside `INIT` (R196). -/
theorem abort_init_busError (off : Nat) {s : State} (h : s.seq.op = .init) :
    abort (.busError off) s = deliver (.err (.initFailed .busError)) { s with st := .uninitialized } := by
  simp [abort, h]

/-- The bus part of `INIT`, its transaction `k` failing, `BUSY` clear in time if it is reached (R149). -/
theorem runProg_initBus_fails {s : State} {n k : Nat} (rest : List UOp) (hop : s.seq.op.Programmed)
    (hk : k < 1 + txnCount (framesEvents hw (setupFrames hw))) (hfail : FailsAt k s) (hbusy : ClearsAfter n s)
    (htime : clearsInTime hw hw.tInitBusy n) :
    ∃ t off,
      CutAt s (sendEvents hw hw.cSwreset [] ++ clearEvents hw n ++ framesEvents hw (setupFrames hw)) k t ∧
      runProg hw (.writeCmd hw.cSwreset :: .waitBusy hw.tInitBusy :: (setupUOps hw ++ rest)) s =
        abort (.busError off) t := by
  cases k with
  | zero =>
    exact ⟨_, 0, ((writeCmd_cutAt hfail.now).extend _).extend _, runProg_writeCmd_fails _ hop hfail.now⟩
  | succ k =>
    rw [Nat.add_comm k 1] at hfail hk ⊢
    have hnow := hfail.noFail.first (Nat.le_add_right 1 k)
    have hreset := (writeCmd_sent (code := hw.cSwreset) hnow).1.advance
    obtain ⟨w, hwait, hwf, ew⟩ := runProg_waitClears (setupUOps hw ++ rest) (by simpa using hop.ne_idle)
      (hbusy.of_eq hreset.busyIn) htime
    have ha := hreset.along.trans hwait
    obtain ⟨t, off, hcut, et⟩ := runProg_sends_fails (fs := setupFrames hw) rest (by rwa [ha.op]) (by omega)
      (hfail.drop (hwf.trans hreset.failIn))
    refine ⟨t, off, ha.cutAt ?_ hcut, ?_⟩
    · rw [txnCount_append, txnCount_clearEvents]
      rfl
    · rw [runProg_writeCmd _ hop.ne_idle hnow, ew]
      exact et

/-- Settles O31: behind the pulse the program is cut off at transaction `k`, and `INIT` ends with the bus error (R150,
R195, R196; D7, D13, D14, D22). -/
theorem initBusFails : Obligations.InitBusFails := by
  unfold Obligations.InitBusFails
  intro s n k h hst hbusy htime hk hfail
  rw [txnCount_initEvents] at hk
  obtain ⟨p, hp, ep⟩ := runProg_pulse
    (.writeCmd hw.cSwreset :: .waitBusy hw.tInitBusy :: (setupUOps hw ++ [.setSt .awake, .ret .ok]))
    (s := accept .init s) nofun
  have hop : p.seq.op = .init := hp.op
  obtain ⟨t, off, ⟨evs, bytes, ha, hpre, hcount⟩, et⟩ := runProg_initBus_fails [.setSt .awake, .ret .ok] (.inl hop) hk
    (hfail.of_eq hp.failIn) (hbusy.of_eq hp.busyIn) htime
  refine ⟨deliver (.err (.initFailed .busError)) { t with st := .uninitialized }, pulseEvents hw ++ evs, bytes, ?_,
    deliver_delivered _ _, rfl, ha.rst.trans hp.rst, ha.pwr.trans hp.pwr, ?_, ?_, ?_⟩
  · rw [exec_init h hst, initProg_eq, ep, et, abort_init_busError off (ha.op.trans hop)]
  · have htr := (hp.run.trans ha.run).tr
    simpa using htr
  · have hall := (List.prefix_append_right_inj (pulseEvents hw)).mpr hpre
    simpa [initEvents] using hall
  · rw [txnCount_append, txnCount_pulseEvents, hcount, Nat.zero_add]

/-! ### `DISPLAY_FULL` (R152, R195, R196) -/

/-- A bus error inside `DISPLAY_FULL` (R196, D6). -/
theorem abort_display_busError (off : Nat) {s : State} (h : s.seq.op = .display) :
    abort (.busError off) s = deliver (.err (.transferFailed off)) { s with st := .awake } := by
  simp [abort, h]

/-- The offset reached in the failing pass when transaction `k` of `DISPLAY_FULL` fails: 13 transactions a pass, the
first of each its command byte (R195, R201). -/
def displayOffset (k : Nat) : Nat :=
  if 1 ≤ k ∧ k ≤ 12 then (k - 1) * 4096 else if 14 ≤ k ∧ k ≤ 25 then (k - 14) * 4096 else 0

theorem displayOffset_first {k : Nat} (h : k < 13) : displayOffset k = (k - 1) * 4096 := by
  unfold displayOffset
  split_ifs <;> omega

theorem displayOffset_second {k : Nat} (h : k < 13) : displayOffset (13 + k) = (k - 1) * 4096 := by
  unfold displayOffset
  split_ifs <;> omega

/-- The transactions of one pass: the command byte and 12 chunks (R77, R151). -/
theorem chunkCount_pass {src : Src} (h : Src.size hw src = 48000) (s : State) :
    chunkCount hw.maxChunk (sourceBytes hw s src).length = 12 := by
  rw [sourceBytes_length, h]
  rfl

theorem txnCount_pass {src : Src} (h : Src.size hw src = 48000) (cmd : Byte) (s : State) :
    txnCount ([.pin .dc false, .txn false [cmd]] ++ dataEvents hw (sourceBytes hw s src)) = 13 := by
  rw [txnCount_append, txnCount_dataEvents, chunkCount_pass h]
  rfl

/-- The pass of the bitmap and the refresh command, transaction `k` of them failing (R151, R195). -/
theorem runProg_newPass_fails {s : State} {k : Nat} (rest : List UOp) (hop : s.seq.op.Programmed) (hk : k < 14)
    (h : FailsAt k s) :
    ∃ t, CutAt s ([.pin .dc false, .txn false [hw.cNew]] ++ dataEvents hw (sourceBytes hw s .bmp) ++
        [.pin .dc false, .txn false [hw.cRefresh]]) k t ∧
      runProg hw (.writeCmd hw.cNew :: .writeData .bmp :: .writeCmd hw.cRefresh :: rest) s =
        abort (.busError (displayOffset (13 + k))) t := by
  by_cases hpass : k < 13
  · obtain ⟨t, hcut, et⟩ := runProg_frame_fails (cmd := hw.cNew) (src := .bmp) (.writeCmd hw.cRefresh :: rest) hop
      (by rwa [chunkCount_pass rfl]) h
    rw [displayOffset_second hpass]
    exact ⟨t, hcut.extend _, et⟩
  · obtain rfl : k = 13 + 0 := by omega
    obtain ⟨w, hsent, ew⟩ := runProg_pass (cmd := hw.cNew) (src := .bmp) (.writeCmd hw.cRefresh :: rest) hop.ne_idle
      (h.noFail.mono le_rfl) rfl
    have hnow := (h.drop hsent.failIn).now
    exact ⟨_, hsent.along.cutAt (txnCount_pass rfl _ s) (writeCmd_cutAt hnow),
      ew.trans (runProg_writeCmd_fails rest (by rwa [hsent.along.op]) hnow)⟩

/-- The bus part of `DISPLAY_FULL`, its transaction `k` failing: in the pass of the complement, or behind it (R151,
R195). -/
theorem runProg_displayBus_fails {s : State} {k : Nat} (rest : List UOp) (hk : k < 27) (hfail : FailsAt k s) :
    ∃ t, CutAt (displayStart s) (displayEvents hw (Memory.readRange s.bmp 0 48000)) k t ∧
      runProg hw (displayBus ++ rest) (displayStart s) = abort (.busError (displayOffset k)) t := by
  have hstart : FailsAt k (displayStart s) := hfail
  have hop : (displayStart s).seq.op.Programmed := .inr (.inl rfl)
  have hbmp : sourceBytes hw (displayStart s) .bmp = Memory.readRange s.bmp 0 48000 := latchBytes_displayStart s
  have hinv : sourceBytes hw (displayStart s) .bmpInv = (Memory.readRange s.bmp 0 48000).map (fun v => ~~~v) :=
    congrArg (List.map (fun v => ~~~v)) hbmp
  rw [displayEvents_eq, ← hinv, ← hbmp, List.append_assoc]
  by_cases hold : k < 13
  · obtain ⟨t, hcut, et⟩ := runProg_frame_fails (cmd := hw.cOld) (src := .bmpInv)
      (.writeCmd hw.cNew :: .writeData .bmp :: .writeCmd hw.cRefresh :: .waitBusy hw.tRefresh :: rest) hop
      (by rwa [chunkCount_pass rfl]) hstart
    rw [displayOffset_first hold]
    exact ⟨t, hcut.extend _, et⟩
  · obtain ⟨j, rfl⟩ := Nat.exists_eq_add_of_le (Nat.not_lt.mp hold)
    obtain ⟨o, hsent, eo⟩ := runProg_pass (cmd := hw.cOld) (src := .bmpInv) (s := displayStart s)
      (.writeCmd hw.cNew :: .writeData .bmp :: .writeCmd hw.cRefresh :: .waitBusy hw.tRefresh :: rest)
      hop.ne_idle (hstart.noFail.mono (by omega)) rfl
    obtain ⟨t, hcut, et⟩ := runProg_newPass_fails (.waitBusy hw.tRefresh :: rest) (by rwa [hsent.along.op])
      (by omega) (hstart.drop hsent.failIn)
    rw [sourceBytes_congr hsent.along.latch] at hcut
    exact ⟨t, hsent.along.cutAt (txnCount_pass rfl _ (displayStart s)) hcut, eo.trans et⟩

/-- Settles O36: the program is cut off at transaction `k`, and `DISPLAY_FULL` ends with the offset reached there (R152,
R195, R196, R201; D6, D15). -/
theorem displayTransferFails : Obligations.DisplayTransferFails := by
  unfold Obligations.DisplayTransferFails
  intro s k h hst hlen hk hfail
  obtain ⟨t, ⟨evs, bytes, ha, hpre, hcount⟩, et⟩ :=
    runProg_displayBus_fails [.setSt .awake, .ret .ok] hk hfail
  refine ⟨deliver (.err (.transferFailed (displayOffset k))) { t with st := .awake }, evs, bytes, ?_,
    deliver_delivered _ _, rfl, ha.pwr, ha.rst, ?_, hpre, hcount⟩
  · rw [exec_display h hst hlen, et, abort_display_busError _ ha.op]
  · have htr := ha.run.tr
    rw [← List.append_assoc] at htr
    exact htr

/-! ### `SLEEP` (R154, R196) -/

/-- A `SLEEP` whose bus part was cut off is `SleepFailed`: the panel stays `Awake`, the lines as they were (R196; D5). -/
theorem exec_sleep_cut {s t : State} {evs : List Event} {cause : Ret} (h : s.seq.op = .idle) (hst : s.st = .awake)
    (ha : Along (accept .sleep s) evs t) (e : runProg hw (sleepProg hw) (accept .sleep s) = abort cause t) :
    ∃ u, exec .sleep s = .next u ∧ Delivered (.err .sleepFailed) u ∧ u.st = .awake ∧ u.pwr = s.pwr ∧ u.rst = s.rst ∧
      u.tr = s.tr ++ evs :=
  ⟨deliver (.err .sleepFailed) t, by rw [exec_sleep h hst, e, abort_sleep cause ha.op], deliver_delivered _ _,
    ha.st.trans hst, ha.pwr, ha.rst, ha.run.tr⟩

/-- Settles O40: the command byte or the one chunk behind it fails, and the settle delay is not reached (R154, R196;
D5). -/
theorem sleepFails : Obligations.SleepFails := by
  unfold Obligations.SleepFails
  intro s k h hst hk hfail
  have hstart : FailsAt k (accept .sleep s) := hfail
  have hprog : (accept .sleep s).seq.op.Programmed := .inr (.inr rfl)
  obtain rfl | rfl : k = 0 ∨ k = 1 := by omega
  · have hnow := hstart.now
    exact exec_sleep_cut h hst (writeCmd_fails_along hnow) (runProg_writeCmd_fails _ hprog hnow)
  · have hnow := hstart.noFail.first le_rfl
    have hcmd := (writeCmd_sent (code := hw.cDsleep) hnow).1.advance
    have hdata : FailsAt 0 (advance (writeCmd hw.cDsleep (accept .sleep s))) :=
      FailsAt.drop (n := 1) hstart hcmd.failIn
    have hchunk : 0 < chunkCount hw.maxChunk hw.pDsleep.length := by decide
    exact exec_sleep_cut h hst (hcmd.along.trans (writeData_fails_along hchunk hdata))
      ((runProg_writeCmd _ hprog.ne_idle hnow).trans
        (runProg_writeData_fails (src := .lit hw.pDsleep) _ (by rwa [hcmd.along.op]) hchunk hdata))

end Sys2Proof.Machine
end

section
/-!
PROOFS. The stages of `ENCODE` one by one (R171, R173, R174), and what they make of the whole operation: its size, its
inversion and its `require` line (R170, R176).
-/

namespace Sys2Proof.Machine

/-! ### `SCALE8` (R171; D26) -/

theorem channel_sixteen (v : BitVec 16) : channel 16 v = v.toNat := Nat.mod_eq_of_lt v.isLt

theorem channel_eight_of_lt {v : BitVec 16} (h : v.toNat < 256) : channel 8 v = v.toNat := Nat.mod_eq_of_lt h

@[simp] theorem scaleChannel_eight (v : Nat) : scaleChannel 8 v = v := rfl

@[simp] theorem scaleChannel_sixteen (v : Nat) : scaleChannel 16 v = v / 256 := Nat.shiftRight_eq_div_pow v 8

/-- Of a channel of `depth` bits the top eight are left (log entry 11: the bits above `depth` are not read). -/
theorem scaleChannel_channel_lt {depth : Nat} (hdepth : 8 ≤ depth) (v : BitVec 16) :
    scaleChannel depth (channel depth v) < 256 := by
  rw [scaleChannel, Nat.shiftRight_eq_div_pow]
  apply Nat.div_lt_of_lt_mul
  calc channel depth v < 2 ^ depth := Nat.mod_lt _ (Nat.two_pow_pos depth)
    _ = 2 ^ (depth - 8) * 256 := (Nat.pow_sub_mul_pow 2 hdepth).symm

/-- Settles O51: channel by channel, at each of the two depths (R171; D26; log entry 11). -/
theorem scaleEight : Obligations.ScaleEight := by
  unfold Obligations.ScaleEight
  intro p
  refine ⟨?_, fun hr hg hb => ?_, fun d hd => ?_⟩
  · simp only [scale8, channel_sixteen, scaleChannel_sixteen]
  · simp only [scale8, channel_eight_of_lt, hr, hg, hb, scaleChannel_eight]
  · have hdepth : 8 ≤ d := by omega
    exact ⟨scaleChannel_channel_lt hdepth _, scaleChannel_channel_lt hdepth _, scaleChannel_channel_lt hdepth _⟩

/-! ### `LUMA` (R173; D25) -/

/-- The weights add up to 1000. -/
theorem weighted_le {p : Rgb} (hr : p.r ≤ 255) (hg : p.g ≤ 255) (hb : p.b ≤ 255) :
    299 * p.r + 587 * p.g + 114 * p.b ≤ 255000 := by omega

theorem luma_le {p : Rgb} (hr : p.r ≤ 255) (hg : p.g ≤ 255) (hb : p.b ≤ 255) : luma p ≤ 255 :=
  Nat.div_le_div_right (c := 1000) (weighted_le hr hg hb)

theorem luma_grey (v : Nat) : luma ⟨v, v, v⟩ = v := by
  have hsum : 299 * v + 587 * v + 114 * v = 1000 * v := by omega
  rw [luma, hsum, Nat.mul_div_cancel_left v (by decide)]

/-- Settles O49: the weights add up to 1000, which bounds the luma and gives grey its value (R173; D25). -/
theorem lumaRange : Obligations.LumaRange := by
  unfold Obligations.LumaRange
  exact ⟨fun _ => rfl, fun _ hr hg hb => ⟨weighted_le hr hg hb, luma_le hr hg hb⟩, luma_grey, by decide⟩

/-! ### `CLASSIFY` (R174) -/

/-- Inversion is outside the comparison. -/
theorem classify_not (l t : Nat) (inv : Bool) : classify l t (!inv) = !classify l t inv := Bool.xor_not _ _

/-- From the threshold up a pixel is white, black when inverted. -/
theorem classify_of_le {l t : Nat} (h : t ≤ l) (inv : Bool) : classify l t inv = !inv := by simp [classify, h]

theorem classify_false_iff (l t : Nat) : classify l t false = true ↔ t ≤ l := by simp [classify]

/-- Settles O50: each corner case is one side of the comparison (R174). -/
theorem classifyThreshold : Obligations.ClassifyThreshold := by
  unfold Obligations.ClassifyThreshold
  refine ⟨fun l t inv => ⟨rfl, classify_of_le le_rfl inv, classify_of_le (Nat.zero_le l) inv, classify_not l t inv,
    fun hl => ?_⟩, by decide⟩
  rw [classify_false_iff]
  exact hl.ge_iff_eq

/-! ### The whole operation (R170, R176) -/

/-- Operands outside the `require` line are refused (R170, D29). -/
theorem exec_encode_refused {s : State} (h : s.seq.op = .idle) (hr : ¬ encodeReady hw (encodeArgs s) = true) :
    exec .encode s = .refused .encodeOperands := by
  simp only [exec, execEncode, encodeOp, if_pos h, if_neg hr]

/-- Settles O45: each of the operands breaks its own part of the `require` line (R170, D29). -/
theorem encodeRefusesOperands : Obligations.EncodeRefusesOperands := by
  unfold Obligations.EncodeRefusesOperands
  intro s hidle hbad
  refine exec_encode_refused hidle fun hready => ?_
  obtain ⟨hwidth, hheight, hdepth⟩ := (encodeReady_hw _).mp hready
  rcases hbad with hw0 | hh0 | ⟨h8, h16⟩
  · simp [encodeArgs, hw0] at hwidth
  · simp [encodeArgs, hh0] at hheight
  · exact hdepth.elim (fun hd => h8 (BitVec.eq_of_toNat_eq hd)) (fun hd => h16 (BitVec.eq_of_toNat_eq hd))

/-- Settles O46: `HEIGHT` rows of `WIDTH / 8` bytes, the division exact (R176). -/
theorem encodeSize : Obligations.EncodeSize := by
  unfold Obligations.EncodeSize
  intro c a hwidth
  calc (encodedBytes c a).length = c.height * (c.width / 8) := encodedBytes_length c a
    _ = c.width / 8 * c.height := Nat.mul_comm _ _
    _ = c.width * c.height / 8 := Nat.div_mul_right_comm (Nat.dvd_of_mod_eq_zero hwidth) _

theorem pixelWhite_not_invert (c : Cfg) (a : EncodeArgs) (x y : Nat) :
    pixelWhite c { a with invert := !a.invert } x y = !pixelWhite c a x y := classify_not _ _ _

theorem encodedByte_not_invert (c : Cfg) (a : EncodeArgs) (y xb : Nat) :
    encodedByte c { a with invert := !a.invert } y xb = ~~~encodedByte c a y xb := by
  simp only [encodedByte, pixelWhite_not_invert, pack_not]

/-- Settles O47: each pixel, so each byte, so the whole bitmap is the complement (R174 to R176). -/
theorem encodeInversion : Obligations.EncodeInversion := by
  unfold Obligations.EncodeInversion
  intro c a
  simp only [encodedBytes, encodedByte_not_invert, List.map_flatMap, List.map_map, Function.comp_def]

end Sys2Proof.Machine
end

section
/-!
PROOFS. Errors are results, not faults (60_exceptions.md): the entry checks of the panel operations (R193, R194), the
delivery of every level-H operation that ends (R200), and the absence of faults under the invariant (R205).
-/

namespace Sys2Proof.Machine

/-! ### Entry checks (R193, R194) -/

/-- An operation outside its valid state is accepted and delivers `InvalidState`, with nothing in between (R193; D4,
D8). -/
theorem exec_invalidState {s : State} {i : Instr} (h : s.seq.op = .idle)
    (hi : i = .init ∧ s.st = .awake ∨ i = .displayFull ∧ s.st ≠ .awake ∨ i = .sleep ∧ s.st = .uninitialized) :
    ∃ op, exec i s = .next (deliver (.err .invalidState) (accept op s)) := by
  rcases hi with ⟨rfl, hst⟩ | ⟨rfl, hst⟩ | ⟨rfl, hst⟩
  · exact ⟨.init, exec_init_awake h hst⟩
  · exact ⟨.display, exec_display_notAwake h hst⟩
  · exact ⟨.sleep, exec_sleep_invalid h (by simp [hst]) (by simp [hst])⟩

/-- Settles O33: in each case the operation is its acceptance and the delivery of its result (R154, R193; D4, D8). -/
theorem invalidStateChecks : Obligations.InvalidStateChecks := by
  unfold Obligations.InvalidStateChecks
  refine ⟨fun s i hidle hi => ?_, fun s hidle hst => ?_⟩
  · obtain ⟨op, he⟩ := exec_invalidState hidle hi
    exact ⟨_, he, deliver_delivered _ _, rfl, rfl, rfl, rfl, deliver_accept_quiet _ op s, rfl, rfl⟩
  · exact ⟨_, exec_sleep_asleep hidle hst, deliver_delivered _ _, deliver_accept_quiet _ .sleep s, rfl, rfl⟩

/-- Settles O34: the length check stands behind the state check and in front of the micro-program (R152, R194; D8). -/
theorem geometryMismatchCheck : Obligations.GeometryMismatchCheck := by
  unfold Obligations.GeometryMismatchCheck
  exact fun s hidle hst hlen => ⟨_, exec_display_mismatch hidle hst hlen, deliver_delivered _ _,
    deliver_accept_quiet _ .display s, rfl, rfl⟩

/-! ### Delivery (R200) -/

/-- A level-H operation that ends has delivered some result, from whatever state it started in (R148, R200). -/
theorem exec_host_delivered {s t : State} {i : Instr} (hl : i.level = .host) (he : exec i s = .next t) :
    ∃ r, Delivered r t := by
  cases i with
  | init => exact (exec_init_cases he).imp fun _ ⟨hend, _⟩ => hend.delivered
  | displayFull => exact (exec_display_cases he).imp fun _ ⟨hend, _⟩ => hend.delivered
  | sleep => exact (exec_sleep_cases he).imp fun _ ⟨hend, _⟩ => hend.delivered
  | encode =>
    obtain ⟨-, -, rfl⟩ := exec_encode_next he
    exact ⟨.ok, encodeBody_delivered hw _⟩
  | _ => cases hl

/-- A delivery sets the sequencer idle, which is what `op_ready` reads (R25, R200). -/
theorem Delivered.opReady {r : OpResult} {t : State} (h : Delivered r t) : opReady t = true := by
  simp [Machine.opReady, h.seq]

/-- Settles O56: every way a level-H operation can end is a delivery (R200; log entry 16). -/
theorem operationsEndDelivered : Obligations.OperationsEndDelivered := by
  unfold Obligations.OperationsEndDelivered
  exact fun s t i hl he => (exec_host_delivered hl he).imp fun _ h => ⟨h, h.opReady⟩

/-! ### No step faults (R205) -/

theorem hostOp_ne_fault (op : SeqOp) (body : State → State) (s : State) (f : Fault) : hostOp op body s ≠ .fault f := by
  unfold hostOp
  split <;> nofun

theorem encodeOp_ne_fault (c : Cfg) (s : State) (f : Fault) : encodeOp c s ≠ .fault f := by
  unfold encodeOp
  split
  · split <;> nofun
  · nofun

theorem execSpiTxn_ne_fault (bytes : List Byte) (s : State) (f : Fault) : execSpiTxn bytes s ≠ .fault f := by
  unfold execSpiTxn
  split <;> nofun

/-- An operation answers a next state or is refused; it has no fault (R205). -/
theorem exec_ne_fault (i : Instr) (s : State) (f : Fault) : exec i s ≠ .fault f := by
  cases i with
  | init | displayFull | sleep => exact hostOp_ne_fault _ _ s f
  | encode => exact encodeOp_ne_fault hw s f
  | spiTxn bytes => exact execSpiTxn_ne_fault bytes s f
  | _ => nofun

theorem runCode_ne_fault (level : Level) (code : List Byte) (s : State) (f : Fault) :
    runCode level code s ≠ .fault f := by
  unfold runCode
  split
  · exact exec_ne_fault _ s f
  · nofun

/-- Where `SEQ` is inside its micro-program, the block goes on: there is a micro-operation to run (R13). -/
theorem resume_ne_fault {s : State} (h : s.SeqPlaced) (hop : s.seq.op ≠ .idle) (f : Fault) : resume hw s ≠ .fault f := by
  obtain ⟨-, -, hplaced⟩ := h
  unfold resume
  split
  · split <;> nofun
  case isFalse henc =>
    rw [List.getElem?_eq_getElem (hplaced hop henc)]
    nofun

/-- Settles O55: an idle block runs an operation, a host write or nothing, none of which faults; in an operation the
invariant keeps `SEQ` inside the micro-program (R13, R205; log entry 21). -/
theorem noStepFaults : Obligations.NoStepFaults := by
  unfold Obligations.NoStepFaults
  intro s f hs
  by_cases hidle : s.seq.op = .idle
  · cases hb : s.bench with
    | some b =>
      rw [step_bench hidle hb]
      exact runCode_ne_fault _ _ _ f
    | none =>
      match hp : s.pending with
      | [] => simp [step, hidle, hb, hp]
      | .write w :: rest =>
        rw [step_write hidle hb hp]
        nofun
      | .issue code :: rest =>
        rw [step_issue hidle hb hp]
        exact runCode_ne_fault _ _ _ f
  · simp only [step, if_neg hidle]
    exact resume_ne_fault hs.seq hidle f

end Sys2Proof.Machine
end
